-- ==== Sys2Proof/Word.lean ====
section
/-! DEFINITION. The words of the MOE: bytes, 32-bit register words, 16-byte blocks. -/

namespace Sys2Proof

/-- A byte, 0 to 255 (00_scope.md R13). -/
abbrev Byte := BitVec 8

/-- `Bytes(n)`: a sequence of bytes indexed from 0 (00_scope.md R13). -/
abbrev Bytes := List Byte

/-- A register word, 32 bits (10_state.md R32). -/
abbrev Word := BitVec 32

/-- A `Block` (00_scope.md R15), held as `val(B)`: the 128-bit number whose most significant byte is byte 0 of
the block. `Block.ofBytes` and `Block.toBytes` (Machine/Ops.lean) go between the two views. -/
abbrev Block := BitVec 128

end Sys2Proof
end

