-- ==== Sys2Proof/Config.lean ====
section
/-! DEFINITION. What the implementation fixes (00_scope.md R12, 20_memory.md R83), the block primitive (00_scope.md
R21 to R23), and the free values (93_implementation_defined.md, treatment "any value"). -/

namespace Sys2Proof

/-- The direction of a key slot (10_state.md R40). -/
inductive Direction where
  | encrypt
  | decrypt
  deriving DecidableEq, Repr, Inhabited

/-- The three key lengths, in bits (00_scope.md R11). -/
inductive KeySize where
  | k128
  | k192
  | k256
  deriving DecidableEq, Repr, Inhabited

/-- The key length in bits (00_scope.md R11). -/
def KeySize.bits : KeySize → Nat
  | .k128 => 128
  | .k192 => 192
  | .k256 => 256

/-- `keyBits/8`: how many raw key bytes there are (40_setup.md R143). -/
def KeySize.bytes (k : KeySize) : Nat := k.bits / 8

/-- The round count of a key length (00_scope.md R11, R22). The MOE never computes it: only property `P_RC` names
it. -/
def KeySize.rounds : KeySize → Nat
  | .k128 => 10
  | .k192 => 12
  | .k256 => 14

/-- The three modes of operation (10_state.md R44). -/
inductive Mode where
  | ecb
  | cbc
  | cfb1
  deriving DecidableEq, Repr, Inhabited

/-- `kind ∈ {read, write}` of an engine access (20_memory.md R83). -/
inductive AccessKind where
  | read
  | write
  deriving DecidableEq, Repr, Inhabited

/-- `ECB_PAD_RULE` (42_padded.md R237). -/
inductive EcbPadRule where
  | harmonized
  | reference
  deriving DecidableEq, Repr, Inhabited

/-- A range of system addresses that the platform lets the engine read, write or both: one entry of `MemAdmits`
(20_memory.md R83; DESIGN CHOICE: a predicate on finitely many addresses is a list of ranges, entry 2). -/
structure Region where
  base : Nat
  size : Nat
  readable : Bool
  writable : Bool
  deriving DecidableEq, Repr, Inhabited

/-- The region admits an access of this kind to address `a`. -/
def Region.admits (r : Region) (a : Nat) (kind : AccessKind) : Bool :=
  decide (r.base ≤ a) && decide (a < r.base + r.size) &&
    match kind with
    | .read => r.readable
    | .write => r.writable

/-- The parameters of 00_scope.md R12 and the platform predicate of 20_memory.md R83, as plain data: the argument
the model takes. It stands in `State.cfg`, and no step changes it (entry 1). -/
structure Config where
  /-- `NUM_KEY_SLOTS`, 1 to 16. -/
  numKeySlots : Nat
  /-- `NUM_CTX`, 1 to 16. -/
  numCtx : Nat
  /-- `ADDR_W`, 1 to 32. -/
  addrW : Nat
  /-- `REG_BASE`, 256-byte aligned. -/
  regBase : Nat
  /-- `MemAdmits(a, kind)`, as a list of ranges. -/
  memMap : List Region
  /-- `ECB_PAD_RULE`. This hardware takes `HARMONIZED` (42_padded.md R237). -/
  ecbPadRule : EcbPadRule
  deriving DecidableEq, Repr, Inhabited

/-- The bounds 00_scope.md R12 puts on the parameters. -/
def Config.wf (c : Config) : Bool :=
  decide (1 ≤ c.numKeySlots) && decide (c.numKeySlots ≤ 16) &&
  decide (1 ≤ c.numCtx) && decide (c.numCtx ≤ 16) &&
  decide (1 ≤ c.addrW) && decide (c.addrW ≤ 32) &&
  decide (c.regBase % 256 = 0)

/-- The parameters the reset state carries (DESIGN CHOICE, entry 1): the values the test vectors assume
(00_scope.md R12; 95_test_vectors.md), a base of 0xF0000000, every address admitted, and `HARMONIZED`. -/
def Config.initial : Config where
  numKeySlots := 4
  numCtx := 4
  addrW := 32
  regBase := 0xF0000000
  memMap := [⟨0, 2 ^ 32, true, true⟩]
  ecbPadRule := .harmonized

/-- A round-key schedule (`RK`, 00_scope.md R12: an open type), held as a byte string (DESIGN CHOICE, entry 4). -/
abbrev RK := Bytes

/-- The block primitive as configuration functions (00_scope.md R21). -/
structure Primitive where
  /-- `KeyExpand(raw, keyBits, direction) -> (RK, roundCount)`. -/
  keyExpand : Bytes → KeySize → Direction → RK × Nat
  /-- `Fwd(rk, roundCount, in)`. -/
  fwd : RK → Nat → Block → Block
  /-- `Inv(rk, roundCount, in)`. -/
  inv : RK → Nat → Block → Block
  deriving Inhabited

/-- `P_RC` (00_scope.md R22): the round count is 10, 12 or 14 by key size, whatever the direction. -/
def Primitive.RoundCounts (p : Primitive) : Prop :=
  ∀ raw ks d, (p.keyExpand raw ks d).2 = ks.rounds

/-- `P_INV` (00_scope.md R23): `Inv` under the decryption schedule undoes `Fwd` under the encryption schedule of the
same raw key. -/
def Primitive.Inverts (p : Primitive) : Prop :=
  ∀ raw ks x, raw.length = ks.bytes →
    p.inv (p.keyExpand raw ks .decrypt).1 (p.keyExpand raw ks .encrypt).2
      (p.fwd (p.keyExpand raw ks .encrypt).1 (p.keyExpand raw ks .encrypt).2 x) = x

/-- This hardware's block primitive: an external collaborator of which nothing is assumed (00_scope.md R7, R21;
entry 3). A claim that needs `P_RC` or `P_INV` takes it as a premise. -/
opaque Config.primitive : Primitive

/-- Free value: the byte a draw gives (93_implementation_defined.md U2, U10; entry 7). Nothing constrains it. -/
opaque Config.freeByte : Nat → Byte

/-- Free value: the 16 bytes a draw gives (93_implementation_defined.md U1; entry 7). Nothing constrains it. -/
opaque Config.freeBlock : Nat → Block

/-- `a` lies in the register window `REG_BASE .. REG_BASE + 0xFF` (10_state.md R32). -/
def Config.inWindow (c : Config) (a : Nat) : Bool :=
  decide (c.regBase ≤ a) && decide (a < c.regBase + 256)

end Sys2Proof
end

