-- ==== Sys2Proof/Syntax.lean ====
section
/-! DEFINITION. The six commands of the MOE (30_encoding.md R113), one constructor for each row of
spec/opcode_table.json, with the fields of the command word that the command reads. -/

namespace Sys2Proof

/-- A command. The selectors are the unsigned 4-bit indices KSEL and CSEL (30_encoding.md R111); `Instr.wellFormed`
bounds them. Fields a command does not read have no place here (30_encoding.md R115; entry 19). -/
inductive Instr where
  /-- MAKEKEY (OPC 0x01): key slot KSEL, key material present KMP. -/
  | makekey (ksel : Nat) (kmp : Bool)
  /-- CIPHERINIT (OPC 0x02): context CSEL, IV present IVP. -/
  | cipherinit (csel : Nat) (ivp : Bool)
  /-- BLKENC (OPC 0x03). -/
  | blkenc (ksel csel : Nat)
  /-- BLKDEC (OPC 0x04). -/
  | blkdec (ksel csel : Nat)
  /-- PADENC (OPC 0x05). -/
  | padenc (ksel csel : Nat)
  /-- PADDEC (OPC 0x06). -/
  | paddec (ksel csel : Nat)
  deriving DecidableEq, Repr

end Sys2Proof
end

