-- ==== Sys2Proof/WellFormed.lean ====
section
/-! DEFINITION. Which instruction terms a command word can spell: KSEL and CSEL are 4-bit fields (30_encoding.md R110,
R111). A selector past the last slot that exists is well formed: it is an absent handle. -/

namespace Sys2Proof

/-- A selector fits its 4-bit field. -/
def selectorOk (sel : Nat) : Bool := decide (sel < 16)

/-- The command's fields fit the command word. -/
def Instr.wellFormed : Instr → Bool
  | .makekey ksel _ => selectorOk ksel
  | .cipherinit csel _ => selectorOk csel
  | .blkenc ksel csel => selectorOk ksel && selectorOk csel
  | .blkdec ksel csel => selectorOk ksel && selectorOk csel
  | .padenc ksel csel => selectorOk ksel && selectorOk csel
  | .paddec ksel csel => selectorOk ksel && selectorOk csel

end Sys2Proof
end

