-- ==== Sys2Proof/Decode.lean ====
section
/-! DEFINITION. From a command word to a command and back (30_encoding.md R110 to R118, R122). -/

namespace Sys2Proof

/-- Why a command word spells no command. -/
inductive Reject where
  /-- OPC is 0x00 or 0x07 to 0xFF (30_encoding.md R114). The engine executes such a word as BadCommand. -/
  | illegalOpcode (opc : BitVec 8)
  deriving DecidableEq, Repr

/-- OPC, bits [7:0] (30_encoding.md R110). -/
def fieldOpc (w : Word) : BitVec 8 := w.extractLsb' 0 8

/-- KSEL, bits [11:8] (30_encoding.md R110, R111). -/
def fieldKsel (w : Word) : Nat := (w.extractLsb' 8 4).toNat

/-- CSEL, bits [15:12] (30_encoding.md R110, R111). -/
def fieldCsel (w : Word) : Nat := (w.extractLsb' 12 4).toNat

/-- KMP, bit [16] (30_encoding.md R110, R112). -/
def fieldKmp (w : Word) : Bool := w.getLsbD 16

/-- IVP, bit [17] (30_encoding.md R110, R112). -/
def fieldIvp (w : Word) : Bool := w.getLsbD 17

/-- The decoder: total on command words (30_encoding.md R113, R114, R122). Bits [31:18] and the fields a command does
not read are ignored (R115). -/
def decode (w : Word) : Except Reject Instr :=
  let opc := fieldOpc w
  if opc = 0x01 then .ok (.makekey (fieldKsel w) (fieldKmp w))
  else if opc = 0x02 then .ok (.cipherinit (fieldCsel w) (fieldIvp w))
  else if opc = 0x03 then .ok (.blkenc (fieldKsel w) (fieldCsel w))
  else if opc = 0x04 then .ok (.blkdec (fieldKsel w) (fieldCsel w))
  else if opc = 0x05 then .ok (.padenc (fieldKsel w) (fieldCsel w))
  else if opc = 0x06 then .ok (.paddec (fieldKsel w) (fieldCsel w))
  else .error (.illegalOpcode opc)

/-- A command word put together from its fields, the reserved bits written 0 (30_encoding.md R110, R115). -/
def packWord (opc : BitVec 8) (ksel csel : Nat) (kmp ivp : Bool) : Word :=
  (0 : BitVec 14) ++ BitVec.ofBool ivp ++ BitVec.ofBool kmp ++ BitVec.ofNat 4 csel ++ BitVec.ofNat 4 ksel ++ opc

/-- The encoder: the word of a command, with every field it does not read written 0 (30_encoding.md R113, R115,
R120 "Omitted fields are 0"). -/
def encode : Instr → Word
  | .makekey ksel kmp => packWord 0x01 ksel 0 kmp false
  | .cipherinit csel ivp => packWord 0x02 0 csel false ivp
  | .blkenc ksel csel => packWord 0x03 ksel csel false false
  | .blkdec ksel csel => packWord 0x04 ksel csel false false
  | .padenc ksel csel => packWord 0x05 ksel csel false false
  | .paddec ksel csel => packWord 0x06 ksel csel false false

/-- The command word whose low `nbits` bits are those of `w` and whose other bits are 0. A command is ONE 32-bit word
(30_encoding.md R118), so there is no byte order and no second word. -/
def tableWord (nbits w : Nat) : Word := BitVec.ofNat 32 (w % 2 ^ nbits)

/-- The command the decoder reads from the word whose bits are `w`, numbered as spec/opcode_table.json numbers them;
none where the decoder rejects it. -/
def decodeTableWord (nbits w : Nat) : Option Instr :=
  match decode (tableWord nbits w) with
  | .ok i => some i
  | .error _ => none

end Sys2Proof
end

