-- ==== Sys2Proof/Machine/State.lean ====
section
/-! DEFINITION. The state of the MOE and its environment, as plain data (10_state.md), the ways a step can stop, and
the state after reset (10_state.md R58, 70_reset_and_hazards.md R290). -/

namespace Sys2Proof.Machine

/-- The error kinds (60_exceptions.md R260). -/
inductive ErrorKind where
  | badKeyDirection
  | badKeyMaterial
  | badKeyInstance
  | badCipherMode
  | badCipherState
  | badCipherInstance
  | badData
  | badCommand
  deriving DecidableEq, Repr

/-- The result kind of a completed command, the content of STATUS.ERR (10_state.md R34). `Result.code`
(Machine/Flags.lean) gives its 4 bits. -/
inductive Result where
  | success
  | failed (e : ErrorKind)
  deriving DecidableEq, Repr

/-- A key slot (10_state.md R40). -/
structure KeySlot where
  /-- 1 once a MAKEKEY on this slot has succeeded. -/
  valid : Bool
  dir : Direction
  keyBits : KeySize
  /-- The schedule for `dir`. -/
  rk : RK
  /-- `roundCount`, as `KeyExpand` returned it. -/
  nr : Nat
  /-- `forwardRoundKeys`: the encryption schedule of the same raw key. -/
  frk : RK
  deriving DecidableEq, Repr

/-- A context (10_state.md R44). -/
structure Context where
  /-- 1 once a CIPHERINIT on this context has succeeded. -/
  valid : Bool
  mode : Mode
  /-- The feedback register. -/
  reg : Block
  deriving DecidableEq, Repr

/-- The latched argument record `L` (10_state.md R50). -/
structure Latch where
  cmd : Word
  param : Word
  src : Word
  dst : Word
  len : Word
  /-- The 64 characters of KEYMAT. -/
  keymat : Vector Byte 64
  /-- The 32 characters of IVHEX. -/
  ivhex : Vector Byte 32
  deriving DecidableEq, Repr

/-- System memory: the bytes that differ from `Memory.unlisted`, at strictly rising addresses. Machine/Ops.lean holds
its operations and `Memory.wf`. -/
abbrev Memory := List Host.Cell

/-- The bytes `[base, base + len)`. -/
structure Span where
  base : Nat
  len : Nat
  deriving DecidableEq, Repr

/-- The bytes a command reads and the bytes it writes (20_memory.md R86). -/
structure Footprint where
  reads : Span
  writes : Span
  deriving DecidableEq, Repr

/-- A command that has ended, whose bytes a host must not touch until that host observes BUSY = 0
(70_reset_and_hazards.md R296): what it accessed, and the hosts that have observed it since. -/
structure Retired where
  fp : Footprint
  seenBy : List Nat
  deriving DecidableEq, Repr

/-- Fault marks (10_state.md R51). -/
inductive FaultMark where
  /-- A host touched a byte of the running command, or of one whose end it has not observed (20_memory.md R92,
  70_reset_and_hazards.md R296). -/
  | bufferRace
  deriving DecidableEq, Repr

/-- What happens next, outside the machine or by the scheduling of its agents (10_state.md R30; 60_exceptions.md R269;
30_encoding.md R120). Addresses are system addresses; `width` is in bytes. `host` is the number of
the host, where what it observes matters (entry 21); the MOE itself tells no hosts apart (60_exceptions.md R273). -/
inductive Event where
  /-- The engine's turn (10_state.md R57). -/
  | engine
  /-- A host spins on STATUS until BUSY = 0 (30_encoding.md R120 `WAIT`). -/
  | wait (host : Nat)
  /-- A host write into the register window (30_encoding.md R120 `WR`). -/
  | regWrite (addr width : Nat) (w : Word)
  /-- A host read from the register window (30_encoding.md R120 `RD`). -/
  | regRead (host addr width : Nat)
  /-- A host writes bytes of system memory upward from `addr` (30_encoding.md R120 `MEMW`). -/
  | memWrite (host addr : Nat) (data : Bytes)
  /-- A host reads `n` bytes of system memory upward from `addr` (30_encoding.md R120 `MEMR`). -/
  | memRead (host addr n : Nat)
  /-- The MOE is reset (70_reset_and_hazards.md R290, R291). -/
  | reset
  deriving DecidableEq, Repr

/-- What a host read returned. -/
inductive Reading where
  | word (w : Word)
  | bytes (bs : Bytes)
  deriving DecidableEq, Repr

/-- The whole machine: the MOE's architectural state (10_state.md), system memory, the constant parameters, and the
model's own fields (from `draws` on). -/
structure State where
  /-- The parameters (00_scope.md R12). Constant: no step changes them (entry 1). -/
  cfg : Config
  /-- STATUS.DROP (10_state.md R34). -/
  drop : Bool
  /-- STATUS.ERR (10_state.md R34). -/
  err : Result
  /-- COUNT (10_state.md R35). -/
  count : Word
  /-- PARAM (10_state.md R36). -/
  param : Word
  /-- SRC (10_state.md R37). -/
  src : Word
  /-- DST (10_state.md R37). -/
  dst : Word
  /-- LEN (10_state.md R38). -/
  len : Word
  /-- KEYMAT[0..15] (10_state.md R39). -/
  keymat : Vector Word 16
  /-- IVHEX[0..7] (10_state.md R39). -/
  ivhex : Vector Word 8
  /-- KS[0..15]; the first NUM_KEY_SLOTS are present (10_state.md R40, 30_encoding.md R111). -/
  keySlots : Vector KeySlot 16
  /-- CTX[0..15]; the first NUM_CTX are present (10_state.md R44, 30_encoding.md R111). -/
  contexts : Vector Context 16
  /-- `L` (10_state.md R50). Present exactly while STATUS.BUSY = 1: this field is BUSY's home (entry 11). -/
  latch : Option Latch
  /-- System memory (20_memory.md R80). -/
  mem : Memory
  /-- The set of fault marks (10_state.md R51). -/
  faultMarks : List FaultMark
  /-- The model's own: how many free values have been drawn (entry 7). -/
  draws : Nat
  /-- The model's own: what happens next, in order (entry 8). -/
  events : List Event
  /-- The model's own: what the hosts' reads have returned, newest first (entry 8). -/
  observed : List Reading
  /-- The model's own: the commands that have ended, newest first, each with the hosts that have observed BUSY = 0 since
  (70_reset_and_hazards.md R296; entry 21). -/
  retired : List Retired
  deriving DecidableEq, Repr

/-- The ways the machine stops. -/
inductive Fault where
  /-- Raised by the four data commands' meanings: an access of the command is not admitted, so the engine has no step
  for it (20_memory.md R83, R84: stuck). Safe. The machine's step does not stop with it: it leaves BUSY = 1 and lets
  the hosts go on (entry 10). -/
  | notAdmitted
  /-- Raised by every meaning when no command is latched: an idle engine has no step (10_state.md R57). The machine's
  step never runs a meaning then. Safe (entry 16). -/
  | engineIdle
  /-- Raised by the machine's step in a state with a fault mark: the run has no meaning (20_memory.md R92). Safe
  (entry 12). -/
  | bufferRace
  /-- Raised by the machine's step on a host access to a byte outside system memory (20_memory.md R80). Safe
  (entry 15). -/
  | hostAddress
  deriving DecidableEq, Repr

/-- The steps the model has no meaning for. -/
inductive Refusal where
  /-- Reserved for exec's arms of instructions without a meaning yet. No arm answers it: all six have one. Safe. -/
  | notModelled (mnemonic : String)
  /-- Raised by the machine's step on a host access to the register window that is not an aligned 32-bit access inside
  it: "the model gives the host no step for it" (10_state.md R54). Safe. -/
  | windowAccess
  deriving DecidableEq, Repr

/-- A key slot after reset: invalid (10_state.md R43). The other fields are unspecified there; these values are the
model's (DESIGN CHOICE, unsafe, entry 5). -/
def KeySlot.reset : KeySlot where
  valid := false
  dir := .encrypt
  keyBits := .k128
  rk := []
  nr := 0
  frk := []

/-- A context after reset: invalid (10_state.md R49). The other fields are unspecified there; these values are the
model's (DESIGN CHOICE, unsafe, entry 5). -/
def Context.reset : Context where
  valid := false
  mode := .ecb
  reg := 0

/-- The reset values of 10_state.md R58 on a machine with parameters `c`, nothing listed in memory. -/
def State.resetWith (c : Config) : State where
  cfg := c
  drop := false
  err := .success
  count := 0
  param := 0
  src := 0
  dst := 0
  len := 0
  keymat := Vector.replicate 16 0
  ivhex := Vector.replicate 8 0
  keySlots := Vector.replicate 16 KeySlot.reset
  contexts := Vector.replicate 16 Context.reset
  latch := none
  mem := []
  faultMarks := []
  draws := 0
  events := []
  observed := []
  retired := []

/-- The machine right after reset. -/
def State.reset : State := State.resetWith Config.initial

end Sys2Proof.Machine
end

