-- ==== Sys2Proof/Machine/Flags.lean ====
section
/-! DEFINITION. The flags of the MOE: BUSY, DROP, ERR and the STATUS word they make (10_state.md R34, R52; 60_exceptions.md
R260), and the handle and valid checks (30_encoding.md R111). -/

namespace Sys2Proof.Machine

/-- The STATUS.ERR code of an error kind (60_exceptions.md R260). -/
def ErrorKind.code : ErrorKind → BitVec 4
  | .badKeyDirection => 1
  | .badKeyMaterial => 2
  | .badKeyInstance => 3
  | .badCipherMode => 4
  | .badCipherState => 5
  | .badCipherInstance => 7
  | .badData => 8
  | .badCommand => 15

/-- The content of STATUS.ERR (60_exceptions.md R260). -/
def Result.code : Result → BitVec 4
  | .success => 0
  | .failed e => e.code

/-- STATUS.BUSY: an accepted command has not completed (10_state.md R34, R53). -/
def State.busy (s : State) : Bool := s.latch.isSome

/-- The STATUS word: ERR in [7:4], DROP in [1], BUSY in [0], the rest 0 (10_state.md R34). -/
def State.status (s : State) : Word :=
  (0 : BitVec 24) ++ s.err.code ++ (0 : BitVec 2) ++ BitVec.ofBool s.drop ++ BitVec.ofBool s.busy

/-- The key handle is present (30_encoding.md R111). -/
def State.keyPresent (s : State) (ksel : Nat) : Bool := decide (ksel < s.cfg.numKeySlots)

/-- The context handle is present (30_encoding.md R111). -/
def State.ctxPresent (s : State) (csel : Nat) : Bool := decide (csel < s.cfg.numCtx)

end Sys2Proof.Machine
end

