-- ==== Sys2Proof/Machine/Operands.lean ====
section
/-! DEFINITION. How commands and host accesses read their operands: the fields of the latched record (30_encoding.md
R116, R117), the hex decoder (40_setup.md R141, R142), and the register a window offset names (10_state.md R32). -/

namespace Sys2Proof.Machine

/-- `L.dir` (10_state.md R50, 30_encoding.md R116). -/
def Latch.dirField (L : Latch) : Nat := (L.param.extractLsb' 0 8).toNat

/-- `L.mode` (10_state.md R50, 30_encoding.md R116). -/
def Latch.modeField (L : Latch) : Nat := (L.param.extractLsb' 8 8).toNat

/-- `L.keyBits` (10_state.md R50, 30_encoding.md R116). -/
def Latch.keyBitsField (L : Latch) : Nat := (L.param.extractLsb' 16 16).toNat

/-- `L.len`, read as `s32` (00_scope.md R14, 10_state.md R38). -/
def Latch.length (L : Latch) : Int := L.len.toInt

/-- `L.src` as an address (30_encoding.md R116). -/
def Latch.srcAddr (L : Latch) : Nat := L.src.toNat

/-- `L.dst` as an address (30_encoding.md R116). -/
def Latch.dstAddr (L : Latch) : Nat := L.dst.toNat

/-- The direction a field value encodes; every other value is illegal (30_encoding.md R117). -/
def Direction.ofField (v : Nat) : Option Direction :=
  if v = 0 then some .encrypt else if v = 1 then some .decrypt else none

/-- The mode a field value encodes; every other value is illegal (30_encoding.md R117). -/
def Mode.ofField (v : Nat) : Option Mode :=
  if v = 1 then some .ecb else if v = 2 then some .cbc else if v = 3 then some .cfb1 else none

/-- The key size a field value encodes: the number itself; every other value is illegal (30_encoding.md R117). -/
def KeySize.ofField (v : Nat) : Option KeySize :=
  if v = 128 then some .k128 else if v = 192 then some .k192 else if v = 256 then some .k256 else none

/-- Character `c` of a character buffer: byte `c mod 4` of word `c div 4`, least significant byte first (10_state.md
R39). -/
def charAt {n : Nat} (ws : Vector Word n) (c : Nat) : Byte :=
  (ws[c / 4]?.getD 0).extractLsb' (8 * (c % 4)) 8

/-- The 64 characters of KEYMAT (10_state.md R39). -/
def keymatChars (ws : Vector Word 16) : Vector Byte 64 := Vector.ofFn fun c => charAt ws c.val

/-- The 32 characters of IVHEX (10_state.md R39). -/
def ivhexChars (ws : Vector Word 8) : Vector Byte 32 := Vector.ofFn fun c => charAt ws c.val

/-- `nib(c)`: the value of one hex digit, none where INVALID (40_setup.md R141). -/
def nib (c : Byte) : Option Nat :=
  if 0x30 ≤ c.toNat ∧ c.toNat ≤ 0x39 then some (c.toNat - 0x30)
  else if 0x61 ≤ c.toNat ∧ c.toNat ≤ 0x66 then some (c.toNat - 0x61 + 10)
  else if 0x41 ≤ c.toNat ∧ c.toNat ≤ 0x46 then some (c.toNat - 0x41 + 10)
  else none

/-- `hexDecode(chars, n)`: exactly `n` bytes from exactly the first `2n` characters, high nibble first, none where
INVALID (40_setup.md R142). -/
def hexDecode : Bytes → Nat → Option Bytes
  | _, 0 => some []
  | h :: l :: rest, n + 1 =>
    match nib h, nib l, hexDecode rest n with
    | some hv, some lv, some out => some (BitVec.ofNat 8 (hv * 16 + lv) :: out)
    | _, _, _ => none
  | _, _ + 1 => none

/-- The registers of the window (10_state.md R32). -/
inductive Reg where
  | cmd
  | status
  | count
  | param
  | src
  | dst
  | len
  | keymat (j : Nat)
  | ivhex (j : Nat)
  | reserved
  deriving DecidableEq, Repr

/-- The register at a word-aligned window offset (10_state.md R32). -/
def Reg.ofOffset (off : Nat) : Reg :=
  if off = 0x000 then .cmd
  else if off = 0x004 then .status
  else if off = 0x008 then .count
  else if off = 0x00C then .param
  else if off = 0x010 then .src
  else if off = 0x014 then .dst
  else if off = 0x018 then .len
  else if 0x040 ≤ off ∧ off < 0x080 then .keymat ((off - 0x040) / 4)
  else if 0x080 ≤ off ∧ off < 0x0A0 then .ivhex ((off - 0x080) / 4)
  else .reserved

/-- A host access to the window is admitted: 32 bits wide, aligned, inside the window (10_state.md R54). -/
def windowAccessOk (c : Config) (addr width : Nat) : Bool :=
  c.inWindow addr && decide (width = 4) && decide ((addr - c.regBase) % 4 = 0)

end Sys2Proof.Machine
end

