-- ==== Sys2Proof/Machine/Ops.lean ====
section
/-! DEFINITION. The shared operations: blocks and their bits, memory, admission, slots and contexts, the register window,
accepting a command, completing one (`raise`, `finish`), and taking an engine step as a whole. -/

namespace Sys2Proof

/-! ### Blocks (00_scope.md R15 to R17) -/

/-- `val` of a byte sequence: its first byte is the most significant (00_scope.md R15). -/
def bytesVal (bs : Bytes) : Nat := bs.foldl (fun acc b => acc * 256 + b.toNat) 0

/-- The Block of a sequence of 16 bytes, byte 0 most significant (00_scope.md R15). -/
def Block.ofBytes (bs : Bytes) : Block := BitVec.ofNat 128 (bytesVal bs)

/-- Byte `j` of a Block (00_scope.md R15). -/
def Block.byte (B : Block) (j : Nat) : Byte := B.extractLsb' (8 * (15 - j)) 8

/-- The 16 bytes of a Block, byte 0 first (00_scope.md R15). -/
def Block.toBytes (B : Block) : Bytes := (List.range 16).map (Block.byte B)

/-- `bitAt(B, k)`: bit `127 - k` of `val(B)` (00_scope.md R16). -/
def Block.bitAt (B : Block) (k : Nat) : Bool := B.getLsbD (127 - k)

/-- `setBit(B, k, v)` (00_scope.md R16). -/
def Block.setBit (B : Block) (k : Nat) (v : Bool) : Block :=
  if v then B ||| (1#128 <<< (127 - k)) else B &&& ~~~(1#128 <<< (127 - k))

/-- `shiftInBit(R, b) = blk((2·val(R) + b) mod 2^128)` (00_scope.md R17). -/
def Block.shiftInBit (R : Block) (b : Bool) : Block := BitVec.ofNat 128 (2 * R.toNat + b.toNat)

/-- `peekTop(S) = bitAt(S, 0)` (00_scope.md R17). -/
def Block.peekTop (S : Block) : Bool := Block.bitAt S 0

end Sys2Proof

namespace Sys2Proof.Machine

/-! ### System memory (20_memory.md R80 to R85; 00_scope.md R18) -/

/-- What a byte reads as that nothing has written. The spec gives none (10_state.md R58: memory is the platform's):
DESIGN CHOICE, unsafe, entry 6. -/
def Memory.unlisted : Byte := 0

/-- The canonical form from address `lo` on: addresses strictly rising, no entry equal to what an unlisted address
reads as. -/
def Memory.wfFrom : Nat → Memory → Bool
  | _, [] => true
  | lo, (a, v) :: m => decide (lo ≤ a) && decide (v ≠ Memory.unlisted) && Memory.wfFrom (a + 1) m

/-- The canonical form of a memory. -/
def Memory.wf (m : Memory) : Bool := Memory.wfFrom 0 m

/-- The byte at an address. -/
def Memory.read : Memory → Nat → Byte
  | [], _ => Memory.unlisted
  | (b, v) :: m, a => if a = b then v else Memory.read m a

/-- One entry in front, left out if it says what an unlisted address says anyway. -/
def Memory.consCell (a : Nat) (v : Byte) (m : Memory) : Memory := if v = Memory.unlisted then m else (a, v) :: m

/-- Writes one byte, keeping the canonical form. -/
def Memory.write : Memory → Nat → Byte → Memory
  | [], a, v => Memory.consCell a v []
  | (b, w) :: m, a, v =>
    if a < b then Memory.consCell a v ((b, w) :: m)
    else if a = b then Memory.consCell a v m
    else (b, w) :: Memory.write m a v

/-- `MemRead(a, n)` (00_scope.md R18). -/
def Memory.readBytes (m : Memory) (a n : Nat) : Bytes := (List.range n).map fun j => Memory.read m (a + j)

/-- `MemWrite(a, n, v)` with the `n` bytes of the list, in rising order of address (00_scope.md R18). -/
def Memory.writeBytes : Memory → Nat → Bytes → Memory
  | m, _, [] => m
  | m, a, v :: vs => Memory.writeBytes (Memory.write m a v) (a + 1) vs

/-- `MemRead(a, 16)` as a Block (20_memory.md R81). -/
def Memory.readBlock (m : Memory) (a : Nat) : Block := Block.ofBytes (Memory.readBytes m a 16)

/-- `MemWrite(a, 16, B)` (20_memory.md R81). -/
def Memory.writeBlock (m : Memory) (a : Nat) (B : Block) : Memory := Memory.writeBytes m a (Block.toBytes B)

/-- `a` is an address of system memory: below 2^ADDR_W and outside the register window (20_memory.md R80, R83). -/
def isSystemAddr (c : Config) (a : Nat) : Bool := decide (a < 2 ^ c.addrW) && !c.inWindow a

/-- An engine access of this kind to byte address `a` is admitted (20_memory.md R83). -/
def admitted (c : Config) (kind : AccessKind) (a : Nat) : Bool :=
  isSystemAddr c a && c.memMap.any fun r => r.admits a kind

/-- A draw per byte for the first `n` bytes from `base` on, those that are bytes of system memory: byte `j` becomes
free value number `d + j` (93_implementation_defined.md U2, U10; entry 7). -/
def Memory.drawBytes (c : Config) (m : Memory) (base d : Nat) : Nat → Memory
  | 0 => m
  | n + 1 =>
    if isSystemAddr c (base + n) then
      Memory.write (Memory.drawBytes c m base d n) (base + n) (Config.freeByte (d + n))
    else Memory.drawBytes c m base d n

/-! ### The bytes a command touches (20_memory.md R86) -/

/-- The empty range. -/
def Span.none : Span := ⟨0, 0⟩

/-- The address lies in the range. -/
def Span.contains (r : Span) (a : Nat) : Bool := decide (r.base ≤ a) && decide (a < r.base + r.len)

/-- The two ranges share a byte. -/
def Span.meets (r q : Span) : Bool :=
  decide (0 < r.len) && decide (0 < q.len) && decide (r.base < q.base + q.len) && decide (q.base < r.base + r.len)

/-- No access (20_memory.md R86, last row). -/
def Footprint.none : Footprint := ⟨Span.none, Span.none⟩

/-- The access to `r` shares a byte with what the command reads or writes. -/
def Footprint.meets (f : Footprint) (r : Span) : Bool := f.reads.meets r || f.writes.meets r

/-- The command accesses no byte. -/
def Footprint.isEmpty (f : Footprint) : Bool := decide (f.reads.len = 0) && decide (f.writes.len = 0)

/-- Every byte of the range is admitted for accesses of this kind. -/
def Span.admitted (c : Config) (kind : AccessKind) (r : Span) : Bool :=
  (List.range r.len).all fun j => Machine.admitted c kind (r.base + j)

/-- Every access of the command is admitted (20_memory.md R84). -/
def Footprint.admitted (c : Config) (f : Footprint) : Bool :=
  f.reads.admitted c .read && f.writes.admitted c .write

/-! ### Key slots and contexts (10_state.md R40, R44) -/

/-- `KS[i]`. -/
def State.slot (s : State) (i : Nat) : KeySlot := s.keySlots[i]?.getD KeySlot.reset

/-- `CTX[j]`. -/
def State.context (s : State) (j : Nat) : Context := s.contexts[j]?.getD Context.reset

/-- `KS[i] <- k`, all six fields at once (40_setup.md R152). -/
def State.setSlot (s : State) (i : Nat) (k : KeySlot) : State := { s with keySlots := s.keySlots.setIfInBounds i k }

/-- `CTX[j] <- x` (40_setup.md R162). -/
def State.setContext (s : State) (j : Nat) (x : Context) : State :=
  { s with contexts := s.contexts.setIfInBounds j x }

/-- `CTX[j].reg <- r` (41_block.md R180). -/
def State.setReg (s : State) (j : Nat) (r : Block) : State := s.setContext j { s.context j with reg := r }

/-- System memory becomes `m`. -/
def State.setMem (s : State) (m : Memory) : State := { s with mem := m }

/-- `checkHandles` (41_block.md R180). -/
def checkHandles (ksel csel : Nat) (s : State) : Except ErrorKind (KeySlot × Context) :=
  if !s.keyPresent ksel || !(s.slot ksel).valid then .error .badCipherState
  else if !s.ctxPresent csel || !(s.context csel).valid then .error .badCipherState
  else .ok (s.slot ksel, s.context csel)

/-- The slot MAKEKEY builds from raw key bytes: `KeyExpand` for the slot's direction gives rk and nr, `KeyExpand` forced
to Encrypt gives frk (40_setup.md R150, R151). -/
def makeSlot (p : Primitive) (raw : Bytes) (ks : KeySize) (d : Direction) : KeySlot where
  valid := true
  dir := d
  keyBits := ks
  rk := (p.keyExpand raw ks d).1
  nr := (p.keyExpand raw ks d).2
  frk := (p.keyExpand raw ks .encrypt).1

/-! ### Completion (60_exceptions.md R262): the MOE's one way of reporting an error, and its success beside it -/

/-- `raise E`: ERR takes the error's code, COUNT is 0, BUSY is cleared (60_exceptions.md R262). There are no traps and
no return from one (R261, R266). -/
def raise (e : ErrorKind) (s : State) : State := { s with err := .failed e, count := 0, latch := none }

/-- `finish(n)`: ERR is 0, COUNT is n, BUSY is cleared (60_exceptions.md R262). -/
def finish (n : Nat) (s : State) : State := { s with err := .success, count := BitVec.ofNat 32 n, latch := none }

/-- What a command does as a whole: the bytes it accesses and the state it leaves, completed. -/
structure Effect where
  fp : Footprint
  after : State

/-- A command that ends before any access. -/
def Effect.stop (after : State) : Effect := ⟨Footprint.none, after⟩

/-- The engine step of a command on a machine with parameters `c`: taken whole if every access is admitted, else there
is none (20_memory.md R84). -/
def Effect.commit (c : Config) (e : Effect) : Host.Outcome State Fault Refusal :=
  if e.fp.admitted c then .next e.after else .fault .notAdmitted

/-- Runs a command on the latched record; an engine with none has no step (10_state.md R57). -/
def withLatch (s : State) (f : Latch → Host.Outcome State Fault Refusal) : Host.Outcome State Fault Refusal :=
  match s.latch with
  | none => .fault .engineIdle
  | some L => f L

/-! ### The register window (10_state.md R32 to R39, R55, R56) -/

/-- The record latched when the word `w` is accepted (10_state.md R56). -/
def State.latchFor (s : State) (w : Word) : Latch where
  cmd := w
  param := s.param
  src := s.src
  dst := s.dst
  len := s.len
  keymat := keymatChars s.keymat
  ivhex := ivhexChars s.ivhex

/-- A command word is accepted: L latched, DROP cleared, BUSY set (10_state.md R56). -/
def State.accept (s : State) (w : Word) : State := { s with latch := some (s.latchFor w), drop := false }

/-- A host write to CMD: dropped while busy, else accepted, whatever the word (10_state.md R56). -/
def writeCmd (w : Word) (s : State) : State := if s.busy then { s with drop := true } else s.accept w

/-- A host write of a register (10_state.md R55, R56). -/
def writeReg (r : Reg) (w : Word) (s : State) : State :=
  match r with
  | .cmd => writeCmd w s
  | .status => s
  | .count => s
  | .param => { s with param := w }
  | .src => { s with src := w }
  | .dst => { s with dst := w }
  | .len => { s with len := w }
  | .keymat j => { s with keymat := s.keymat.setIfInBounds j w }
  | .ivhex j => { s with ivhex := s.ivhex.setIfInBounds j w }
  | .reserved => s

/-- A host read of a register (10_state.md R33 to R39, R55). It changes nothing. -/
def readReg (r : Reg) (s : State) : Word :=
  match r with
  | .cmd => 0
  | .status => s.status
  | .count => s.count
  | .param => s.param
  | .src => s.src
  | .dst => s.dst
  | .len => s.len
  | .keymat j => s.keymat[j]?.getD 0
  | .ivhex j => s.ivhex[j]?.getD 0
  | .reserved => 0

/-- A host read has returned `r`. -/
def State.observe (s : State) (r : Reading) : State := { s with observed := r :: s.observed }

/-! ### What hosts have not observed yet (70_reset_and_hazards.md R296; entry 21) -/

/-- A command that accessed `f` has ended, and no host has observed it yet. A command without accesses bars no byte. -/
def State.retire (s : State) (f : Footprint) : State :=
  { s with retired := if f.isEmpty then s.retired else ⟨f, []⟩ :: s.retired }

/-- The host has observed BUSY = 0 since the command ended. -/
def Retired.see (host : Nat) (p : Retired) : Retired :=
  if host ∈ p.seenBy then p else { p with seenBy := host :: p.seenBy }

/-- The host observes BUSY = 0. -/
def State.seeIdle (s : State) (host : Nat) : State := { s with retired := s.retired.map (Retired.see host) }

/-- What the host's read of a register lets it observe: BUSY = 0, if the register is STATUS and the engine is idle. -/
def State.noteRead (s : State) (host : Nat) (r : Reg) : State :=
  { s with retired := if r = .status ∧ s.busy = false then s.retired.map (Retired.see host) else s.retired }

/-- A fault mark joins the set of marks (10_state.md R51). -/
def State.mark (s : State) (f : FaultMark) : State :=
  if f ∈ s.faultMarks then s else { s with faultMarks := f :: s.faultMarks }

end Sys2Proof.Machine
end

