-- ==== Sys2Proof/Machine/Datapath.lean ====
section
/-! DEFINITION. The per-block chaining datapath (41_block.md R183, R186 to R190) and the loop over whole blocks
(R184, R185; 20_memory.md R85). A block function takes the feedback register and the input block and gives the new
feedback register and the output block. -/

namespace Sys2Proof.Machine

/-- The first `n` one-bit steps of CFB1 encryption of block `P`, with keystream function `F`: the feedback register
and the output so far, starting from `P` itself (41_block.md R189). -/
def cfb1EncBits (F : Block → Block) (reg P : Block) : Nat → Block × Block
  | 0 => (reg, P)
  | n + 1 =>
    match cfb1EncBits F reg P n with
    | (r, out) =>
      let ob := Block.bitAt out n ^^ Block.peekTop (F r)
      (Block.shiftInBit r ob, Block.setBit out n ob)

/-- The first `n` one-bit steps of CFB1 decryption of block `C`: what returns to the feedback register is the input bit
(41_block.md R190). -/
def cfb1DecBits (F : Block → Block) (reg C : Block) : Nat → Block × Block
  | 0 => (reg, C)
  | n + 1 =>
    match cfb1DecBits F reg C n with
    | (r, out) =>
      let cb := Block.bitAt C n
      (Block.shiftInBit r cb, Block.setBit out n (cb ^^ Block.peekTop (F r)))

/-- `encBlock(k, x, P)` for a context in mode `m` (41_block.md R183, R186, R187, R189). -/
def encBlock (p : Primitive) (k : KeySlot) (m : Mode) (reg P : Block) : Block × Block :=
  match m with
  | .ecb => (reg, p.fwd k.rk k.nr P)
  | .cbc => (p.fwd k.rk k.nr (P ^^^ reg), p.fwd k.rk k.nr (P ^^^ reg))
  | .cfb1 => cfb1EncBits (p.fwd k.frk k.nr) reg P 128

/-- `decBlock(k, x, C)` for a context in mode `m` (41_block.md R183, R186, R188, R190). -/
def decBlock (p : Primitive) (k : KeySlot) (m : Mode) (reg C : Block) : Block × Block :=
  match m with
  | .ecb => (reg, p.inv k.rk k.nr C)
  | .cbc => (C, p.inv k.rk k.nr C ^^^ reg)
  | .cfb1 => cfb1DecBits (p.fwd k.frk k.nr) reg C 128

/-- What a data command carries from block to block: system memory and the feedback register. -/
structure Chain where
  mem : Memory
  reg : Block
  deriving DecidableEq, Repr

/-- One block: read its 16 input bytes whole, compute, write its 16 output bytes (20_memory.md R85). -/
def stepBlock (f : Block → Block → Block × Block) (src dst : Nat) (c : Chain) : Chain :=
  match f c.reg (c.mem.readBlock src) with
  | (r, out) => ⟨c.mem.writeBlock dst out, r⟩

/-- The first `n` blocks of the loop of 41_block.md R184 and R185, in rising order. -/
def runBlocks (f : Block → Block → Block × Block) (src dst : Nat) (c : Chain) : Nat → Chain
  | 0 => c
  | n + 1 => stepBlock f (src + 16 * n) (dst + 16 * n) (runBlocks f src dst c n)

end Sys2Proof.Machine
end

