-- ==== Sys2Proof/Machine/Block.lean ====
section
/-! DEFINITION. The unpadded block commands BLKENC and BLKDEC (41_block.md). -/

namespace Sys2Proof.Machine

/-- `nb = L.len div 128` for a positive length (41_block.md R182). -/
def blockCount (L : Latch) : Nat := L.length.toNat / 128

/-- Processing of BLKENC and BLKDEC once the checks have passed: `nb` whole blocks through `f`, then
`finish(128 * nb)` (41_block.md R184, R185; bytes accessed: 20_memory.md R86). -/
def runBlk (f : Block → Block → Block × Block) (csel : Nat) (reg : Block) (L : Latch) (s : State) : Effect :=
  let nb := blockCount L
  let c := runBlocks f L.srcAddr L.dstAddr ⟨s.mem, reg⟩ nb
  { fp := ⟨⟨L.srcAddr, 16 * nb⟩, ⟨L.dstAddr, 16 * nb⟩⟩
    after := finish (128 * nb) ((s.setMem c.mem).setReg csel c.reg) }

/-- BLKENC with block primitive `p`: checks in the order of 41_block.md R194, then R184. -/
def blkencWith (p : Primitive) (ksel csel : Nat) (L : Latch) (s : State) : Effect :=
  match checkHandles ksel csel s with
  | .error e => .stop (raise e s)
  | .ok (k, x) =>
    if k.dir ≠ .encrypt then .stop (raise .badCipherState s)
    else if L.length ≤ 0 then .stop (finish 0 s)
    else runBlk (encBlock p k x.mode) csel x.reg L s

/-- BLKENC, opcode 0x03 (41_block.md R184). -/
def execBlkenc (ksel csel : Nat) (s : State) : Host.Outcome State Fault Refusal :=
  withLatch s fun L => (blkencWith Config.primitive ksel csel L s).commit s.cfg

/-- BLKDEC with block primitive `p`: checks in the order of 41_block.md R194, then R185. In CFB1 mode a key of either
direction will do (R192). -/
def blkdecWith (p : Primitive) (ksel csel : Nat) (L : Latch) (s : State) : Effect :=
  match checkHandles ksel csel s with
  | .error e => .stop (raise e s)
  | .ok (k, x) =>
    if x.mode ≠ .cfb1 ∧ k.dir ≠ .decrypt then .stop (raise .badCipherState s)
    else if L.length ≤ 0 then .stop (finish 0 s)
    else runBlk (decBlock p k x.mode) csel x.reg L s

/-- BLKDEC, opcode 0x04 (41_block.md R185). -/
def execBlkdec (ksel csel : Nat) (s : State) : Host.Outcome State Fault Refusal :=
  withLatch s fun L => (blkdecWith Config.primitive ksel csel L s).commit s.cfg

end Sys2Proof.Machine
end

