-- ==== Sys2Proof/Machine/Padded.lean ====
section
/-! DEFINITION. The padded commands PADENC and PADDEC, the padding injector and the padding validator
(42_padded.md). -/

namespace Sys2Proof.Machine

/-- `padLen = 16 - (n mod 16)` (42_padded.md R221). -/
def padLength (n : Nat) : Nat := 16 - n % 16

/-- The padding injector: the remaining input bytes, then `padLen` bytes of value `padLen` (42_padded.md R222). -/
def padBlock (tail : Bytes) (padLen : Nat) : Block :=
  Block.ofBytes (tail ++ List.replicate padLen (BitVec.ofNat 8 padLen))

/-- `boundOK(mode, p)` under a padding-bound rule (42_padded.md R233, R237). CFB1 never gets here (R227). -/
def boundOk (rule : EcbPadRule) (m : Mode) (p : Nat) : Bool :=
  match m, rule with
  | .ecb, .reference => decide (p ≤ 15)
  | _, _ => decide (1 ≤ p) && decide (p ≤ 16)

/-- `padOK(mode, Q)`, the padding validator (42_padded.md R233): the last byte `p` is within the bound and the last `p`
bytes all equal it. -/
def padOk (rule : EcbPadRule) (m : Mode) (Q : Block) : Bool :=
  let p := (Block.byte Q 15).toNat
  boundOk rule m p && (List.range 16).all fun j => decide (j + p < 16) || decide (Block.byte Q j = Block.byte Q 15)

/-- Processing of PADENC once the checks have passed: the full blocks as in BLKENC, then one padded block, then
`finish(16 * (nb + 1))` (42_padded.md R224 to R226; bytes accessed: 20_memory.md R86). -/
def runPadenc (f : Block → Block → Block × Block) (csel : Nat) (reg : Block) (L : Latch) (s : State) : Effect :=
  let n := L.length.toNat
  let nb := n / 16
  let c := runBlocks f L.srcAddr L.dstAddr ⟨s.mem, reg⟩ nb
  let B := padBlock (c.mem.readBytes (L.srcAddr + 16 * nb) (n - 16 * nb)) (padLength n)
  let last := f c.reg B
  { fp := ⟨⟨L.srcAddr, n⟩, ⟨L.dstAddr, 16 * (nb + 1)⟩⟩
    after := finish (16 * (nb + 1))
      ((s.setMem (c.mem.writeBlock (L.dstAddr + 16 * nb) last.2)).setReg csel last.1) }

/-- PADENC with block primitive `p`: checks in the order of 42_padded.md R238, then R224. -/
def padencWith (p : Primitive) (ksel csel : Nat) (L : Latch) (s : State) : Effect :=
  match checkHandles ksel csel s with
  | .error e => .stop (raise e s)
  | .ok (k, x) =>
    if k.dir ≠ .encrypt then .stop (raise .badCipherState s)
    else if L.length ≤ 0 then .stop (finish 0 s)
    else if x.mode = .cfb1 then .stop (raise .badCipherState s)
    else runPadenc (encBlock p k x.mode) csel x.reg L s

/-- PADENC, opcode 0x05 (42_padded.md R224). -/
def execPadenc (ksel csel : Nat) (s : State) : Host.Outcome State Fault Refusal :=
  withLatch s fun L => (padencWith Config.primitive ksel csel L s).commit s.cfg

/-- The feedback register a context in mode `m` is left with, where its own value would be `reg` in ECB mode and `new`
in CBC mode (42_padded.md R235, R236). -/
def chainedReg (m : Mode) (reg new : Block) : Block :=
  match m with
  | .ecb => reg
  | .cbc => new
  | .cfb1 => new

/-- What a padding failure leaves: BadData; in CBC mode a drawn feedback register, in ECB mode the same one; a draw for
each byte of `[dst, dst + 16*(nb-1))`; no other byte written (42_padded.md R236; free values: entry 7). -/
def padFailure (m : Mode) (csel : Nat) (reg : Block) (nb : Nat) (L : Latch) (s : State) : Effect :=
  let len := 16 * (nb - 1)
  let t := (s.setMem (s.mem.drawBytes s.cfg L.dstAddr s.draws len)).setReg csel
    (chainedReg m reg (Config.freeBlock s.draws))
  { fp := ⟨⟨L.srcAddr, 16 * nb⟩, ⟨L.dstAddr, len⟩⟩
    after := raise .badData { t with draws := s.draws + len + 1 } }

/-- Processing of PADDEC once the checks have passed: all blocks but the last as in BLKDEC, then the last block through
the validator (42_padded.md R230, R233 to R236; bytes accessed: 20_memory.md R86). -/
def runPaddec (p : Primitive) (k : KeySlot) (m : Mode) (csel : Nat) (reg : Block) (L : Latch) (s : State) : Effect :=
  let nb := L.length.toNat / 16
  let c := runBlocks (decBlock p k m) L.srcAddr L.dstAddr ⟨s.mem, reg⟩ (nb - 1)
  let C := c.mem.readBlock (L.srcAddr + 16 * (nb - 1))
  let Q := (decBlock p k m c.reg C).2
  let padLen := (Block.byte Q 15).toNat
  if padOk s.cfg.ecbPadRule m Q then
    { fp := ⟨⟨L.srcAddr, 16 * nb⟩, ⟨L.dstAddr, 16 * nb - padLen⟩⟩
      after := finish (16 * nb - padLen)
        ((s.setMem (c.mem.writeBytes (L.dstAddr + 16 * (nb - 1)) ((Block.toBytes Q).take (16 - padLen)))).setReg csel
          (chainedReg m c.reg C)) }
  else padFailure m csel reg nb L s

/-- PADDEC with block primitive `p`: checks in the order of 42_padded.md R238, then R230. -/
def paddecWith (p : Primitive) (ksel csel : Nat) (L : Latch) (s : State) : Effect :=
  match checkHandles ksel csel s with
  | .error e => .stop (raise e s)
  | .ok (k, x) =>
    if k.dir ≠ .decrypt then .stop (raise .badCipherState s)
    else if L.length ≤ 0 then .stop (finish 0 s)
    else if L.length % 16 ≠ 0 then .stop (raise .badData s)
    else if x.mode = .cfb1 then .stop (raise .badCipherState s)
    else runPaddec p k x.mode csel x.reg L s

/-- PADDEC, opcode 0x06 (42_padded.md R230). -/
def execPaddec (ksel csel : Nat) (s : State) : Host.Outcome State Fault Refusal :=
  withLatch s fun L => (paddecWith Config.primitive ksel csel L s).commit s.cfg

end Sys2Proof.Machine
end

