-- ==== Sys2Proof/Machine/Setup.lean ====
section
/-! DEFINITION. The setup commands MAKEKEY and CIPHERINIT (40_setup.md). -/

namespace Sys2Proof.Machine

/-- What MAKEKEY builds, or the first error in the order of 40_setup.md R153: the checks and the key decoding of
R150. -/
def makekeySlot (p : Primitive) (ksel : Nat) (kmp : Bool) (L : Latch) (s : State) : Except ErrorKind KeySlot :=
  if !s.keyPresent ksel then .error .badKeyInstance
  else
    match Direction.ofField L.dirField with
    | none => .error .badKeyDirection
    | some d =>
      match KeySize.ofField L.keyBitsField with
      | none => .error .badKeyMaterial
      | some ks =>
        if !kmp then .error .badKeyMaterial
        else
          match hexDecode L.keymat.toList ks.bytes with
          | none => .error .badKeyMaterial
          | some raw => .ok (makeSlot p raw ks d)

/-- MAKEKEY with block primitive `p` on the latched record `L` (40_setup.md R150, R152). -/
def makekeyWith (p : Primitive) (ksel : Nat) (kmp : Bool) (L : Latch) (s : State) : State :=
  match makekeySlot p ksel kmp L s with
  | .error e => raise e s
  | .ok k => finish 0 (s.setSlot ksel k)

/-- MAKEKEY, opcode 0x01 (40_setup.md R150). It touches no system memory (20_memory.md R80), so it is always
enabled (R84). -/
def execMakekey (ksel : Nat) (kmp : Bool) (s : State) : Host.Outcome State Fault Refusal :=
  withLatch s fun L => .next (makekeyWith Config.primitive ksel kmp L s)

/-- The IV of CIPHERINIT: 16 bytes from all 32 characters of IVHEX if IVP = 1, else zero; none where INVALID
(40_setup.md R144). -/
def decodeIv (ivp : Bool) (L : Latch) : Option Block :=
  if ivp then (hexDecode L.ivhex.toList 16).map Block.ofBytes else some 0

/-- What CIPHERINIT sets, or the first error in the order of 40_setup.md R161: the checks and the IV decoding of
R160. -/
def cipherinitContext (csel : Nat) (ivp : Bool) (L : Latch) (s : State) : Except ErrorKind Context :=
  if !s.ctxPresent csel then .error .badCipherInstance
  else
    match Mode.ofField L.modeField with
    | none => .error .badCipherMode
    | some m =>
      match decodeIv ivp L with
      | none => .error .badCipherInstance
      | some iv => .ok ⟨true, m, iv⟩

/-- CIPHERINIT on the latched record `L` (40_setup.md R160, R162). -/
def cipherinitWith (csel : Nat) (ivp : Bool) (L : Latch) (s : State) : State :=
  match cipherinitContext csel ivp L s with
  | .error e => raise e s
  | .ok x => finish 0 (s.setContext csel x)

/-- CIPHERINIT, opcode 0x02 (40_setup.md R160). It touches no system memory (20_memory.md R80), so it is always
enabled (R84). -/
def execCipherinit (csel : Nat) (ivp : Bool) (s : State) : Host.Outcome State Fault Refusal :=
  withLatch s fun L => .next (cipherinitWith csel ivp L s)

end Sys2Proof.Machine
end

