-- ==== Sys2Proof/Machine/Dispatch.lean ====
section
/-! DEFINITION. One arm for each command (30_encoding.md R113). -/

namespace Sys2Proof.Machine

def exec (i : Instr) (s : State) : Host.Outcome State Fault Refusal :=
  match i with
  | .makekey ksel kmp => Sys2Proof.Machine.execMakekey ksel kmp s
  | .cipherinit csel ivp => Sys2Proof.Machine.execCipherinit csel ivp s
  | .blkenc ksel csel => Sys2Proof.Machine.execBlkenc ksel csel s
  | .blkdec ksel csel => Sys2Proof.Machine.execBlkdec ksel csel s
  | .padenc ksel csel => Sys2Proof.Machine.execPadenc ksel csel s
  | .paddec ksel csel => Sys2Proof.Machine.execPaddec ksel csel s

end Sys2Proof.Machine
end

