-- ==== Sys2Proof/Machine/Engine.lean ====
section
/-! DEFINITION. The engine's turn (10_state.md R57) and the bytes the running command accesses (20_memory.md R86). -/

namespace Sys2Proof.Machine

/-- An illegal command: BadCommand, no other effect (60_exceptions.md R265). -/
def runIllegal (s : State) : State := raise .badCommand s

/-- The bytes a command accesses (20_memory.md R86): none for the setup commands (R80). -/
def commandFootprint (i : Instr) (L : Latch) (s : State) : Footprint :=
  match i with
  | .makekey _ _ => Footprint.none
  | .cipherinit _ _ => Footprint.none
  | .blkenc ksel csel => (blkencWith Config.primitive ksel csel L s).fp
  | .blkdec ksel csel => (blkdecWith Config.primitive ksel csel L s).fp
  | .padenc ksel csel => (padencWith Config.primitive ksel csel L s).fp
  | .paddec ksel csel => (paddecWith Config.primitive ksel csel L s).fp

/-- The engine's turn: it executes the latched command whole (10_state.md R57), whose bytes the hosts are then still to
observe the end of (70_reset_and_hazards.md R296). An idle engine has no step, and an
engine whose command has an access that is not admitted has none either: its turn changes nothing, and BUSY stays 1
(20_memory.md R83; entry 10). -/
def engineTurn (s : State) : Host.Outcome State Fault Refusal :=
  match s.latch with
  | none => .next s
  | some L =>
    match decode L.cmd with
    | .error _ => .next (runIllegal s)
    | .ok i =>
      match exec i s with
      | .next t => .next (t.retire (commandFootprint i L s))
      | .fault .notAdmitted => .next s
      | .fault f => .fault f
      | .refused r => .refused r

/-- The bytes the running command reads or writes, computed from L; none while idle or on an illegal command
(20_memory.md R86, R92; entry 13). Where such a range of a stuck command covers the register window: entry 20. -/
def runningFootprint (s : State) : Footprint :=
  match s.latch with
  | none => Footprint.none
  | some L =>
    match decode L.cmd with
    | .error _ => Footprint.none
    | .ok i => commandFootprint i L s

/-- The host's access to the bytes of `r` touches a byte of the running command (20_memory.md R92), or of one that has
ended and whose end the host has not observed (70_reset_and_hazards.md R296; entry 21). -/
def races (s : State) (host : Nat) (r : Span) : Bool :=
  (runningFootprint s).meets r || s.retired.any fun p => decide (host ∉ p.seenBy) && p.fp.meets r

/-- The largest range a command of this opcode and length could write (70_reset_and_hazards.md R291, 20_memory.md R86).
A successful PADDEC leaves out at least the bytes of the shortest padding its bound admits: one byte, or none where
ECB_PAD_RULE is REFERENCE (entry 14). -/
def maxWriteSpan (rule : EcbPadRule) (i : Instr) (L : Latch) : Span :=
  let n := L.length.toNat
  match i with
  | .makekey _ _ => Span.none
  | .cipherinit _ _ => Span.none
  | .blkenc _ _ => ⟨L.dstAddr, 16 * (n / 128)⟩
  | .blkdec _ _ => ⟨L.dstAddr, 16 * (n / 128)⟩
  | .padenc _ _ => if n = 0 then Span.none else ⟨L.dstAddr, 16 * (n / 16 + 1)⟩
  | .paddec _ _ =>
    if n % 16 ≠ 0 then Span.none
    else
      match rule with
      | .harmonized => ⟨L.dstAddr, n - 1⟩
      | .reference => ⟨L.dstAddr, n⟩

/-- The range a reset leaves unspecified: that of the running command, none while idle (70_reset_and_hazards.md
R291). -/
def abortSpan (s : State) : Span :=
  match s.latch with
  | none => Span.none
  | some L =>
    match decode L.cmd with
    | .error _ => Span.none
    | .ok i => maxWriteSpan s.cfg.ecbPadRule i L

/-- Reset: every register of the MOE takes its reset value; a running command is aborted, with a draw for each byte of
its write range; no other byte of memory changes (70_reset_and_hazards.md R290, R291). What is not the MOE's stays: the
parameters, what is still to happen, what the hosts have read and observed, and the count of draws, which goes on
(entry 14); a command that reset aborts has ended too (entry 21). -/
def resetMachine (s : State) : State :=
  let r := abortSpan s
  { State.resetWith s.cfg with
    mem := s.mem.drawBytes s.cfg r.base s.draws r.len
    draws := s.draws + r.len
    events := s.events
    observed := s.observed
    retired := (s.retire (runningFootprint s)).retired }

end Sys2Proof.Machine
end

