-- ==== Sys2Proof/Machine/Bus.lean ====
section
/-! DEFINITION. What the hosts do: window accesses (10_state.md R54 to R56), waiting, accesses to system memory with the
race check (20_memory.md R92), reset. -/

namespace Sys2Proof.Machine

/-- A host write at a system address of the register window (10_state.md R32, R54, R55). DEDUCED, entry 20: it reaches
a register, no byte of system memory, so it never races, whatever range the running command has. -/
def hostRegWrite (addr width : Nat) (w : Word) (s : State) : Host.Outcome State Fault Refusal :=
  if windowAccessOk s.cfg addr width then .next (writeReg (Reg.ofOffset (addr - s.cfg.regBase)) w s)
  else .refused .windowAccess

/-- A host's read at a system address of the register window (10_state.md R32, R54, R55); a read of STATUS may let the host
observe BUSY = 0 (70_reset_and_hazards.md R296). DEDUCED, entry 20: it never races, as a write does not. -/
def hostRegRead (host addr width : Nat) (s : State) : Host.Outcome State Fault Refusal :=
  if windowAccessOk s.cfg addr width then
    let r := Reg.ofOffset (addr - s.cfg.regBase)
    .next ((s.observe (.word (readReg r s))).noteRead host r)
  else .refused .windowAccess

/-- A host's access to the bytes of `r`: refused if it touches the register window, which takes aligned 32-bit accesses
only (10_state.md R54; entries 15 and 20); outside the address space there is no byte (20_memory.md R80; entry 15); a race
records the fault mark and gives the access no effect (R92; entry 12); else `f` is its effect. -/
def hostMemAccess (host : Nat) (r : Span) (f : State → State) (s : State) : Host.Outcome State Fault Refusal :=
  if (List.range r.len).any fun j => s.cfg.inWindow (r.base + j) then .refused .windowAccess
  else if 0 < r.len ∧ 2 ^ s.cfg.addrW < r.base + r.len then .fault .hostAddress
  else if races s host r then .next (s.mark .bufferRace)
  else .next (f s)

/-- A host writes bytes of system memory (30_encoding.md R120). -/
def hostMemWrite (host addr : Nat) (data : Bytes) (s : State) : Host.Outcome State Fault Refusal :=
  hostMemAccess host ⟨addr, data.length⟩ (fun s => s.setMem (s.mem.writeBytes addr data)) s

/-- A host reads bytes of system memory (30_encoding.md R120). -/
def hostMemRead (host addr n : Nat) (s : State) : Host.Outcome State Fault Refusal :=
  hostMemAccess host ⟨addr, n⟩ (fun s => s.observe (.bytes (s.mem.readBytes addr n))) s

/-- A host spins on STATUS until BUSY = 0 (30_encoding.md R120), which it then has observed: while BUSY = 1 it stays where
it is and the engine takes its turn (70_reset_and_hazards.md R305; entry 9). -/
def hostWait (host : Nat) (s : State) : Host.Outcome State Fault Refusal :=
  if s.busy then engineTurn { s with events := .wait host :: s.events } else .next (s.seeIdle host)

/-- What one event does, in the state that no longer lists it. -/
def runEvent (e : Event) (s : State) : Host.Outcome State Fault Refusal :=
  match e with
  | .engine => engineTurn s
  | .wait host => hostWait host s
  | .regWrite addr width w => hostRegWrite addr width w s
  | .regRead host addr width => hostRegRead host addr width s
  | .memWrite host addr data => hostMemWrite host addr data s
  | .memRead host addr n => hostMemRead host addr n s
  | .reset => .next (resetMachine s)

/-- What happens next in a state without a fault mark: the first event, or, when none is left, the engine's turn
(70_reset_and_hazards.md R305), which on an idle engine changes nothing (60_exceptions.md R275; entry 9). -/
def runNext (s : State) : Host.Outcome State Fault Refusal :=
  match s.events with
  | [] => engineTurn s
  | e :: rest => runEvent e { s with events := rest }

/-- The machine's step: a run with a fault mark has no meaning (20_memory.md R92; entry 12). -/
def runStep (s : State) : Host.Outcome State Fault Refusal :=
  match s.faultMarks with
  | [] => runNext s
  | _ :: _ => .fault .bufferRace

/-- `s` with the command word `w` accepted and the engine's turn next: what a host's CMD write to an idle engine leaves,
followed by the engine (10_state.md R56, R57; entry 18). -/
def loadCommand (s : State) (w : Word) : State :=
  { s.accept w with faultMarks := [], events := .engine :: s.events }

end Sys2Proof.Machine
end

