-- ==== Sys2Proof/Machine/Step.lean ====
section
/-! DEFINITION. One step of the machine, and how a command comes to be the next one executed. -/

namespace Sys2Proof.Machine

/-- One step: a host's access, the engine's turn, or a reset (10_state.md R30; 60_exceptions.md R269). -/
def step (s : State) : Host.Outcome State Fault Refusal := runStep s

/-- `s` with the command word whose low `nbits` bits are those of `w` latched for execution, so that the next step runs
it. It stands for a host's CMD write (10_state.md R56): the MOE fetches no instructions (20_memory.md R94; entry
18). -/
def State.withFetchWord (s : State) (nbits w : Nat) : State := loadCommand s (tableWord nbits w)

end Sys2Proof.Machine
end

