-- ==== Sys2Proof/Safety.lean ====
section
/-! DEFINITION. What a good state is, in the terms the claims use: the invariant every step keeps. -/

namespace Sys2Proof.Machine

/-- The invariant of a valid key slot (10_state.md R40): rk and frk come from the same raw key bytes, of the slot's key
length, and nr is the round count `KeyExpand` gave with rk. -/
def KeySlot.Consistent (p : Primitive) (k : KeySlot) : Prop :=
  k.valid = true → ∃ raw : Bytes, raw.length = k.keyBits.bytes ∧ k = makeSlot p raw k.keyBits k.dir

/-- The invariant of the machine. -/
structure State.Inv (s : State) : Prop where
  /-- The parameters are within the bounds of 00_scope.md R12. -/
  cfgBounds : s.cfg.wf = true
  /-- Memory is in its canonical form. -/
  memForm : s.mem.wf = true
  /-- Only bytes of system memory are listed (20_memory.md R80). -/
  memAddrs : ∀ c ∈ s.mem, isSystemAddr s.cfg c.1 = true
  /-- Every key slot is consistent (10_state.md R40). -/
  slots : ∀ i, (s.slot i).Consistent Config.primitive
  /-- A slot that is not present is never valid (30_encoding.md R111). -/
  absentSlots : ∀ i, s.keyPresent i = false → (s.slot i).valid = false
  /-- A context that is not present is never valid (30_encoding.md R111). -/
  absentContexts : ∀ j, s.ctxPresent j = false → (s.context j).valid = false
  /-- COUNT is 0 beside an error (60_exceptions.md R262). -/
  errorCount : s.err ≠ .success → s.count = 0
  /-- COUNT is at most 2^31 (10_state.md R35, 60_exceptions.md R262). -/
  countBound : s.count.toNat ≤ 2 ^ 31
  /-- The fault marks are a set (10_state.md R51). -/
  marksNodup : s.faultMarks.Nodup

/-- Two ranges of bytes that share none, or start at the same address: the buffers over which a command's output is what
disjoint buffers would give (20_memory.md R87). -/
def DisjointOrSame (src srcLen dst dstLen : Nat) : Prop :=
  src = dst ∨ src + srcLen ≤ dst ∨ dst + dstLen ≤ src

/-- What no command writes when it completes (10_state.md R50, R55; 60_exceptions.md R262): the parameters, DROP, the
argument registers, the fault marks, and the hosts' side. -/
structure SameRegisters (s t : State) : Prop where
  cfg : t.cfg = s.cfg
  drop : t.drop = s.drop
  param : t.param = s.param
  src : t.src = s.src
  dst : t.dst = s.dst
  len : t.len = s.len
  keymat : t.keymat = s.keymat
  ivhex : t.ivhex = s.ivhex
  faultMarks : t.faultMarks = s.faultMarks
  events : t.events = s.events
  observed : t.observed = s.observed
  retired : t.retired = s.retired

/-- The slot and the context a data command names are present and valid: its handle check passes (41_block.md R180). -/
structure HandlesReady (s : State) (ksel csel : Nat) : Prop where
  keyPresent : s.keyPresent ksel = true
  keyValid : (s.slot ksel).valid = true
  ctxPresent : s.ctxPresent csel = true
  ctxValid : (s.context csel).valid = true

end Sys2Proof.Machine
end

