-- ==== Sys2Proof/Certificates/Slice0/Obligations.lean ====
section
/-! DEFINITION. The statements for the provers. -/

open Sys2Proof Sys2Proof.Machine

/-! ### Encoding (30_encoding.md) -/

/-- 30_encoding.md R110, R113: no bit of a command is lost on the way through its word. -/
def Obligations.DecodeEncodeRoundTrip : Prop :=
  ∀ i : Instr, i.wellFormed = true → decode (encode i) = .ok i

/-- 30_encoding.md R122 (with R110, R113, R114): every word has one meaning, which its OPC names: the command, with the
fields that command reads, or an illegal command. A command so spelled is well formed. -/
def Obligations.DecodingIsTotal : Prop :=
  ∀ w : Word,
    let opc := w.toNat % 256
    let ksel := w.toNat / 256 % 16
    let csel := w.toNat / 4096 % 16
    (opc = 1 → decode w = .ok (.makekey ksel (w.getLsbD 16))) ∧
    (opc = 2 → decode w = .ok (.cipherinit csel (w.getLsbD 17))) ∧
    (opc = 3 → decode w = .ok (.blkenc ksel csel)) ∧
    (opc = 4 → decode w = .ok (.blkdec ksel csel)) ∧
    (opc = 5 → decode w = .ok (.padenc ksel csel)) ∧
    (opc = 6 → decode w = .ok (.paddec ksel csel)) ∧
    (opc = 0 ∨ 7 ≤ opc → decode w = .error (.illegalOpcode (BitVec.ofNat 8 opc))) ∧
    ∀ i, decode w = .ok i → i.wellFormed = true

/-- 30_encoding.md R115: reserved bits and the fields a command does not read are ignored. Flipping any of the bits
[31:18], IVP and CSEL of a MAKEKEY, [31:18], KMP and KSEL of a CIPHERINIT, [31:18], KMP and IVP of a data command, or any
bit but OPC of an illegal word, spells the same. -/
def Obligations.UnreadBitsAreIgnored : Prop :=
  ∀ w r : Word,
    let unread : Word :=
      if w.extractLsb' 0 8 = 0x01 then 0xFFFEF000
      else if w.extractLsb' 0 8 = 0x02 then 0xFFFD0F00
      else if 3 ≤ (w.extractLsb' 0 8).toNat ∧ (w.extractLsb' 0 8).toNat ≤ 6 then 0xFFFF0000
      else 0xFFFFFF00
    decode (w ^^^ (r &&& unread)) = decode w

/-- 30_encoding.md R119: the worked command words. -/
def Obligations.WorkedEncodingsDecode : Prop :=
  decode 0x00010001 = .ok (.makekey 0 true) ∧
  decode 0x00010101 = .ok (.makekey 1 true) ∧
  decode 0x00000001 = .ok (.makekey 0 false) ∧
  decode 0x00000002 = .ok (.cipherinit 0 false) ∧
  decode 0x00021002 = .ok (.cipherinit 1 true) ∧
  decode 0x00000003 = .ok (.blkenc 0 0) ∧
  decode 0x00001104 = .ok (.blkdec 1 1) ∧
  decode 0x00000005 = .ok (.padenc 0 0) ∧
  decode 0x00001106 = .ok (.paddec 1 1) ∧
  decode 0x00000007 = .error (.illegalOpcode 0x07)

/-! ### The machine's step (10_state.md R57) -/

/-- 10_state.md R57: on the engine's turn, and with no event left, the step runs the latched command as `exec` does, in
the state that no longer lists the turn; a completed command's bytes then stay barred until a host observes BUSY = 0
(70_reset_and_hazards.md R296, `State.retire`; entry 21). Where `exec` finds an access not admitted, the turn changes
nothing (20_memory.md R83; the model's choice of entry 10 is that the hosts go on). The second clause: a command word loaded
by `withFetchWord` (the model's own, entry 18) is what the next step runs. -/
def Obligations.StepRunsLatchedCommand : Prop :=
  (∀ (s : State) (L : Latch) (i : Instr) (rest : List Event), s.faultMarks = [] → s.latch = some L →
    decode L.cmd = .ok i → (s.events = .engine :: rest ∨ (s.events = [] ∧ rest = [])) →
      (∀ t, exec i { s with events := rest } = .next t → step s = .next (t.retire (commandFootprint i L s))) ∧
      (exec i { s with events := rest } = .fault .notAdmitted → step s = .next { s with events := rest })) ∧
  ∀ (s u t : State) (w : Nat) (i : Instr) (L : Latch), decodeTableWord 32 w = some i →
    u = { s.accept (BitVec.ofNat 32 w) with faultMarks := [] } → u.latch = some L → exec i u = .next t →
    step (s.withFetchWord 32 w) = .next (t.retire (commandFootprint i L u))

/-- 60_exceptions.md R265, 30_encoding.md R114: an illegal command completes with BadCommand and changes nothing
else. -/
def Obligations.IllegalCommandReportsBadCommand : Prop :=
  ∀ (s : State) (L : Latch) (rest : List Event), s.faultMarks = [] → s.latch = some L → s.events = .engine :: rest →
    ¬ (1 ≤ (L.cmd.extractLsb' 0 8).toNat ∧ (L.cmd.extractLsb' 0 8).toNat ≤ 6) →
    step s = .next { s with events := rest, err := .failed .badCommand, count := 0, latch := none }

/-- 30_encoding.md R120 (`WAIT`), 60_exceptions.md R275, 70_reset_and_hazards.md R305, in the model's form (entry 9): a
waiting host, like a list of events that has run out, gives a busy engine its turn; an idle engine keeps every value. A host
that waits on an idle engine observes BUSY = 0 (70_reset_and_hazards.md R296, `State.seeIdle`; entry 21) and goes on. -/
def Obligations.WaitingLetsTheEngineRun : Prop :=
  (∀ (s : State) (host : Nat) (rest : List Event), s.faultMarks = [] → s.busy = true → s.events = .wait host :: rest →
    step s = engineTurn s) ∧
  (∀ (s : State) (host : Nat) (rest : List Event), s.faultMarks = [] → s.busy = false → s.events = .wait host :: rest →
    step s = .next (({ s with events := rest } : State).seeIdle host)) ∧
  (∀ (s : State) (rest : List Event), s.faultMarks = [] → s.busy = false → s.events = .engine :: rest →
    step s = .next { s with events := rest }) ∧
  (∀ s : State, s.faultMarks = [] → s.events = [] → step s = engineTurn s ∧ (s.busy = false → step s = .next s))

/-- 30_encoding.md R120, 60_exceptions.md R269: the host's access that stands first in the list of events is the one the
step takes, in the state that no longer lists it (that events stand in a list is the model's form, entry 8). -/
def Obligations.StepServesHostAccesses : Prop :=
  ∀ (s : State) (rest : List Event), s.faultMarks = [] →
    (∀ addr width w, s.events = .regWrite addr width w :: rest →
      step s = hostRegWrite addr width w { s with events := rest }) ∧
    (∀ host addr width, s.events = .regRead host addr width :: rest →
      step s = hostRegRead host addr width { s with events := rest }) ∧
    (∀ host addr data, s.events = .memWrite host addr data :: rest →
      step s = hostMemWrite host addr data { s with events := rest }) ∧
    (∀ host addr n, s.events = .memRead host addr n :: rest →
      step s = hostMemRead host addr n { s with events := rest })

/-! ### Reset (10_state.md R58, 70_reset_and_hazards.md R290 to R292) -/

/-- 10_state.md R58, 70_reset_and_hazards.md R290: what reset leaves, from every state without a fault mark (that a marked
state takes no step, a reset included, is the model's choice, entry 12); an idle machine's memory is not reset. The last
clauses: the reset state of the model holds the same. -/
def Obligations.ResetGivesResetValues : Prop :=
  (∀ (s : State) (rest : List Event), s.faultMarks = [] → s.events = .reset :: rest →
    ∃ t, step s = .next t ∧ t.busy = false ∧ t.drop = false ∧ t.err = .success ∧ t.status = 0 ∧ t.count = 0 ∧
      t.param = 0 ∧ t.src = 0 ∧ t.dst = 0 ∧ t.len = 0 ∧
      (∀ j, j < 16 → t.keymat[j]? = some 0) ∧ (∀ j, j < 8 → t.ivhex[j]? = some 0) ∧ t.latch = none ∧
      (∀ i, (t.slot i).valid = false) ∧ (∀ j, (t.context j).valid = false) ∧ t.faultMarks = [] ∧
      (s.busy = false → t.mem = s.mem)) ∧
  State.reset.busy = false ∧ State.reset.drop = false ∧ State.reset.err = .success ∧ State.reset.status = 0 ∧
    State.reset.count = 0 ∧ State.reset.param = 0 ∧ State.reset.src = 0 ∧ State.reset.dst = 0 ∧ State.reset.len = 0 ∧
    (∀ j, j < 16 → State.reset.keymat[j]? = some 0) ∧ (∀ j, j < 8 → State.reset.ivhex[j]? = some 0) ∧
    State.reset.latch = none ∧ State.reset.faultMarks = [] ∧
    (∀ i, (State.reset.slot i).valid = false) ∧ (∀ j, (State.reset.context j).valid = false)

/-- The invariant holds after reset. That the parameters are in bounds (00_scope.md R12) rests on the values entry 1
chooses, and the clauses about memory on entry 6: the model's reset memory lists nothing, where R58 leaves memory to the
platform. -/
def Obligations.ResetStateMeetsInvariant : Prop := State.reset.Inv

/-- Every step keeps the invariant, from every state that meets it: parameters in bounds, memory canonical and inside the
address space, key slots consistent (10_state.md R40), absent slots and contexts never valid, COUNT 0 beside an error
(60_exceptions.md R262) and at most 2^31 (10_state.md R35), fault marks a set (10_state.md R51). Nor does a step change the
parameters (00_scope.md R12; the model holds them in State, entry 1). -/
def Obligations.StepKeepsInvariant : Prop :=
  ∀ s t : State, s.Inv → step s = .next t → t.Inv ∧ t.cfg = s.cfg

/-- 70_reset_and_hazards.md R291: a reset while BUSY = 1 changes no byte of memory outside the range the command could
write. The range is computed from L: for BLKENC and BLKDEC its whole blocks, for PADENC the padded length, for PADDEC of
whole blocks all but the last byte (all of them under REFERENCE; entry 14), nothing for a length that is not positive, for
the setup commands and for an illegal word. -/
def Obligations.ResetAbortTouchesOnlyTheWriteRange : Prop :=
  ∀ (s : State) (L : Latch) (rest : List Event) (t : State), s.faultMarks = [] → s.mem.wf = true →
    s.latch = some L → s.events = .reset :: rest → step s = .next t →
    let n := L.len.toInt.toNat
    let opc := (L.cmd.extractLsb' 0 8).toNat
    let len : Nat :=
      if opc = 3 ∨ opc = 4 then 16 * (n / 128)
      else if opc = 5 then (if n = 0 then 0 else 16 * (n / 16 + 1))
      else if opc = 6 ∧ n % 16 = 0 then (if s.cfg.ecbPadRule = .reference then n else n - 1)
      else 0
    t.busy = false ∧
    ∀ a, ¬ (L.dst.toNat ≤ a ∧ a < L.dst.toNat + len) → t.mem.read a = s.mem.read a

/-- 70_reset_and_hazards.md R292: of all the steps of the machine only a reset makes a valid slot or context
invalid. -/
def Obligations.OnlyResetInvalidates : Prop :=
  ∀ s t : State, step s = .next t → (∀ rest, s.events ≠ .reset :: rest) →
    (∀ i, (s.slot i).valid = true → (t.slot i).valid = true) ∧
    (∀ j, (s.context j).valid = true → (t.context j).valid = true)

/-! ### The register window (10_state.md R32 to R39, R54 to R56) -/

/-- 10_state.md R56: a CMD write is dropped while BUSY = 1, and otherwise latches every argument register, clears DROP and
sets BUSY, whatever the word. Characters are packed as R39 says. -/
def Obligations.CmdWriteAcceptsOrDrops : Prop :=
  ∀ (s : State) (w : Word) (rest : List Event), s.faultMarks = [] → s.events = .regWrite s.cfg.regBase 4 w :: rest →
    (s.busy = true → step s = .next { s with events := rest, drop := true }) ∧
    (s.busy = false → ∃ L : Latch, step s = .next { s with events := rest, latch := some L, drop := false } ∧
      L.cmd = w ∧ L.param = s.param ∧ L.src = s.src ∧ L.dst = s.dst ∧ L.len = s.len ∧
      (∀ c, c < 64 → L.keymat[c]? = some ((s.keymat[c / 4]?.getD 0).extractLsb' (8 * (c % 4)) 8)) ∧
      (∀ c, c < 32 → L.ivhex[c]? = some ((s.ivhex[c / 4]?.getD 0).extractLsb' (8 * (c % 4)) 8)))

/-- 10_state.md R32, R35 to R39, R55: a write to a read/write register is stored at once in the register that R32 names at
that offset, whatever BUSY is, reads back, and changes no other register, no slot, no context and no memory; writes to
STATUS, COUNT and the reserved offsets are ignored; a read gives the register that R32 names at that offset; reads of CMD
and the reserved offsets give 0. A read changes nothing but the log of reads and, where STATUS is read with BUSY = 0, what
the host has observed (70_reset_and_hazards.md R296; entry 21). -/
def Obligations.RegisterWritesStoreAndReadBack : Prop :=
  let after (host off : Nat) (w : Word) (u : State) : State :=
    if off = 4 ∧ u.busy = false then (u.observe (.word w)).seeIdle host else u.observe (.word w)
  (∀ (s : State) (off : Nat) (w : Word),
    off = 0x00C ∨ off = 0x010 ∨ off = 0x014 ∨ off = 0x018 ∨ (0x040 ≤ off ∧ off < 0x0A0 ∧ off % 4 = 0) →
    ∃ t, hostRegWrite (s.cfg.regBase + off) 4 w s = .next t ∧
      (∀ host off', off' < 256 → off' % 4 = 0 → hostRegRead host (s.cfg.regBase + off') 4 t =
        .next (after host off' (if off' = off then w else readReg (Reg.ofOffset off') s) t)) ∧
      (off = 0x00C → t = { s with param := w }) ∧ (off = 0x010 → t = { s with src := w }) ∧
      (off = 0x014 → t = { s with dst := w }) ∧ (off = 0x018 → t = { s with len := w }) ∧
      (∀ j, j < 16 → off = 0x040 + 4 * j → t.keymat[j]? = some w ∧ ∀ j', j' ≠ j → t.keymat[j']? = s.keymat[j']?) ∧
      (∀ j, j < 8 → off = 0x080 + 4 * j → t.ivhex[j]? = some w ∧ ∀ j', j' ≠ j → t.ivhex[j']? = s.ivhex[j']?) ∧
      (off < 0x040 → t.keymat = s.keymat ∧ t.ivhex = s.ivhex) ∧
      (0x040 ≤ off → t.param = s.param ∧ t.src = s.src ∧ t.dst = s.dst ∧ t.len = s.len ∧
        (off < 0x080 → t.ivhex = s.ivhex) ∧ (0x080 ≤ off → t.keymat = s.keymat)) ∧
      t.latch = s.latch ∧ t.drop = s.drop ∧ t.err = s.err ∧ t.count = s.count ∧ t.keySlots = s.keySlots ∧
      t.contexts = s.contexts ∧ t.mem = s.mem) ∧
  (∀ (s : State) (host : Nat),
    let reads (off : Nat) (w : Word) : Prop :=
      hostRegRead host (s.cfg.regBase + off) 4 s = .next (after host off w s)
    reads 0x004 s.status ∧ reads 0x008 s.count ∧ reads 0x00C s.param ∧ reads 0x010 s.src ∧ reads 0x014 s.dst ∧
    reads 0x018 s.len ∧ (∀ (j : Nat) (w : Word), s.keymat[j]? = some w → reads (0x040 + 4 * j) w) ∧
    ∀ (j : Nat) (w : Word), s.ivhex[j]? = some w → reads (0x080 + 4 * j) w) ∧
  (∀ (s : State) (off : Nat) (w : Word),
    off = 0x004 ∨ off = 0x008 ∨ (0x01C ≤ off ∧ off < 0x040 ∧ off % 4 = 0) ∨ (0x0A0 ≤ off ∧ off < 0x100 ∧ off % 4 = 0) →
    hostRegWrite (s.cfg.regBase + off) 4 w s = .next s) ∧
  (∀ (s : State) (host off : Nat),
    off = 0x000 ∨ (0x01C ≤ off ∧ off < 0x040 ∧ off % 4 = 0) ∨ (0x0A0 ≤ off ∧ off < 0x100 ∧ off % 4 = 0) →
    hostRegRead host (s.cfg.regBase + off) 4 s = .next (s.observe (.word 0)))

/-- 10_state.md R34 (the places of the fields of STATUS) and 60_exceptions.md R260 (the codes). A read with BUSY = 0
also lets the host observe that (70_reset_and_hazards.md R296; entry 21). -/
def Obligations.StatusWordLayout : Prop :=
  ∀ (s : State) (host : Nat),
    (s.busy = true → hostRegRead host (s.cfg.regBase + 4) 4 s = .next (s.observe (.word s.status))) ∧
    (s.busy = false → hostRegRead host (s.cfg.regBase + 4) 4 s = .next ((s.observe (.word s.status)).seeIdle host)) ∧
    s.status.getLsbD 0 = s.latch.isSome ∧ s.status.getLsbD 1 = s.drop ∧ s.status.extractLsb' 2 2 = 0 ∧
    s.status.extractLsb' 8 24 = 0 ∧
    s.status.extractLsb' 4 4 =
      match s.err with
      | .success => 0
      | .failed .badKeyDirection => 1
      | .failed .badKeyMaterial => 2
      | .failed .badKeyInstance => 3
      | .failed .badCipherMode => 4
      | .failed .badCipherState => 5
      | .failed .badCipherInstance => 7
      | .failed .badData => 8
      | .failed .badCommand => 15

/-- 60_exceptions.md R267: no state reads an ERR code of 6 or of 9 to 14. -/
def Obligations.ReservedErrorCodesNeverProduced : Prop :=
  ∀ s : State, s.status.extractLsb' 4 4 ≠ 6 ∧
    ¬ (9 ≤ (s.status.extractLsb' 4 4).toNat ∧ (s.status.extractLsb' 4 4).toNat ≤ 14)

/-- 10_state.md R54: an access of another width or alignment inside the window is not admitted. The second clause is the
model's reading (entry 15): a host access by bytes (MEMW, MEMR) that touches the window is no register access, and is not
admitted either, an aligned one of four bytes included. -/
def Obligations.OddWindowAccessIsRefused : Prop :=
  (∀ (s : State) (host addr width : Nat) (w : Word), s.cfg.inWindow addr = true →
    width ≠ 4 ∨ (addr - s.cfg.regBase) % 4 ≠ 0 →
    hostRegWrite addr width w s = .refused .windowAccess ∧ hostRegRead host addr width s = .refused .windowAccess) ∧
  (∀ (s : State) (host addr j : Nat) (data : Bytes), j < data.length → s.cfg.inWindow (addr + j) = true →
    hostMemWrite host addr data s = .refused .windowAccess ∧
    hostMemRead host addr data.length s = .refused .windowAccess)

/-- 10_state.md R42, R47, R50; 60_exceptions.md R274: what a host reads from the window does not depend on the key slots,
the contexts, or the contents of the latched record: two states that differ only in them give the same word. -/
def Obligations.KeyStateIsNotReadable : Prop :=
  ∀ (s t : State) (ks : Vector KeySlot 16) (cs : Vector Context 16) (L : Option Latch) (host addr width : Nat),
    L.isSome = s.latch.isSome → hostRegRead host addr width s = .next t →
    hostRegRead host addr width { s with keySlots := ks, contexts := cs, latch := L } =
      .next { t with keySlots := ks, contexts := cs, latch := L }

/-! ### What a command can touch -/

/-- 10_state.md R50, 70_reset_and_hazards.md R297: a command reads L, never the live argument registers.
Where the padding of a PADDEC fails, the bytes and the CBC register that 42_padded.md R236 leaves unspecified are equal
because both runs draw the free values from the same count (the model's choice, entry 7). -/
def Obligations.RunningCommandIgnoresArgumentRegisters : Prop :=
  ∀ (i : Instr) (s t : State) (param src dst len : Word) (keymat : Vector Word 16) (ivhex : Vector Word 8),
    exec i s = .next t →
    exec i { s with param := param, src := src, dst := dst, len := len, keymat := keymat, ivhex := ivhex } =
      .next { t with param := param, src := src, dst := dst, len := len, keymat := keymat, ivhex := ivhex }

/-- Frame of the registers, for every command: a completed command has written ERR, COUNT and BUSY (60_exceptions.md
R262), and no other register, flag or mark; COUNT is 0 beside an error. -/
def Obligations.CompletedCommandKeepsRegisters : Prop :=
  ∀ (i : Instr) (s t : State), exec i s = .next t →
    SameRegisters s t ∧ t.latch = none ∧ (t.err ≠ .success → t.count = 0)

/-- Frame of the slots and contexts (10_state.md R41, R46, R48): MAKEKEY writes at most its own slot, CIPHERINIT at most
its own context, and both touch no memory; a data command writes at most the feedback register of its own context. -/
def Obligations.CommandWritesOnlyItsOwnHandle : Prop :=
  ∀ (i : Instr) (s t : State), exec i s = .next t →
    match i with
    | .makekey ksel _ => t.contexts = s.contexts ∧ t.mem = s.mem ∧ ∀ i, i ≠ ksel → t.slot i = s.slot i
    | .cipherinit csel _ => t.keySlots = s.keySlots ∧ t.mem = s.mem ∧ ∀ j, j ≠ csel → t.context j = s.context j
    | .blkenc _ csel | .blkdec _ csel | .padenc _ csel | .paddec _ csel =>
      t.keySlots = s.keySlots ∧ (∀ j, j ≠ csel → t.context j = s.context j) ∧
      (t.context csel).valid = (s.context csel).valid ∧ (t.context csel).mode = (s.context csel).mode

/-- Frame of memory, for every command (20_memory.md R86): every byte outside the command's write range, computed as the
command computes it, reads as before. -/
def Obligations.CommandWritesOnlyItsRange : Prop :=
  ∀ (i : Instr) (s t : State) (L : Latch), s.mem.wf = true → s.latch = some L → exec i s = .next t →
    ∀ a, (commandFootprint i L s).writes.contains a = false → t.mem.read a = s.mem.read a

/-- 20_memory.md R86: the bytes each command accesses. The write range of a PADDEC is `[dst, dst + COUNT)` if it succeeds
and `[dst, dst + 16*(nb-1))` if its padding fails (the only BadData of a length that is a multiple of 16). Every other error
and every no-op accesses nothing. -/
def Obligations.AccessedBytesTable : Prop :=
  ∀ (i : Instr) (s t : State) (L : Latch), s.latch = some L → exec i s = .next t →
    let n := L.len.toInt.toNat
    let src := L.src.toNat
    let dst := L.dst.toNat
    let fp := commandFootprint i L s
    match i with
    | .makekey _ _ | .cipherinit _ _ => fp = Footprint.none
    | .blkenc _ _ | .blkdec _ _ =>
      if t.err = .success ∧ 0 < n then fp = ⟨⟨src, 16 * (n / 128)⟩, ⟨dst, 16 * (n / 128)⟩⟩ else fp = Footprint.none
    | .padenc _ _ =>
      if t.err = .success ∧ 0 < n then fp = ⟨⟨src, n⟩, ⟨dst, 16 * (n / 16 + 1)⟩⟩ else fp = Footprint.none
    | .paddec _ _ =>
      if t.err = .success ∧ 0 < n then fp = ⟨⟨src, 16 * (n / 16)⟩, ⟨dst, t.count.toNat⟩⟩
      else if t.err = .failed .badData ∧ n % 16 = 0 then fp = ⟨⟨src, 16 * (n / 16)⟩, ⟨dst, 16 * (n / 16 - 1)⟩⟩
      else fp = Footprint.none

/-- 20_memory.md R83, R84: a latched command completes exactly when every byte it accesses is admitted; otherwise the
engine has no step for it. -/
def Obligations.CommandCompletesExactlyWhenAdmitted : Prop :=
  ∀ (i : Instr) (s : State) (L : Latch), s.latch = some L →
    let fp := commandFootprint i L s
    let all := ∀ a, (fp.reads.contains a = true → admitted s.cfg .read a = true) ∧
      (fp.writes.contains a = true → admitted s.cfg .write a = true)
    (all → ∃ t, exec i s = .next t ∧ t.busy = false) ∧ (¬ all → exec i s = .fault .notAdmitted)

/-- 20_memory.md R83: an address at or beyond 2^ADDR_W, or inside the register window, is never admitted; a command that
accesses such a byte stays stuck with BUSY = 1, whether the engine is given its turn, a host waits, or no event is left
(that the hosts go on is the model's form, entry 10). -/
def Obligations.UnadmittedCommandStaysStuck : Prop :=
  (∀ (c : Config) (kind : AccessKind) (a : Nat), 2 ^ c.addrW ≤ a ∨ c.inWindow a = true → admitted c kind a = false) ∧
  ∀ (s : State) (L : Latch) (i : Instr) (a : Nat), s.faultMarks = [] → s.latch = some L → decode L.cmd = .ok i →
    ((commandFootprint i L s).reads.contains a = true ∧ admitted s.cfg .read a = false) ∨
      ((commandFootprint i L s).writes.contains a = true ∧ admitted s.cfg .write a = false) →
    (∀ rest, s.events = .engine :: rest → step s = .next { s with events := rest }) ∧
    (∀ host rest, s.events = .wait host :: rest → step s = .next s) ∧ (s.events = [] → step s = .next s)

/-- 20_memory.md R92, 70_reset_and_hazards.md R296, 10_state.md R51: a host access to a byte of system memory that the
running command, or a command whose end the host has not observed, reads or writes records the mark BufferRace, and the run
has no meaning after it. (The model's form, entry 12: the access itself has no effect, and the step after it stops.) The
clauses after the first say which commands those are (entry 21): the step that ends a command with accesses adds it, for
every host; it stays until the host observes BUSY = 0, by a WAIT or a read of STATUS; such a step ends it for that host; and
nothing else is added. -/
def Obligations.BufferRaceIsRecorded : Prop :=
  let touches (fp : Footprint) (b : Nat) : Prop := fp.reads.contains b = true ∨ fp.writes.contains b = true
  let observes (s : State) (host : Nat) : Prop := s.busy = false ∧ ∃ rest, s.events = .wait host :: rest ∨
    s.events = .regRead host (s.cfg.regBase + 4) 4 :: rest
  (∀ (s : State) (host addr b : Nat) (data : Bytes) (rest : List Event), s.faultMarks = [] →
    s.events = .memWrite host addr data :: rest ∨ s.events = .memRead host addr data.length :: rest →
    (∀ j, j < data.length → isSystemAddr s.cfg (addr + j) = true) → addr ≤ b → b < addr + data.length →
    (∃ L i, s.latch = some L ∧ decode L.cmd = .ok i ∧ touches (commandFootprint i L s) b) ∨
      (∃ p ∈ s.retired, host ∉ p.seenBy ∧ touches p.fp b) →
    step s = .next { s with events := rest, faultMarks := [.bufferRace] } ∧
    step { s with events := rest, faultMarks := [.bufferRace] } = .fault .bufferRace) ∧
  (∀ (s t : State) (L : Latch) (i : Instr) (b : Nat), step s = .next t → s.latch = some L → decode L.cmd = .ok i →
    t.latch = none → touches (commandFootprint i L s) b → ∃ p ∈ t.retired, p.fp = commandFootprint i L s ∧ p.seenBy = []) ∧
  (∀ (s t : State) (host : Nat) (p : Retired), step s = .next t → p ∈ s.retired → host ∉ p.seenBy →
    observes s host ∨ ∃ q ∈ t.retired, q.fp = p.fp ∧ host ∉ q.seenBy) ∧
  (∀ (s : State) (host : Nat), s.faultMarks = [] → observes s host →
    ∃ t, step s = .next t ∧ ∀ q ∈ t.retired, host ∈ q.seenBy) ∧
  (∀ (s t : State) (host : Nat) (q : Retired), step s = .next t → q ∈ t.retired → host ∉ q.seenBy →
    (∃ p ∈ s.retired, p.fp = q.fp ∧ host ∉ p.seenBy) ∨
      ∃ L i, s.latch = some L ∧ decode L.cmd = .ok i ∧ t.latch = none ∧ q.fp = commandFootprint i L s)

/-- 30_encoding.md R120 (`MEMW`, `MEMR`), 20_memory.md R92, 70_reset_and_hazards.md R296: a host access that touches no byte
of the running command, nor of a command whose end that host has not observed, writes exactly its bytes, or reads them and
changes nothing. For the running command this rests on the model's choice of entry 13: the ranges of 20_memory.md R86 as
they stand at the time of the access. -/
def Obligations.HostMemoryAccess : Prop :=
  ∀ (s : State) (host addr : Nat) (data : Bytes), s.mem.wf = true →
    (∀ j, j < data.length → isSystemAddr s.cfg (addr + j) = true) →
    (∀ b, addr ≤ b → b < addr + data.length →
      (runningFootprint s).reads.contains b = false ∧ (runningFootprint s).writes.contains b = false ∧
      ∀ p ∈ s.retired, host ∉ p.seenBy → p.fp.reads.contains b = false ∧ p.fp.writes.contains b = false) →
    (∃ m, hostMemWrite host addr data s = .next { s with mem := m } ∧
      (∀ j, j < data.length → m.read (addr + j) = data.getD j 0) ∧
      ∀ a, a < addr ∨ addr + data.length ≤ a → m.read a = s.mem.read a) ∧
    ∃ bs : Bytes, hostMemRead host addr data.length s = .next { s with observed := .bytes bs :: s.observed } ∧
      bs.length = data.length ∧ ∀ j, j < data.length → bs.getD j 0 = s.mem.read (addr + j)

/-- Who writes slots and contexts, over all steps of the machine (10_state.md R41, R46): a slot changes only at a reset or
under a MAKEKEY on it; a context's valid bit and mode only at a reset or under a CIPHERINIT on it; its feedback register
only at a reset or under a CIPHERINIT, BLKENC, BLKDEC, PADENC or PADDEC on it. -/
def Obligations.WhoWritesSlotsAndContexts : Prop :=
  ∀ s t : State, step s = .next t → (∀ rest, s.events ≠ .reset :: rest) →
    (∀ k, t.slot k ≠ s.slot k → ∃ L kmp, s.latch = some L ∧ decode L.cmd = .ok (.makekey k kmp)) ∧
    (∀ j, (t.context j).valid ≠ (s.context j).valid ∨ (t.context j).mode ≠ (s.context j).mode →
      ∃ L ivp, s.latch = some L ∧ decode L.cmd = .ok (.cipherinit j ivp)) ∧
    (∀ j, (t.context j).reg ≠ (s.context j).reg → ∃ L, s.latch = some L ∧
      ((∃ ivp, decode L.cmd = .ok (.cipherinit j ivp)) ∨
        ∃ k, decode L.cmd = .ok (.blkenc k j) ∨ decode L.cmd = .ok (.blkdec k j) ∨ decode L.cmd = .ok (.padenc k j) ∨
          decode L.cmd = .ok (.paddec k j)))

/-- 60_exceptions.md R264: an error is found before any access and leaves everything unchanged except ERR, COUNT and
BUSY. The exception is the padding failure of PADDEC, the only BadData with a length that is a multiple of 16. -/
def Obligations.ErrorsChangeNothingElse : Prop :=
  ∀ (i : Instr) (s t : State) (L : Latch) (e : ErrorKind), s.latch = some L → exec i s = .next t → t.err = .failed e →
    ¬ (e = .badData ∧ L.len.toInt % 16 = 0) →
    commandFootprint i L s = Footprint.none ∧ t = { s with err := .failed e, count := 0, latch := none }

/-! ### Setup commands (40_setup.md) -/

/-- 40_setup.md R141: the value of a hex digit; every other character is INVALID. -/
def Obligations.NibbleOfHexDigit : Prop :=
  ∀ (c : Byte) (v : Nat), nib c = some v ↔
    (0x30 ≤ c.toNat ∧ c.toNat ≤ 0x39 ∧ v = c.toNat - 0x30) ∨
    (0x61 ≤ c.toNat ∧ c.toNat ≤ 0x66 ∧ v = c.toNat - 0x61 + 10) ∨
    (0x41 ≤ c.toNat ∧ c.toNat ≤ 0x46 ∧ v = c.toNat - 0x41 + 10)

/-- 40_setup.md R142: decoding reads exactly the first `2n` characters, is INVALID exactly when one of them is no hex
digit, and puts the first of a pair in the high nibble. -/
def Obligations.HexDecodeReadsPairs : Prop :=
  ∀ (chars : Bytes) (n : Nat), 2 * n ≤ chars.length →
    (hexDecode chars n = none ↔ ∃ j, j < 2 * n ∧ nib (chars.getD j 0) = none) ∧
    ∀ out, hexDecode chars n = some out →
      out.length = n ∧ ∀ i, i < n → ∃ h l, nib (chars.getD (2 * i) 0) = some h ∧
        nib (chars.getD (2 * i + 1) 0) = some l ∧
        out.getD i 0 = (BitVec.ofNat 8 h <<< 4) ||| BitVec.ofNat 8 l

/-- 40_setup.md R150 to R152: MAKEKEY completes and replaces all six fields of its slot at once, from two expansions of
the same raw bytes; no other slot, no context and no memory changes. -/
def Obligations.MakekeyBuildsSlot : Prop :=
  ∀ (s : State) (L : Latch) (ksel : Nat) (d : Direction) (ks : KeySize) (raw : Bytes), s.latch = some L → ksel < 16 →
    ksel < s.cfg.numKeySlots →
    (L.param.extractLsb' 0 8).toNat = (match d with | .encrypt => 0 | .decrypt => 1) →
    (L.param.extractLsb' 16 16).toNat = ks.bits →
    hexDecode L.keymat.toList (ks.bits / 8) = some raw →
    ∃ t, exec (.makekey ksel true) s = .next t ∧
      t.slot ksel =
        { valid := true, dir := d, keyBits := ks
          rk := (Config.primitive.keyExpand raw ks d).1
          nr := (Config.primitive.keyExpand raw ks d).2
          frk := (Config.primitive.keyExpand raw ks .encrypt).1 } ∧
      (∀ i, i ≠ ksel → t.slot i = s.slot i) ∧ t.contexts = s.contexts ∧ t.mem = s.mem ∧ t.draws = s.draws ∧
      t.err = .success ∧ t.count = 0 ∧ t.busy = false ∧ SameRegisters s t

/-- 40_setup.md R153: MAKEKEY reports the first error in its order and changes nothing else. -/
def Obligations.MakekeyErrorOrder : Prop :=
  ∀ (s : State) (L : Latch) (ksel : Nat) (kmp : Bool), s.latch = some L →
    let dir := (L.param.extractLsb' 0 8).toNat
    let bits := (L.param.extractLsb' 16 16).toNat
    let reports (e : ErrorKind) : Prop :=
      exec (.makekey ksel kmp) s = .next { s with err := .failed e, count := 0, latch := none }
    (s.cfg.numKeySlots ≤ ksel → reports .badKeyInstance) ∧
    (ksel < s.cfg.numKeySlots → dir ≠ 0 ∧ dir ≠ 1 → reports .badKeyDirection) ∧
    (ksel < s.cfg.numKeySlots → dir = 0 ∨ dir = 1 →
      (bits ≠ 128 ∧ bits ≠ 192 ∧ bits ≠ 256) ∨ kmp = false ∨ hexDecode L.keymat.toList (bits / 8) = none →
      reports .badKeyMaterial)

/-- 40_setup.md R143, R155: characters from `keyBits/4` on are not read, whatever they hold. -/
def Obligations.LaterKeyCharactersAreNotRead : Prop :=
  ∀ (s : State) (L : Latch) (chars : Vector Byte 64) (ksel : Nat) (kmp : Bool),
    (∀ c, c < (L.param.extractLsb' 16 16).toNat / 4 → chars[c]? = L.keymat[c]?) →
    exec (.makekey ksel kmp) { s with latch := some { L with keymat := chars } } =
      exec (.makekey ksel kmp) { s with latch := some L }

/-- 40_setup.md R160, R144, R162: CIPHERINIT completes and replaces its context's valid bit, mode and feedback register at
once; the register is the 16 decoded bytes of IVHEX if IVP = 1, else zero, and then IVHEX is not read. -/
def Obligations.CipherinitSetsContext : Prop :=
  ∀ (s : State) (L : Latch) (csel : Nat) (ivp : Bool) (m : Mode) (iv : Bytes), s.latch = some L → csel < 16 →
    csel < s.cfg.numCtx →
    (L.param.extractLsb' 8 8).toNat = (match m with | .ecb => 1 | .cbc => 2 | .cfb1 => 3) →
    (ivp = true → hexDecode L.ivhex.toList 16 = some iv) → (ivp = false → iv = List.replicate 16 0) →
    ∃ t, exec (.cipherinit csel ivp) s = .next t ∧
      (t.context csel).valid = true ∧ (t.context csel).mode = m ∧ Block.toBytes (t.context csel).reg = iv ∧
      (∀ j, j ≠ csel → t.context j = s.context j) ∧ t.keySlots = s.keySlots ∧ t.mem = s.mem ∧ t.draws = s.draws ∧
      t.err = .success ∧ t.count = 0 ∧ t.busy = false ∧ SameRegisters s t

/-- 40_setup.md R161: CIPHERINIT reports the first error in its order and changes nothing else. -/
def Obligations.CipherinitErrorOrder : Prop :=
  ∀ (s : State) (L : Latch) (csel : Nat) (ivp : Bool), s.latch = some L →
    let mode := (L.param.extractLsb' 8 8).toNat
    let reports (e : ErrorKind) : Prop :=
      exec (.cipherinit csel ivp) s = .next { s with err := .failed e, count := 0, latch := none }
    (s.cfg.numCtx ≤ csel → reports .badCipherInstance) ∧
    (csel < s.cfg.numCtx → ¬ (1 ≤ mode ∧ mode ≤ 3) → reports .badCipherMode) ∧
    (csel < s.cfg.numCtx → 1 ≤ mode ∧ mode ≤ 3 → ivp = true ∧ hexDecode L.ivhex.toList 16 = none →
      reports .badCipherInstance)

/-! ### Checks of the data commands (41_block.md R180, R181, R192, R194; 42_padded.md R223, R227, R228, R231, R232,
R238) -/

/-- 41_block.md R180: a handle that is absent or was never set up gives BadCipherState, before every other check, and
nothing else changes. -/
def Obligations.BadHandleReportsBadCipherState : Prop :=
  ∀ (s : State) (L : Latch) (ksel csel : Nat), s.latch = some L →
    (s.cfg.numKeySlots ≤ ksel ∨ (s.slot ksel).valid = false) ∨ (s.cfg.numCtx ≤ csel ∨ (s.context csel).valid = false) →
    ∀ i ∈ [Instr.blkenc ksel csel, .blkdec ksel csel, .padenc ksel csel, .paddec ksel csel],
      exec i s = .next { s with err := .failed .badCipherState, count := 0, latch := none }

/-- 41_block.md R192, R194; 42_padded.md R228, R231, R238: a key of the wrong direction gives BadCipherState whatever the
length, before any memory access, and nothing else changes; BLKDEC in CFB1 mode is the one command that takes either. -/
def Obligations.WrongDirectionReportsBadCipherState : Prop :=
  ∀ (s : State) (L : Latch) (ksel csel : Nat), s.latch = some L → HandlesReady s ksel csel →
    let reports (i : Instr) : Prop :=
      exec i s = .next { s with err := .failed .badCipherState, count := 0, latch := none }
    ((s.slot ksel).dir = .decrypt → reports (.blkenc ksel csel) ∧ reports (.padenc ksel csel)) ∧
    ((s.slot ksel).dir = .encrypt → reports (.paddec ksel csel)) ∧
    ((s.slot ksel).dir = .encrypt → (s.context csel).mode ≠ .cfb1 → reports (.blkdec ksel csel))

/-- 41_block.md R181, 42_padded.md R223: once handles and direction are right, a length that is not positive makes the
command a no-op that succeeds with COUNT = 0; a CFB1 context included (42_padded.md R229). -/
def Obligations.NonPositiveLengthIsNoOp : Prop :=
  ∀ (s : State) (L : Latch) (ksel csel : Nat), s.latch = some L → HandlesReady s ksel csel → L.len.toInt ≤ 0 →
    let noop (i : Instr) : Prop := exec i s = .next { s with err := .success, count := 0, latch := none }
    ((s.slot ksel).dir = .encrypt → noop (.blkenc ksel csel) ∧ noop (.padenc ksel csel)) ∧
    ((s.slot ksel).dir = .decrypt → noop (.blkdec ksel csel) ∧ noop (.paddec ksel csel)) ∧
    ((s.context csel).mode = .cfb1 → noop (.blkdec ksel csel))

/-- 42_padded.md R227, R232, R238: after the no-op rule PADDEC checks its length, then both padded commands reject a CFB1
context; nothing else changes. -/
def Obligations.PaddedLengthAndModeChecks : Prop :=
  ∀ (s : State) (L : Latch) (ksel csel : Nat), s.latch = some L → HandlesReady s ksel csel → 0 < L.len.toInt →
    let reports (i : Instr) (e : ErrorKind) : Prop :=
      exec i s = .next { s with err := .failed e, count := 0, latch := none }
    ((s.slot ksel).dir = .encrypt → (s.context csel).mode = .cfb1 → reports (.padenc ksel csel) .badCipherState) ∧
    ((s.slot ksel).dir = .decrypt → L.len.toInt % 16 ≠ 0 → reports (.paddec ksel csel) .badData) ∧
    ((s.slot ksel).dir = .decrypt → L.len.toInt % 16 = 0 → (s.context csel).mode = .cfb1 →
      reports (.paddec ksel csel) .badCipherState)

/-! ### Blocks and the datapath (00_scope.md R15 to R17; 41_block.md R186 to R191) -/

/-- 00_scope.md R16: bit k of a Block is bit `7 - k mod 8` of byte `k div 8`, and is bit `127 - k` of its value; `setBit`
writes that bit and leaves the other 127 alone. -/
def Obligations.BitsAreNumberedFromTheTop : Prop :=
  ∀ (B : Block) (k : Nat), k < 128 →
    Block.bitAt B k = (Block.byte B (k / 8)).getLsbD (7 - k % 8) ∧ Block.bitAt B k = B.getLsbD (127 - k) ∧
    ∀ (v : Bool) (j : Nat), j < 128 → (Block.byte (Block.setBit B k v) (j / 8)).getLsbD (7 - j % 8) =
      if j = k then v else (Block.byte B (j / 8)).getLsbD (7 - j % 8)

/-- 41_block.md R186 to R188: the ECB and CBC blocks, as (new feedback register, output). -/
def Obligations.EcbAndCbcBlocks : Prop :=
  ∀ (p : Primitive) (k : KeySlot) (reg B : Block),
    encBlock p k .ecb reg B = (reg, p.fwd k.rk k.nr B) ∧
    decBlock p k .ecb reg B = (reg, p.inv k.rk k.nr B) ∧
    encBlock p k .cbc reg B = (p.fwd k.rk k.nr (B ^^^ reg), p.fwd k.rk k.nr (B ^^^ reg)) ∧
    decBlock p k .cbc reg B = (B, p.inv k.rk k.nr B ^^^ reg)

/-- 41_block.md R189: each ciphertext bit of a CFB1 block is the plaintext bit XOR the top bit of the forward transform,
on the forward schedule, of the old register with the ciphertext bits so far shifted in at the low end. -/
def Obligations.Cfb1EncryptBlock : Prop :=
  ∀ (p : Primitive) (k : KeySlot) (reg P : Block),
    let out := (encBlock p k .cfb1 reg P).2
    ∀ kk, kk < 128 → Block.bitAt out kk =
      (Block.bitAt P kk ^^ (p.fwd k.frk k.nr ((reg <<< kk) ||| (out >>> (128 - kk)))).msb)

/-- 41_block.md R190: the same for decryption, with the INPUT bits shifted in, and the forward transform again. -/
def Obligations.Cfb1DecryptBlock : Prop :=
  ∀ (p : Primitive) (k : KeySlot) (reg C : Block),
    let out := (decBlock p k .cfb1 reg C).2
    ∀ kk, kk < 128 → Block.bitAt out kk =
      (Block.bitAt C kk ^^ (p.fwd k.frk k.nr ((reg <<< kk) ||| (C >>> (128 - kk)))).msb)

/-- 41_block.md R191: after any block in CBC or CFB1 mode the feedback register is that block's ciphertext; so after a
BLKENC of at least one block it is the last block written, and after a BLKDEC the last input block (read before the
command, for buffers that are disjoint or the same). -/
def Obligations.FeedbackIsLastCiphertext : Prop :=
  (∀ (p : Primitive) (k : KeySlot) (m : Mode) (reg B : Block), m ≠ .ecb →
    (encBlock p k m reg B).1 = (encBlock p k m reg B).2 ∧ (decBlock p k m reg B).1 = B) ∧
  ∀ (s t : State) (L : Latch) (ksel csel : Nat), s.mem.wf = true → s.latch = some L → 128 ≤ L.len.toInt →
    (s.context csel).mode ≠ .ecb → t.err = .success →
    let nb := L.len.toInt.toNat / 128
    (exec (.blkenc ksel csel) s = .next t →
      (t.context csel).reg = t.mem.readBlock (L.dst.toNat + 16 * (nb - 1))) ∧
    (exec (.blkdec ksel csel) s = .next t → DisjointOrSame L.src.toNat (16 * nb) L.dst.toNat (16 * nb) →
      (t.context csel).reg = s.mem.readBlock (L.src.toNat + 16 * (nb - 1)))

/-! ### BLKENC and BLKDEC (41_block.md) -/

/-- 41_block.md R182, R184, R195; 20_memory.md R87: BLKENC completes on `nb = LEN div 128` whole blocks; each output block
is the datapath's on the input block and the running feedback register, which the context keeps at the end; nothing
outside the output buffer changes. For buffers that are disjoint or the same. -/
def Obligations.BlkencRunsDatapath : Prop :=
  ∀ (s : State) (L : Latch) (ksel csel : Nat), s.mem.wf = true → s.latch = some L → HandlesReady s ksel csel →
    (s.slot ksel).dir = .encrypt → 0 < L.len.toInt →
    let nb := L.len.toInt.toNat / 128
    (∀ j, j < 16 * nb → admitted s.cfg .read (L.src.toNat + j) = true ∧ admitted s.cfg .write (L.dst.toNat + j) = true) →
    DisjointOrSame L.src.toNat (16 * nb) L.dst.toNat (16 * nb) →
    ∃ (t : State) (regs : Nat → Block), exec (.blkenc ksel csel) s = .next t ∧
      regs 0 = (s.context csel).reg ∧
      (∀ i, i < nb → encBlock Config.primitive (s.slot ksel) (s.context csel).mode (regs i)
          (s.mem.readBlock (L.src.toNat + 16 * i)) = (regs (i + 1), t.mem.readBlock (L.dst.toNat + 16 * i))) ∧
      t.context csel = { s.context csel with reg := regs nb } ∧
      (∀ a, a < L.dst.toNat ∨ L.dst.toNat + 16 * nb ≤ a → t.mem.read a = s.mem.read a) ∧
      t.err = .success ∧ t.count.toNat = 128 * nb ∧ t.busy = false ∧ t.draws = s.draws ∧ SameRegisters s t

/-- 41_block.md R182, R185, R195; 20_memory.md R87: the same of BLKDEC. In CFB1 mode a key of either direction will do. -/
def Obligations.BlkdecRunsDatapath : Prop :=
  ∀ (s : State) (L : Latch) (ksel csel : Nat), s.mem.wf = true → s.latch = some L → HandlesReady s ksel csel →
    (s.slot ksel).dir = .decrypt ∨ (s.context csel).mode = .cfb1 → 0 < L.len.toInt →
    let nb := L.len.toInt.toNat / 128
    (∀ j, j < 16 * nb → admitted s.cfg .read (L.src.toNat + j) = true ∧ admitted s.cfg .write (L.dst.toNat + j) = true) →
    DisjointOrSame L.src.toNat (16 * nb) L.dst.toNat (16 * nb) →
    ∃ (t : State) (regs : Nat → Block), exec (.blkdec ksel csel) s = .next t ∧
      regs 0 = (s.context csel).reg ∧
      (∀ i, i < nb → decBlock Config.primitive (s.slot ksel) (s.context csel).mode (regs i)
          (s.mem.readBlock (L.src.toNat + 16 * i)) = (regs (i + 1), t.mem.readBlock (L.dst.toNat + 16 * i))) ∧
      t.context csel = { s.context csel with reg := regs nb } ∧
      (∀ a, a < L.dst.toNat ∨ L.dst.toNat + 16 * nb ≤ a → t.mem.read a = s.mem.read a) ∧
      t.err = .success ∧ t.count.toNat = 128 * nb ∧ t.busy = false ∧ t.draws = s.draws ∧ SameRegisters s t

/-- 20_memory.md R85, R87; 41_block.md R184, R185: for every pair of buffers, partial overlap included, BLKENC and BLKDEC
go block by block: read block b whole as memory stands then, compute, write it, and go on with the memory and the feedback
register that leaves. -/
def Obligations.BlockCommandsFollowAccessOrder : Prop :=
  ∀ (s : State) (L : Latch) (ksel csel : Nat), s.latch = some L → HandlesReady s ksel csel → 0 < L.len.toInt →
    let nb := L.len.toInt.toNat / 128
    let k := s.slot ksel
    let x := s.context csel
    (∀ j, j < 16 * nb → admitted s.cfg .read (L.src.toNat + j) = true ∧ admitted s.cfg .write (L.dst.toNat + j) = true) →
    let follows (i : Instr) (f : Block → Block → Block × Block) : Prop :=
      ∃ (t : State) (mems : Nat → Memory) (regs : Nat → Block), exec i s = .next t ∧
        mems 0 = s.mem ∧ regs 0 = x.reg ∧
        (∀ b, b < nb →
          mems (b + 1) = (mems b).writeBlock (L.dst.toNat + 16 * b)
            (f (regs b) ((mems b).readBlock (L.src.toNat + 16 * b))).2 ∧
          regs (b + 1) = (f (regs b) ((mems b).readBlock (L.src.toNat + 16 * b))).1) ∧
        t.mem = mems nb ∧ (t.context csel).reg = regs nb ∧ t.err = .success ∧ t.count.toNat = 128 * nb
    (k.dir = .encrypt → follows (.blkenc ksel csel) (encBlock Config.primitive k x.mode)) ∧
    (k.dir = .decrypt ∨ x.mode = .cfb1 → follows (.blkdec ksel csel) (decBlock Config.primitive k x.mode))

/-- 41_block.md R195, 20_memory.md R87: a BLKENC over `a + b` blocks does what a BLKENC over the first `a` and then one
over the other `b` do, for every pair of buffers, overlapping ones included. -/
def Obligations.SplitMessageSameCiphertext : Prop :=
  ∀ (s t1 t2 t : State) (L : Latch) (ksel csel a b : Nat), 0 < a → 0 < b → 128 * (a + b) < 2 ^ 31 →
    L.src.toNat + 16 * a < 2 ^ 32 → L.dst.toNat + 16 * a < 2 ^ 32 →
    exec (.blkenc ksel csel) { s with latch := some { L with len := BitVec.ofNat 32 (128 * a) } } = .next t1 →
    t1.err = .success →
    exec (.blkenc ksel csel)
      { t1 with latch := some { L with
          src := L.src + BitVec.ofNat 32 (16 * a)
          dst := L.dst + BitVec.ofNat 32 (16 * a)
          len := BitVec.ofNat 32 (128 * b) } } = .next t2 →
    exec (.blkenc ksel csel) { s with latch := some { L with len := BitVec.ofNat 32 (128 * (a + b)) } } = .next t →
    t2.mem = t.mem ∧ t2.contexts = t.contexts ∧ t2.err = t.err ∧ t1.count + t2.count = t.count

/-- 41_block.md R197: under `P_RC` and, in ECB and CBC, `P_INV` (00_scope.md R22, R23), a BLKDEC of what a BLKENC wrote,
on a context with the same mode and feedback register and a slot of the same raw key, succeeds and gives the original whole blocks: with a
Decrypt key in ECB and CBC, with a key of either direction in CFB1. About every block primitive, since `exec` runs these
effects for the hardware's own. -/
def Obligations.BlockRoundTrip : Prop :=
  ∀ (p : Primitive) (raw : Bytes) (ks : KeySize) (d : Direction) (s t : State) (L L' : Latch)
    (ksel csel ksel' csel' : Nat), p.RoundCounts → ((s.context csel).mode ≠ .cfb1 → p.Inverts) →
    raw.length = ks.bytes → s.mem.wf = true →
    HandlesReady s ksel csel → s.slot ksel = makeSlot p raw ks .encrypt →
    HandlesReady t ksel' csel' → t.slot ksel' = makeSlot p raw ks d →
    t.context csel' = s.context csel → (d = .decrypt ∨ (s.context csel).mode = .cfb1) →
    t.mem = (blkencWith p ksel csel L s).after.mem → L'.src = L.dst → L'.len = L.len → 0 < L.len.toInt →
    let nb := L.len.toInt.toNat / 128
    DisjointOrSame L.src.toNat (16 * nb) L.dst.toNat (16 * nb) →
    DisjointOrSame L'.src.toNat (16 * nb) L'.dst.toNat (16 * nb) →
    let u := (blkdecWith p ksel' csel' L' t).after
    u.err = .success ∧ u.count.toNat = 128 * nb ∧
      ∀ j, j < 16 * nb → u.mem.read (L'.dst.toNat + j) = s.mem.read (L.src.toNat + j)

/-- 41_block.md R193: in CFB1 mode a BLKDEC with an Encrypt-direction key does what it does with the Decrypt-direction key
of the same raw key, under `P_RC` (00_scope.md R22). -/
def Obligations.Cfb1DecryptTakesEitherKey : Prop :=
  ∀ (p : Primitive) (raw : Bytes) (ks : KeySize) (s : State) (L : Latch) (k1 k2 csel : Nat), p.RoundCounts →
    HandlesReady s k1 csel → HandlesReady s k2 csel → s.slot k1 = makeSlot p raw ks .encrypt →
    s.slot k2 = makeSlot p raw ks .decrypt → (s.context csel).mode = .cfb1 →
    (blkdecWith p k1 csel L s).fp = (blkdecWith p k2 csel L s).fp ∧
    (blkdecWith p k1 csel L s).after = (blkdecWith p k2 csel L s).after

/-- 10_state.md R45: no data command on an ECB context writes a context, and what it does, on any key, does not depend on
the feedback register. Where the padding of a PADDEC fails, the bytes of `[dst, dst + 16*(nb-1))` that 42_padded.md R236
leaves unspecified are equal because both runs draw the free values from the same count (the model's choice, entry 7). -/
def Obligations.EcbNeitherReadsNorWritesFeedback : Prop :=
  ∀ (s t : State) (ksel csel : Nat) (r : Block), (s.context csel).mode = .ecb →
    ∀ i ∈ [Instr.blkenc ksel csel, .blkdec ksel csel, .padenc ksel csel, .paddec ksel csel], exec i s = .next t →
      t.contexts = s.contexts ∧
      exec i (s.setReg csel r) = .next (t.setReg csel r)

/-- 41_block.md R198: two contexts with the same contents give the same outputs, result and feedback register. Where the
padding of a PADDEC fails, what 42_padded.md R236 leaves unspecified is equal because both runs draw the free values from
the same count (the model's choice, entry 7). -/
def Obligations.EqualContextsGiveEqualOutputs : Prop :=
  ∀ (s t : State) (ksel c1 c2 : Nat), s.context c1 = s.context c2 → s.ctxPresent c1 = s.ctxPresent c2 →
    ∀ f ∈ [Instr.blkenc ksel, Instr.blkdec ksel, Instr.padenc ksel, Instr.paddec ksel], exec (f c1) s = .next t →
      ∃ u, exec (f c2) s = .next u ∧ u.mem = t.mem ∧ u.err = t.err ∧ u.count = t.count ∧ u.draws = t.draws ∧
        u.context c2 = t.context c1

/-! ### PADENC and PADDEC (42_padded.md) -/

/-- 42_padded.md R221, R222: padLen is 16 on whole blocks and 1 to 15 otherwise, and the final block is the remaining input
bytes followed by padLen bytes of value padLen. -/
def Obligations.PaddingInjector : Prop :=
  (∀ n, (n % 16 = 0 → padLength n = 16) ∧ (n % 16 ≠ 0 → padLength n + n % 16 = 16 ∧ 1 ≤ padLength n ∧ padLength n ≤ 15)) ∧
  ∀ (tail : Bytes) (padLen j : Nat), tail.length + padLen = 16 → 1 ≤ padLen → j < 16 →
    (Block.byte (padBlock tail padLen) j).toNat = if j < tail.length then (tail.getD j 0).toNat else padLen

/-- 42_padded.md R233, R237, R241: what the validator accepts. Under HARMONIZED in either mode, and in CBC under either
rule: a last byte of 1 to 16 with that many equal bytes at the end. In ECB under REFERENCE: a last byte of 0 to 15, the
same. -/
def Obligations.PaddingValidator : Prop :=
  ∀ (rule : EcbPadRule) (m : Mode) (Q : Block), m ≠ .cfb1 →
    (padOk rule m Q = true ↔
      ∃ p : Nat, (Block.byte Q 15).toNat = p ∧
        (if m = .ecb ∧ rule = .reference then p ≤ 15 else 1 ≤ p ∧ p ≤ 16) ∧
        ∀ j, 16 - p ≤ j → j < 16 → (Block.byte Q j).toNat = p)

/-- 42_padded.md R224 to R226: PADENC completes; the full blocks are the datapath's, and so is the final block, on the
remaining input bytes followed by padLen bytes of value padLen; it writes exactly `16*(nb+1)` bytes and reports them; the
context keeps the final feedback register. For buffers that are disjoint or the same. -/
def Obligations.PadencPadsAndEncrypts : Prop :=
  ∀ (s : State) (L : Latch) (ksel csel : Nat), s.mem.wf = true → s.latch = some L → HandlesReady s ksel csel →
    (s.slot ksel).dir = .encrypt → (s.context csel).mode ≠ .cfb1 → 0 < L.len.toInt →
    let n := L.len.toInt.toNat
    let nb := n / 16
    (∀ j, j < n → admitted s.cfg .read (L.src.toNat + j) = true) →
    (∀ j, j < 16 * (nb + 1) → admitted s.cfg .write (L.dst.toNat + j) = true) →
    DisjointOrSame L.src.toNat n L.dst.toNat (16 * (nb + 1)) →
    ∃ (t : State) (regs : Nat → Block), exec (.padenc ksel csel) s = .next t ∧
      regs 0 = (s.context csel).reg ∧
      (∀ i, i < nb → encBlock Config.primitive (s.slot ksel) (s.context csel).mode (regs i)
          (s.mem.readBlock (L.src.toNat + 16 * i)) = (regs (i + 1), t.mem.readBlock (L.dst.toNat + 16 * i))) ∧
      encBlock Config.primitive (s.slot ksel) (s.context csel).mode (regs nb)
          (Block.ofBytes (s.mem.readBytes (L.src.toNat + 16 * nb) (n % 16) ++
            List.replicate (16 - n % 16) (BitVec.ofNat 8 (16 - n % 16)))) =
        (regs (nb + 1), t.mem.readBlock (L.dst.toNat + 16 * nb)) ∧
      t.context csel = { s.context csel with reg := regs (nb + 1) } ∧
      (∀ a, a < L.dst.toNat ∨ L.dst.toNat + 16 * (nb + 1) ≤ a → t.mem.read a = s.mem.read a) ∧
      t.err = .success ∧ t.count.toNat = 16 * (nb + 1) ∧ t.busy = false ∧ t.draws = s.draws ∧ SameRegisters s t

/-- 42_padded.md R230, R233 to R236: PADDEC completes on whole blocks. With the decrypted blocks `out`, if the last one
passes the validator, everything but its padding is written, nothing else is, COUNT is the plaintext's length, and in CBC
the feedback register is the last input block; if not, the result is BadData with COUNT 0, nothing outside
`[dst, dst + 16*(nb-1))` is written, and the context keeps its mode, its valid bit and, in ECB, its feedback register (what
the failed command leaves in that range and in a CBC register is free). For buffers that are disjoint or the same. -/
def Obligations.PaddecValidatesAndUnpads : Prop :=
  ∀ (s : State) (L : Latch) (ksel csel : Nat), s.mem.wf = true → s.latch = some L → HandlesReady s ksel csel →
    (s.slot ksel).dir = .decrypt → (s.context csel).mode ≠ .cfb1 → 0 < L.len.toInt → L.len.toInt % 16 = 0 →
    let n := L.len.toInt.toNat
    let nb := n / 16
    let src := L.src.toNat
    let dst := L.dst.toNat
    let k := s.slot ksel
    let x := s.context csel
    let C (i : Nat) : Block := s.mem.readBlock (src + 16 * i)
    let out (i : Nat) : Block := Config.primitive.inv k.rk k.nr (C i) ^^^
      (if x.mode = .cbc then (if i = 0 then x.reg else C (i - 1)) else 0)
    let Q := out (nb - 1)
    let p := (Block.byte Q 15).toNat
    (∀ j, j < n → admitted s.cfg .read (src + j) = true ∧ admitted s.cfg .write (dst + j) = true) →
    DisjointOrSame src n dst n →
    ∃ t, exec (.paddec ksel csel) s = .next t ∧ t.busy = false ∧ SameRegisters s t ∧ t.keySlots = s.keySlots ∧
      (∀ j, j ≠ csel → t.context j = s.context j) ∧ (t.context csel).valid = x.valid ∧ (t.context csel).mode = x.mode ∧
      (padOk s.cfg.ecbPadRule x.mode Q = true →
        t.err = .success ∧ t.count.toNat = n - p ∧ t.draws = s.draws ∧
        (∀ i j, i < nb → j < 16 → 16 * i + j < n - p → t.mem.read (dst + 16 * i + j) = Block.byte (out i) j) ∧
        (∀ a, a < dst ∨ dst + (n - p) ≤ a → t.mem.read a = s.mem.read a) ∧
        (t.context csel).reg = if x.mode = .cbc then C (nb - 1) else x.reg) ∧
      (padOk s.cfg.ecbPadRule x.mode Q = false →
        t.err = .failed .badData ∧ t.count = 0 ∧
        (∀ a, a < dst ∨ dst + 16 * (nb - 1) ≤ a → t.mem.read a = s.mem.read a) ∧
        (x.mode = .ecb → (t.context csel).reg = x.reg))

/-- 20_memory.md R85, R87; 42_padded.md R224, R230: for every pair of buffers, partial overlap included, PADENC and PADDEC
go block by block as BLKENC and BLKDEC do, and take their last block in the memory and with the feedback register that the
blocks before it leave. -/
def Obligations.PaddedCommandsFollowAccessOrder : Prop :=
  ∀ (s : State) (L : Latch) (ksel csel : Nat), s.latch = some L → HandlesReady s ksel csel →
    (s.context csel).mode ≠ .cfb1 → 0 < L.len.toInt →
    let n := L.len.toInt.toNat
    let nb := n / 16
    let src := L.src.toNat
    let dst := L.dst.toNat
    let k := s.slot ksel
    let x := s.context csel
    let chain (f : Block → Block → Block × Block) (mems : Nat → Memory) (regs : Nat → Block) (m : Nat) : Prop :=
      mems 0 = s.mem ∧ regs 0 = x.reg ∧ ∀ b, b < m →
        mems (b + 1) = (mems b).writeBlock (dst + 16 * b) (f (regs b) ((mems b).readBlock (src + 16 * b))).2 ∧
        regs (b + 1) = (f (regs b) ((mems b).readBlock (src + 16 * b))).1
    (k.dir = .encrypt → (∀ j, j < n → admitted s.cfg .read (src + j) = true) →
      (∀ j, j < 16 * (nb + 1) → admitted s.cfg .write (dst + j) = true) →
      let f := encBlock Config.primitive k x.mode
      ∃ (t : State) (mems : Nat → Memory) (regs : Nat → Block), exec (.padenc ksel csel) s = .next t ∧
        chain f mems regs nb ∧
        (let last := f (regs nb) (padBlock ((mems nb).readBytes (src + 16 * nb) (n % 16)) (16 - n % 16))
         t.mem = (mems nb).writeBlock (dst + 16 * nb) last.2 ∧ (t.context csel).reg = last.1) ∧
        t.err = .success ∧ t.count.toNat = 16 * (nb + 1)) ∧
    (k.dir = .decrypt → n % 16 = 0 →
      (∀ j, j < n → admitted s.cfg .read (src + j) = true ∧ admitted s.cfg .write (dst + j) = true) →
      let f := decBlock Config.primitive k x.mode
      ∃ (t : State) (mems : Nat → Memory) (regs : Nat → Block), exec (.paddec ksel csel) s = .next t ∧
        chain f mems regs (nb - 1) ∧
        (let C := (mems (nb - 1)).readBlock (src + 16 * (nb - 1))
         let Q := (f (regs (nb - 1)) C).2
         let p := (Block.byte Q 15).toNat
         if padOk s.cfg.ecbPadRule x.mode Q = true then
           t.mem = (mems (nb - 1)).writeBytes (dst + 16 * (nb - 1)) ((Block.toBytes Q).take (16 - p)) ∧
           (t.context csel).reg = (f (regs (nb - 1)) C).1 ∧ t.err = .success ∧ t.count.toNat = n - p
         else t.err = .failed .badData ∧ t.count = 0))

/-- 42_padded.md R240: under `P_RC` and `P_INV` (00_scope.md R22, R23), a PADDEC of the `16*(nb+1)` bytes a PADENC wrote,
on a context with the same mode and feedback register and a Decrypt key of the same raw key, succeeds with COUNT = n and
gives back the n bytes, if the bound is HARMONIZED or the mode is CBC; in ECB under REFERENCE it is BadData whenever n is a
multiple of 16. An n of 2^31 - 16 or more has no such PADDEC: no positive LEN holds its padded length. About every block
primitive, since `exec` runs these effects for the hardware's own. -/
def Obligations.PaddedRoundTrip : Prop :=
  ∀ (p : Primitive) (raw : Bytes) (ks : KeySize) (s t : State) (L L' : Latch) (ksel csel ksel' csel' : Nat),
    p.RoundCounts → p.Inverts → raw.length = ks.bytes → s.mem.wf = true →
    HandlesReady s ksel csel → s.slot ksel = makeSlot p raw ks .encrypt → (s.context csel).mode ≠ .cfb1 →
    HandlesReady t ksel' csel' → t.slot ksel' = makeSlot p raw ks .decrypt → t.context csel' = s.context csel →
    t.mem = (padencWith p ksel csel L s).after.mem → L'.src = L.dst → 0 < L.len.toInt →
    let n := L.len.toInt.toNat
    let padded := 16 * (n / 16 + 1)
    L'.len.toInt = padded →
    DisjointOrSame L.src.toNat n L.dst.toNat padded →
    DisjointOrSame L'.src.toNat padded L'.dst.toNat padded →
    let u := (paddecWith p ksel' csel' L' t).after
    (t.cfg.ecbPadRule = .harmonized ∨ (s.context csel).mode = .cbc →
      u.err = .success ∧ u.count.toNat = n ∧
        ∀ j, j < n → u.mem.read (L'.dst.toNat + j) = s.mem.read (L.src.toNat + j)) ∧
    (t.cfg.ecbPadRule = .reference → (s.context csel).mode = .ecb → n % 16 = 0 → u.err = .failed .badData)
end

