-- ==== Sys2Proof/Laws/Block.lean ====
section
/-! SUPPORT. Blocks: the byte view and the bit view of a 128-bit value (00_scope.md R15 to R17). -/

namespace Sys2Proof

theorem bytesVal_append (as bs : Bytes) : bytesVal (as ++ bs) = bytesVal as * 256 ^ bs.length + bytesVal bs := by
  suffices h : ∀ (bs : Bytes) (n : Nat),
      bs.foldl (fun acc b => acc * 256 + b.toNat) n = n * 256 ^ bs.length + bytesVal bs by
    rw [bytesVal, List.foldl_append, h]; rfl
  intro bs
  induction bs with
  | nil => intro n; simp [bytesVal]
  | cons b bs ih =>
    intro n
    have h := ih b.toNat
    simp only [bytesVal, List.foldl_cons, List.length_cons, Nat.zero_mul, Nat.zero_add] at h ih ⊢
    rw [ih, h]
    ring

theorem bytesVal_lt (bs : Bytes) : bytesVal bs < 256 ^ bs.length := by
  induction bs with
  | nil => simp [bytesVal]
  | cons b bs ih =>
    have h := bytesVal_append [b] bs
    have hb := b.isLt
    simp only [List.singleton_append] at h
    rw [h, List.length_cons, show bytesVal [b] = b.toNat by simp [bytesVal]]
    calc b.toNat * 256 ^ bs.length + bytesVal bs
        < b.toNat * 256 ^ bs.length + 256 ^ bs.length := by omega
      _ = (b.toNat + 1) * 256 ^ bs.length := by ring
      _ ≤ 256 * 256 ^ bs.length := Nat.mul_le_mul_right _ (by omega)
      _ = 256 ^ (bs.length + 1) := by ring

/-- Byte `j` of the value of a sequence. -/
theorem bytesVal_byte (bs : Bytes) (j : Nat) (h : j < bs.length) :
    bytesVal bs / 256 ^ (bs.length - 1 - j) % 256 = bs[j].toNat := by
  have hsplit : bs = bs.take j ++ ([bs[j]] ++ bs.drop (j + 1)) := by
    rw [List.singleton_append, List.getElem_cons_drop, List.take_append_drop]
  have hlen : (bs.drop (j + 1)).length = bs.length - 1 - j := by simp; omega
  have hlt := bytesVal_lt (bs.drop (j + 1))
  rw [hlen] at hlt
  have hpos : 0 < 256 ^ (bs.length - 1 - j) := by positivity
  have hv : bytesVal bs = (bytesVal (bs.take j) * 256 + bs[j].toNat) * 256 ^ (bs.length - 1 - j) +
      bytesVal (bs.drop (j + 1)) := by
    conv_lhs => rw [hsplit]
    rw [bytesVal_append, bytesVal_append, List.length_append, hlen,
      show bytesVal [bs[j]] = bs[j].toNat by simp [bytesVal], List.length_singleton, pow_add]
    ring
  rw [hv, Nat.add_comm, Nat.add_mul_div_right _ _ hpos, Nat.div_eq_of_lt hlt, Nat.zero_add]
  have := bs[j].isLt
  omega

theorem Block.toNat_byte (B : Block) (j : Nat) : (Block.byte B j).toNat = B.toNat / 256 ^ (15 - j) % 256 := by
  rw [Block.byte, BitVec.extractLsb'_toNat, Nat.shiftRight_eq_div_pow, Nat.pow_mul]

/-- Byte `j` of the Block of 16 bytes is the `j`-th of them. -/
theorem Block.byte_ofBytes (bs : Bytes) (hl : bs.length = 16) (j : Nat) (h : j < bs.length) :
    Block.byte (Block.ofBytes bs) j = bs[j] := by
  apply BitVec.eq_of_toNat_eq
  have hlt := bytesVal_lt bs
  have hb := bytesVal_byte bs j h
  rw [hl] at hlt hb
  have hm : bytesVal bs % 2 ^ 128 = bytesVal bs := Nat.mod_eq_of_lt (by simpa using hlt)
  rw [Block.toNat_byte, Block.ofBytes, BitVec.toNat_ofNat, hm]
  exact hb

@[simp] theorem Block.length_toBytes (B : Block) : (Block.toBytes B).length = 16 := by simp [Block.toBytes]

@[simp] theorem Block.getElem_toBytes (B : Block) (j : Nat) (h : j < (Block.toBytes B).length) :
    (Block.toBytes B)[j] = Block.byte B j := by simp [Block.toBytes]

/-- The byte view of the Block of 16 bytes is those bytes. -/
theorem Block.toBytes_ofBytes (bs : Bytes) (hl : bs.length = 16) : Block.toBytes (Block.ofBytes bs) = bs := by
  apply List.ext_getElem (by simp [hl])
  intro j h1 h2
  rw [Block.getElem_toBytes, Block.byte_ofBytes bs hl j h2]

/-- Two Blocks with the same 16 bytes are equal. -/
theorem Block.ext_byte {A B : Block} (h : ∀ j, j < 16 → Block.byte A j = Block.byte B j) : A = B := by
  apply BitVec.eq_of_getLsbD_eq
  intro i hi
  have hb := congrArg (fun x : Byte => x.getLsbD (i % 8)) (h (15 - i / 8) (by omega))
  have e1 : 8 * (15 - (15 - i / 8)) + i % 8 = i := by omega
  have e2 : i % 8 < 8 := by omega
  simpa [Block.byte, BitVec.getLsbD_extractLsb', e1, e2] using hb

/-- The Block of a Block's bytes is the Block. -/
theorem Block.ofBytes_toBytes (B : Block) : Block.ofBytes (Block.toBytes B) = B := by
  apply Block.ext_byte
  intro j hj
  rw [Block.byte_ofBytes _ (Block.length_toBytes B) j (by simpa using hj), Block.getElem_toBytes]

/-! ### Bits -/

/-- Two Blocks with the same 128 bits are equal. -/
theorem Block.ext_bitAt {A B : Block} (h : ∀ k, k < 128 → Block.bitAt A k = Block.bitAt B k) : A = B := by
  apply BitVec.eq_of_getLsbD_eq
  intro i hi
  have := h (127 - i) (by omega)
  simpa [Block.bitAt, show 127 - (127 - i) = i by omega] using this

/-- Setting a bit sets it and leaves the other 127 alone (00_scope.md R16). -/
theorem Block.bitAt_setBit (B : Block) (k j : Nat) (v : Bool) (hk : k < 128) (hj : j < 128) :
    Block.bitAt (Block.setBit B k v) j = if j = k then v else Block.bitAt B j := by
  have h1 : (1#128 <<< (127 - k)).getLsbD (127 - j) = decide (j = k) := by
    rw [BitVec.getLsbD_shiftLeft, BitVec.getLsbD_one]
    by_cases h : j = k
    · subst h; simp; omega
    · have : ¬ (127 - j - (127 - k) = 0 ∧ ¬ 127 - j < 127 - k) := by omega
      simp [h]; omega
  unfold Block.bitAt Block.setBit
  have hj' : 127 - j < 128 := by omega
  cases v
  · simp only [Bool.false_eq_true, ↓reduceIte, BitVec.getLsbD_and, BitVec.getLsbD_not, hj', decide_true, h1,
      Bool.true_and]
    by_cases h : j = k <;> simp [h]
  · simp only [↓reduceIte, BitVec.getLsbD_or, h1]
    by_cases h : j = k <;> simp [h]

/-- Shifting a bit in moves every bit up one place and puts the new one at the low end (00_scope.md R17). -/
theorem Block.bitAt_shiftInBit (R : Block) (b : Bool) (k : Nat) (hk : k < 128) :
    Block.bitAt (Block.shiftInBit R b) k = if k = 127 then b else Block.bitAt R (k + 1) := by
  unfold Block.bitAt Block.shiftInBit
  rw [BitVec.getLsbD_ofNat]
  have hk' : 127 - k < 128 := by omega
  by_cases h : k = 127
  · subst h
    cases b <;> simp
  · have e : 127 - k = (127 - (k + 1)) + 1 := by omega
    have hd : (2 * R.toNat + b.toNat) / 2 = R.toNat := by have := Bool.toNat_lt b; omega
    simp only [h, ↓reduceIte, hk', decide_true, Bool.true_and]
    rw [e, Nat.testBit_succ, hd]
    rfl

end Sys2Proof
end

