-- ==== Sys2Proof/Laws/Memory.lean ====
section
/-! SUPPORT. Memory: the canonical form is kept by every operation, a read after a write gives the value written, and a
write leaves every other byte alone. -/

namespace Sys2Proof.Machine

theorem Memory.wfFrom_mono {lo lo' : Nat} (h : lo' ≤ lo) {m : Memory} (hm : Memory.wfFrom lo m = true) :
    Memory.wfFrom lo' m = true := by
  cases m with
  | nil => rfl
  | cons c m =>
    simp only [Memory.wfFrom, Bool.and_eq_true, decide_eq_true_eq] at hm ⊢
    exact ⟨⟨by omega, hm.1.2⟩, hm.2⟩

theorem Memory.wfFrom_consCell {lo a : Nat} {v : Byte} {m : Memory} (ha : lo ≤ a)
    (hm : Memory.wfFrom (a + 1) m = true) : Memory.wfFrom lo (Memory.consCell a v m) = true := by
  unfold Memory.consCell
  split
  · exact Memory.wfFrom_mono (by omega) hm
  · simp_all [Memory.wfFrom]

theorem Memory.wfFrom_write {lo a : Nat} (v : Byte) (ha : lo ≤ a) {m : Memory}
    (hm : Memory.wfFrom lo m = true) : Memory.wfFrom lo (Memory.write m a v) = true := by
  induction m generalizing lo with
  | nil => exact Memory.wfFrom_consCell ha rfl
  | cons c m ih =>
    obtain ⟨b, w⟩ := c
    simp only [Memory.wfFrom, Bool.and_eq_true, decide_eq_true_eq] at hm
    simp only [Memory.write]
    split
    · exact Memory.wfFrom_consCell ha (by simp [Memory.wfFrom, hm]; omega)
    · split
      · next h => subst h; exact Memory.wfFrom_consCell ha hm.2
      · simp only [Memory.wfFrom, Bool.and_eq_true, decide_eq_true_eq]
        exact ⟨hm.1, ih (by omega) hm.2⟩

theorem Memory.wf_write (a : Nat) (v : Byte) {m : Memory} (hm : m.wf = true) : (m.write a v).wf = true :=
  Memory.wfFrom_write v (Nat.zero_le a) hm

theorem Memory.read_below {lo a : Nat} {m : Memory} (hm : Memory.wfFrom lo m = true) (ha : a < lo) :
    Memory.read m a = Memory.unlisted := by
  induction m generalizing lo with
  | nil => rfl
  | cons c m ih =>
    obtain ⟨b, w⟩ := c
    simp only [Memory.wfFrom, Bool.and_eq_true, decide_eq_true_eq] at hm
    rw [Memory.read, if_neg (by omega)]
    exact ih hm.2 (by omega)

theorem Memory.read_consCell {a b : Nat} {v : Byte} {m : Memory} (hm : Memory.wfFrom (a + 1) m = true) :
    Memory.read (Memory.consCell a v m) b = if b = a then v else Memory.read m b := by
  unfold Memory.consCell
  split
  · split
    · next h h' => rw [h, h', Memory.read_below hm (by omega)]
    · rfl
  · rfl

theorem Memory.read_write_from {lo a b : Nat} (v : Byte) {m : Memory} (hm : Memory.wfFrom lo m = true) :
    Memory.read (Memory.write m a v) b = if b = a then v else Memory.read m b := by
  induction m generalizing lo with
  | nil => exact Memory.read_consCell rfl
  | cons c m ih =>
    obtain ⟨k, w⟩ := c
    simp only [Memory.wfFrom, Bool.and_eq_true, decide_eq_true_eq] at hm
    simp only [Memory.write]
    split
    · exact Memory.read_consCell (by simp [Memory.wfFrom, hm]; omega)
    · split
      · next h =>
        subst h
        rw [Memory.read_consCell hm.2]
        split <;> simp_all [Memory.read]
      · simp only [Memory.read]
        split
        · rw [if_neg (by omega)]
        · exact ih hm.2

/-- A read after a write. -/
theorem Memory.read_write (a b : Nat) (v : Byte) {m : Memory} (hm : m.wf = true) :
    (m.write a v).read b = if b = a then v else m.read b :=
  Memory.read_write_from v hm

theorem Memory.mem_consCell {a : Nat} {v : Byte} {m : Memory} {c : Host.Cell} (h : c ∈ Memory.consCell a v m) :
    c.1 = a ∨ c ∈ m := by
  unfold Memory.consCell at h
  split at h <;> simp_all
  rcases h with h | h <;> simp [h]

/-- A write lists no address but its own. -/
theorem Memory.mem_write {a : Nat} {v : Byte} {m : Memory} {c : Host.Cell} (h : c ∈ Memory.write m a v) :
    c.1 = a ∨ c ∈ m := by
  induction m with
  | nil => exact Memory.mem_consCell h
  | cons k m ih =>
    obtain ⟨b, w⟩ := k
    simp only [Memory.write] at h
    split at h
    · exact Memory.mem_consCell h
    · split at h
      · rcases Memory.mem_consCell h with h | h
        · exact .inl h
        · exact .inr (by simp [h])
      · rcases List.mem_cons.mp h with h | h
        · exact .inr (by simp [h])
        · rcases ih h with h | h
          · exact .inl h
          · exact .inr (by simp [h])

/-! ### Runs of bytes -/

theorem Memory.wf_writeBytes (bs : Bytes) (a : Nat) {m : Memory} (hm : m.wf = true) :
    (m.writeBytes a bs).wf = true := by
  induction bs generalizing a m with
  | nil => exact hm
  | cons v vs ih => exact ih _ (Memory.wf_write a v hm)

/-- What a read gives after a run of bytes was written. -/
theorem Memory.read_writeBytes (bs : Bytes) (a b : Nat) {m : Memory} (hm : m.wf = true) :
    (m.writeBytes a bs).read b = if a ≤ b then bs[b - a]?.getD (m.read b) else m.read b := by
  induction bs generalizing a m with
  | nil => simp [Memory.writeBytes]
  | cons v vs ih =>
    rw [Memory.writeBytes, ih _ (Memory.wf_write a v hm), Memory.read_write a b v hm]
    by_cases h1 : a + 1 ≤ b
    · have h2 : b - a = (b - (a + 1)) + 1 := by omega
      rw [if_pos h1, if_pos (show a ≤ b by omega), if_neg (show ¬b = a by omega), h2, List.getElem?_cons_succ]
    · rw [if_neg h1]
      by_cases h3 : b = a
      · subst h3; simp
      · rw [if_neg h3, if_neg (by omega)]

/-- A run of bytes written leaves every byte outside it alone. -/
theorem Memory.read_writeBytes_outside (bs : Bytes) (a b : Nat) {m : Memory} (hm : m.wf = true)
    (h : b < a ∨ a + bs.length ≤ b) : (m.writeBytes a bs).read b = m.read b := by
  rw [Memory.read_writeBytes bs a b hm]
  split
  · rw [List.getElem?_eq_none (by omega)]; rfl
  · rfl

/-- A run of bytes written reads back. -/
theorem Memory.read_writeBytes_inside (bs : Bytes) (a j : Nat) {m : Memory} (hm : m.wf = true)
    (h : j < bs.length) : (m.writeBytes a bs).read (a + j) = bs[j] := by
  rw [Memory.read_writeBytes bs a (a + j) hm, if_pos (by omega), show a + j - a = j by omega,
    List.getElem?_eq_getElem h]
  rfl

/-- A run of bytes lists no address outside it. -/
theorem Memory.mem_writeBytes {bs : Bytes} {a : Nat} {m : Memory} {c : Host.Cell}
    (h : c ∈ Memory.writeBytes m a bs) : (a ≤ c.1 ∧ c.1 < a + bs.length) ∨ c ∈ m := by
  induction bs generalizing a m with
  | nil => exact .inr h
  | cons v vs ih =>
    rcases ih h with h | h
    · exact .inl (by simp; omega)
    · rcases Memory.mem_write h with h | h
      · exact .inl (by simp; omega)
      · exact .inr h

@[simp] theorem Memory.length_readBytes (m : Memory) (a n : Nat) : (m.readBytes a n).length = n := by
  simp [Memory.readBytes]

@[simp] theorem Memory.getElem_readBytes (m : Memory) (a n j : Nat) (h : j < (m.readBytes a n).length) :
    (m.readBytes a n)[j] = m.read (a + j) := by
  simp [Memory.readBytes]

/-- Two memories that agree on a run of bytes read the same run. -/
theorem Memory.readBytes_congr {m m' : Memory} {a a' n : Nat}
    (h : ∀ j, j < n → m.read (a + j) = m'.read (a' + j)) : m.readBytes a n = m'.readBytes a' n := by
  apply List.ext_getElem
  · simp
  · intro j h1 h2
    simp only [Memory.length_readBytes] at h1
    simp [h j h1]

/-! ### Draws -/

theorem Memory.wf_drawBytes (c : Config) (base d n : Nat) {m : Memory} (hm : m.wf = true) :
    (m.drawBytes c base d n).wf = true := by
  induction n with
  | zero => exact hm
  | succ n ih =>
    simp only [Memory.drawBytes]
    split
    · exact Memory.wf_write _ _ ih
    · exact ih

/-- What a read gives after draws: the free value on a drawn byte of system memory, else what it gave before. -/
theorem Memory.read_drawBytes (c : Config) (base d n b : Nat) {m : Memory} (hm : m.wf = true) :
    (m.drawBytes c base d n).read b =
      if base ≤ b ∧ b < base + n ∧ isSystemAddr c b = true then Config.freeByte (d + (b - base)) else m.read b := by
  induction n with
  | zero => rw [if_neg (by omega)]; rfl
  | succ n ih =>
    simp only [Memory.drawBytes]
    by_cases hs : isSystemAddr c (base + n) = true
    · rw [if_pos hs, Memory.read_write _ _ _ (Memory.wf_drawBytes c base d n hm), ih]
      by_cases hb : b = base + n
      · subst hb
        rw [if_pos rfl, if_pos ⟨by omega, by omega, hs⟩]
        congr 1; omega
      · rw [if_neg hb]
        by_cases h : base ≤ b ∧ b < base + n ∧ isSystemAddr c b = true
        · rw [if_pos h, if_pos ⟨h.1, by omega, h.2.2⟩]
        · rw [if_neg h, if_neg (by rintro ⟨h1, h2, h3⟩; exact h ⟨h1, by omega, h3⟩)]
    · rw [if_neg hs, ih]
      by_cases h : base ≤ b ∧ b < base + n ∧ isSystemAddr c b = true
      · rw [if_pos h, if_pos ⟨h.1, by omega, h.2.2⟩]
      · rw [if_neg h, if_neg]
        rintro ⟨h1, h2, h3⟩
        by_cases hb : b = base + n
        · subst hb; exact hs h3
        · exact h ⟨h1, by omega, h3⟩

/-- Draws list only bytes of system memory. -/
theorem Memory.mem_drawBytes {c : Config} {base d n : Nat} {m : Memory} {x : Host.Cell}
    (h : x ∈ Memory.drawBytes c m base d n) : isSystemAddr c x.1 = true ∨ x ∈ m := by
  induction n with
  | zero => exact .inr h
  | succ n ih =>
    simp only [Memory.drawBytes] at h
    split at h
    · next hs =>
      rcases Memory.mem_write h with h | h
      · exact .inl (h ▸ hs)
      · exact ih h
    · exact ih h

/-! ### The canonical form is canonical -/

/-- An address some read of which differs from what an unlisted address reads as is listed; two canonical memories that
read alike are equal. -/
theorem Memory.ext_of_wfFrom {lo : Nat} {m m' : Memory} (hm : Memory.wfFrom lo m = true)
    (hm' : Memory.wfFrom lo m' = true) (h : ∀ a, m.read a = m'.read a) : m = m' := by
  induction m generalizing lo m' with
  | nil =>
    cases m' with
    | nil => rfl
    | cons c m' =>
      obtain ⟨b, w⟩ := c
      have := h b
      simp_all [Memory.wfFrom, Memory.read]
  | cons c m ih =>
    obtain ⟨b, w⟩ := c
    cases m' with
    | nil =>
      have := h b
      simp_all [Memory.wfFrom, Memory.read]
    | cons c' m' =>
      obtain ⟨b', w'⟩ := c'
      simp only [Memory.wfFrom, Bool.and_eq_true, decide_eq_true_eq] at hm hm'
      have hb : b = b' := by
        rcases Nat.lt_trichotomy b b' with hlt | heq | hlt
        · have h1 := h b
          rw [Memory.read, if_pos rfl, Memory.read, if_neg (by omega), Memory.read_below hm'.2 (by omega)] at h1
          exact absurd h1 hm.1.2
        · exact heq
        · have h1 := h b'
          rw [Memory.read, if_neg (by omega), Memory.read_below hm.2 (by omega), Memory.read, if_pos rfl] at h1
          exact absurd h1.symm hm'.1.2
      subst hb
      have hw : w = w' := by simpa [Memory.read] using h b
      subst hw
      congr 1
      refine ih hm.2 hm'.2 fun a => ?_
      by_cases ha : a = b
      · subst ha
        rw [Memory.read_below hm.2 (by omega), Memory.read_below hm'.2 (by omega)]
      · simpa [Memory.read, ha] using h a

/-- Two canonical memories that read alike are equal. -/
theorem Memory.ext_of_wf {m m' : Memory} (hm : m.wf = true) (hm' : m'.wf = true)
    (h : ∀ a, m.read a = m'.read a) : m = m' :=
  Memory.ext_of_wfFrom hm hm' h

end Sys2Proof.Machine
end

