-- ==== Sys2Proof/Laws/State.lean ====
section
/-! SUPPORT. One lemma for each field of State and each named update of it (Machine/Ops.lean), so that no later proof
unfolds a record update. -/

namespace Sys2Proof.Machine

variable (s : State)

@[simp] theorem State.setSlot_cfg (i : Nat) (k : KeySlot) : (s.setSlot i k).cfg = s.cfg := rfl
@[simp] theorem State.setSlot_drop (i : Nat) (k : KeySlot) : (s.setSlot i k).drop = s.drop := rfl
@[simp] theorem State.setSlot_err (i : Nat) (k : KeySlot) : (s.setSlot i k).err = s.err := rfl
@[simp] theorem State.setSlot_count (i : Nat) (k : KeySlot) : (s.setSlot i k).count = s.count := rfl
@[simp] theorem State.setSlot_param (i : Nat) (k : KeySlot) : (s.setSlot i k).param = s.param := rfl
@[simp] theorem State.setSlot_src (i : Nat) (k : KeySlot) : (s.setSlot i k).src = s.src := rfl
@[simp] theorem State.setSlot_dst (i : Nat) (k : KeySlot) : (s.setSlot i k).dst = s.dst := rfl
@[simp] theorem State.setSlot_len (i : Nat) (k : KeySlot) : (s.setSlot i k).len = s.len := rfl
@[simp] theorem State.setSlot_keymat (i : Nat) (k : KeySlot) : (s.setSlot i k).keymat = s.keymat := rfl
@[simp] theorem State.setSlot_ivhex (i : Nat) (k : KeySlot) : (s.setSlot i k).ivhex = s.ivhex := rfl
@[simp] theorem State.setSlot_keySlots (i : Nat) (k : KeySlot) : (s.setSlot i k).keySlots = s.keySlots.setIfInBounds i k := rfl
@[simp] theorem State.setSlot_contexts (i : Nat) (k : KeySlot) : (s.setSlot i k).contexts = s.contexts := rfl
@[simp] theorem State.setSlot_latch (i : Nat) (k : KeySlot) : (s.setSlot i k).latch = s.latch := rfl
@[simp] theorem State.setSlot_mem (i : Nat) (k : KeySlot) : (s.setSlot i k).mem = s.mem := rfl
@[simp] theorem State.setSlot_faultMarks (i : Nat) (k : KeySlot) : (s.setSlot i k).faultMarks = s.faultMarks := rfl
@[simp] theorem State.setSlot_draws (i : Nat) (k : KeySlot) : (s.setSlot i k).draws = s.draws := rfl
@[simp] theorem State.setSlot_events (i : Nat) (k : KeySlot) : (s.setSlot i k).events = s.events := rfl
@[simp] theorem State.setSlot_observed (i : Nat) (k : KeySlot) : (s.setSlot i k).observed = s.observed := rfl
@[simp] theorem State.setSlot_retired (i : Nat) (k : KeySlot) : (s.setSlot i k).retired = s.retired := rfl

@[simp] theorem State.setContext_cfg (j : Nat) (x : Context) : (s.setContext j x).cfg = s.cfg := rfl
@[simp] theorem State.setContext_drop (j : Nat) (x : Context) : (s.setContext j x).drop = s.drop := rfl
@[simp] theorem State.setContext_err (j : Nat) (x : Context) : (s.setContext j x).err = s.err := rfl
@[simp] theorem State.setContext_count (j : Nat) (x : Context) : (s.setContext j x).count = s.count := rfl
@[simp] theorem State.setContext_param (j : Nat) (x : Context) : (s.setContext j x).param = s.param := rfl
@[simp] theorem State.setContext_src (j : Nat) (x : Context) : (s.setContext j x).src = s.src := rfl
@[simp] theorem State.setContext_dst (j : Nat) (x : Context) : (s.setContext j x).dst = s.dst := rfl
@[simp] theorem State.setContext_len (j : Nat) (x : Context) : (s.setContext j x).len = s.len := rfl
@[simp] theorem State.setContext_keymat (j : Nat) (x : Context) : (s.setContext j x).keymat = s.keymat := rfl
@[simp] theorem State.setContext_ivhex (j : Nat) (x : Context) : (s.setContext j x).ivhex = s.ivhex := rfl
@[simp] theorem State.setContext_keySlots (j : Nat) (x : Context) : (s.setContext j x).keySlots = s.keySlots := rfl
@[simp] theorem State.setContext_contexts (j : Nat) (x : Context) : (s.setContext j x).contexts = s.contexts.setIfInBounds j x := rfl
@[simp] theorem State.setContext_latch (j : Nat) (x : Context) : (s.setContext j x).latch = s.latch := rfl
@[simp] theorem State.setContext_mem (j : Nat) (x : Context) : (s.setContext j x).mem = s.mem := rfl
@[simp] theorem State.setContext_faultMarks (j : Nat) (x : Context) : (s.setContext j x).faultMarks = s.faultMarks := rfl
@[simp] theorem State.setContext_draws (j : Nat) (x : Context) : (s.setContext j x).draws = s.draws := rfl
@[simp] theorem State.setContext_events (j : Nat) (x : Context) : (s.setContext j x).events = s.events := rfl
@[simp] theorem State.setContext_observed (j : Nat) (x : Context) : (s.setContext j x).observed = s.observed := rfl
@[simp] theorem State.setContext_retired (j : Nat) (x : Context) : (s.setContext j x).retired = s.retired := rfl

@[simp] theorem State.setReg_cfg (j : Nat) (r : Block) : (s.setReg j r).cfg = s.cfg := rfl
@[simp] theorem State.setReg_drop (j : Nat) (r : Block) : (s.setReg j r).drop = s.drop := rfl
@[simp] theorem State.setReg_err (j : Nat) (r : Block) : (s.setReg j r).err = s.err := rfl
@[simp] theorem State.setReg_count (j : Nat) (r : Block) : (s.setReg j r).count = s.count := rfl
@[simp] theorem State.setReg_param (j : Nat) (r : Block) : (s.setReg j r).param = s.param := rfl
@[simp] theorem State.setReg_src (j : Nat) (r : Block) : (s.setReg j r).src = s.src := rfl
@[simp] theorem State.setReg_dst (j : Nat) (r : Block) : (s.setReg j r).dst = s.dst := rfl
@[simp] theorem State.setReg_len (j : Nat) (r : Block) : (s.setReg j r).len = s.len := rfl
@[simp] theorem State.setReg_keymat (j : Nat) (r : Block) : (s.setReg j r).keymat = s.keymat := rfl
@[simp] theorem State.setReg_ivhex (j : Nat) (r : Block) : (s.setReg j r).ivhex = s.ivhex := rfl
@[simp] theorem State.setReg_keySlots (j : Nat) (r : Block) : (s.setReg j r).keySlots = s.keySlots := rfl
@[simp] theorem State.setReg_latch (j : Nat) (r : Block) : (s.setReg j r).latch = s.latch := rfl
@[simp] theorem State.setReg_mem (j : Nat) (r : Block) : (s.setReg j r).mem = s.mem := rfl
@[simp] theorem State.setReg_faultMarks (j : Nat) (r : Block) : (s.setReg j r).faultMarks = s.faultMarks := rfl
@[simp] theorem State.setReg_draws (j : Nat) (r : Block) : (s.setReg j r).draws = s.draws := rfl
@[simp] theorem State.setReg_events (j : Nat) (r : Block) : (s.setReg j r).events = s.events := rfl
@[simp] theorem State.setReg_observed (j : Nat) (r : Block) : (s.setReg j r).observed = s.observed := rfl
@[simp] theorem State.setReg_retired (j : Nat) (r : Block) : (s.setReg j r).retired = s.retired := rfl

@[simp] theorem State.setMem_cfg (m : Memory) : (s.setMem m).cfg = s.cfg := rfl
@[simp] theorem State.setMem_drop (m : Memory) : (s.setMem m).drop = s.drop := rfl
@[simp] theorem State.setMem_err (m : Memory) : (s.setMem m).err = s.err := rfl
@[simp] theorem State.setMem_count (m : Memory) : (s.setMem m).count = s.count := rfl
@[simp] theorem State.setMem_param (m : Memory) : (s.setMem m).param = s.param := rfl
@[simp] theorem State.setMem_src (m : Memory) : (s.setMem m).src = s.src := rfl
@[simp] theorem State.setMem_dst (m : Memory) : (s.setMem m).dst = s.dst := rfl
@[simp] theorem State.setMem_len (m : Memory) : (s.setMem m).len = s.len := rfl
@[simp] theorem State.setMem_keymat (m : Memory) : (s.setMem m).keymat = s.keymat := rfl
@[simp] theorem State.setMem_ivhex (m : Memory) : (s.setMem m).ivhex = s.ivhex := rfl
@[simp] theorem State.setMem_keySlots (m : Memory) : (s.setMem m).keySlots = s.keySlots := rfl
@[simp] theorem State.setMem_contexts (m : Memory) : (s.setMem m).contexts = s.contexts := rfl
@[simp] theorem State.setMem_latch (m : Memory) : (s.setMem m).latch = s.latch := rfl
@[simp] theorem State.setMem_mem (m : Memory) : (s.setMem m).mem = m := rfl
@[simp] theorem State.setMem_faultMarks (m : Memory) : (s.setMem m).faultMarks = s.faultMarks := rfl
@[simp] theorem State.setMem_draws (m : Memory) : (s.setMem m).draws = s.draws := rfl
@[simp] theorem State.setMem_events (m : Memory) : (s.setMem m).events = s.events := rfl
@[simp] theorem State.setMem_observed (m : Memory) : (s.setMem m).observed = s.observed := rfl
@[simp] theorem State.setMem_retired (m : Memory) : (s.setMem m).retired = s.retired := rfl

@[simp] theorem raise_cfg (e : ErrorKind) : (raise e s).cfg = s.cfg := rfl
@[simp] theorem raise_drop (e : ErrorKind) : (raise e s).drop = s.drop := rfl
@[simp] theorem raise_err (e : ErrorKind) : (raise e s).err = .failed e := rfl
@[simp] theorem raise_count (e : ErrorKind) : (raise e s).count = 0 := rfl
@[simp] theorem raise_param (e : ErrorKind) : (raise e s).param = s.param := rfl
@[simp] theorem raise_src (e : ErrorKind) : (raise e s).src = s.src := rfl
@[simp] theorem raise_dst (e : ErrorKind) : (raise e s).dst = s.dst := rfl
@[simp] theorem raise_len (e : ErrorKind) : (raise e s).len = s.len := rfl
@[simp] theorem raise_keymat (e : ErrorKind) : (raise e s).keymat = s.keymat := rfl
@[simp] theorem raise_ivhex (e : ErrorKind) : (raise e s).ivhex = s.ivhex := rfl
@[simp] theorem raise_keySlots (e : ErrorKind) : (raise e s).keySlots = s.keySlots := rfl
@[simp] theorem raise_contexts (e : ErrorKind) : (raise e s).contexts = s.contexts := rfl
@[simp] theorem raise_latch (e : ErrorKind) : (raise e s).latch = none := rfl
@[simp] theorem raise_mem (e : ErrorKind) : (raise e s).mem = s.mem := rfl
@[simp] theorem raise_faultMarks (e : ErrorKind) : (raise e s).faultMarks = s.faultMarks := rfl
@[simp] theorem raise_draws (e : ErrorKind) : (raise e s).draws = s.draws := rfl
@[simp] theorem raise_events (e : ErrorKind) : (raise e s).events = s.events := rfl
@[simp] theorem raise_observed (e : ErrorKind) : (raise e s).observed = s.observed := rfl
@[simp] theorem raise_retired (e : ErrorKind) : (raise e s).retired = s.retired := rfl

@[simp] theorem finish_cfg (n : Nat) : (finish n s).cfg = s.cfg := rfl
@[simp] theorem finish_drop (n : Nat) : (finish n s).drop = s.drop := rfl
@[simp] theorem finish_err (n : Nat) : (finish n s).err = .success := rfl
@[simp] theorem finish_count (n : Nat) : (finish n s).count = BitVec.ofNat 32 n := rfl
@[simp] theorem finish_param (n : Nat) : (finish n s).param = s.param := rfl
@[simp] theorem finish_src (n : Nat) : (finish n s).src = s.src := rfl
@[simp] theorem finish_dst (n : Nat) : (finish n s).dst = s.dst := rfl
@[simp] theorem finish_len (n : Nat) : (finish n s).len = s.len := rfl
@[simp] theorem finish_keymat (n : Nat) : (finish n s).keymat = s.keymat := rfl
@[simp] theorem finish_ivhex (n : Nat) : (finish n s).ivhex = s.ivhex := rfl
@[simp] theorem finish_keySlots (n : Nat) : (finish n s).keySlots = s.keySlots := rfl
@[simp] theorem finish_contexts (n : Nat) : (finish n s).contexts = s.contexts := rfl
@[simp] theorem finish_latch (n : Nat) : (finish n s).latch = none := rfl
@[simp] theorem finish_mem (n : Nat) : (finish n s).mem = s.mem := rfl
@[simp] theorem finish_faultMarks (n : Nat) : (finish n s).faultMarks = s.faultMarks := rfl
@[simp] theorem finish_draws (n : Nat) : (finish n s).draws = s.draws := rfl
@[simp] theorem finish_events (n : Nat) : (finish n s).events = s.events := rfl
@[simp] theorem finish_observed (n : Nat) : (finish n s).observed = s.observed := rfl
@[simp] theorem finish_retired (n : Nat) : (finish n s).retired = s.retired := rfl

@[simp] theorem State.accept_cfg (w : Word) : (s.accept w).cfg = s.cfg := rfl
@[simp] theorem State.accept_drop (w : Word) : (s.accept w).drop = false := rfl
@[simp] theorem State.accept_err (w : Word) : (s.accept w).err = s.err := rfl
@[simp] theorem State.accept_count (w : Word) : (s.accept w).count = s.count := rfl
@[simp] theorem State.accept_param (w : Word) : (s.accept w).param = s.param := rfl
@[simp] theorem State.accept_src (w : Word) : (s.accept w).src = s.src := rfl
@[simp] theorem State.accept_dst (w : Word) : (s.accept w).dst = s.dst := rfl
@[simp] theorem State.accept_len (w : Word) : (s.accept w).len = s.len := rfl
@[simp] theorem State.accept_keymat (w : Word) : (s.accept w).keymat = s.keymat := rfl
@[simp] theorem State.accept_ivhex (w : Word) : (s.accept w).ivhex = s.ivhex := rfl
@[simp] theorem State.accept_keySlots (w : Word) : (s.accept w).keySlots = s.keySlots := rfl
@[simp] theorem State.accept_contexts (w : Word) : (s.accept w).contexts = s.contexts := rfl
@[simp] theorem State.accept_latch (w : Word) : (s.accept w).latch = some (s.latchFor w) := rfl
@[simp] theorem State.accept_mem (w : Word) : (s.accept w).mem = s.mem := rfl
@[simp] theorem State.accept_faultMarks (w : Word) : (s.accept w).faultMarks = s.faultMarks := rfl
@[simp] theorem State.accept_draws (w : Word) : (s.accept w).draws = s.draws := rfl
@[simp] theorem State.accept_events (w : Word) : (s.accept w).events = s.events := rfl
@[simp] theorem State.accept_observed (w : Word) : (s.accept w).observed = s.observed := rfl
@[simp] theorem State.accept_retired (w : Word) : (s.accept w).retired = s.retired := rfl

@[simp] theorem State.observe_cfg (r : Reading) : (s.observe r).cfg = s.cfg := rfl
@[simp] theorem State.observe_drop (r : Reading) : (s.observe r).drop = s.drop := rfl
@[simp] theorem State.observe_err (r : Reading) : (s.observe r).err = s.err := rfl
@[simp] theorem State.observe_count (r : Reading) : (s.observe r).count = s.count := rfl
@[simp] theorem State.observe_param (r : Reading) : (s.observe r).param = s.param := rfl
@[simp] theorem State.observe_src (r : Reading) : (s.observe r).src = s.src := rfl
@[simp] theorem State.observe_dst (r : Reading) : (s.observe r).dst = s.dst := rfl
@[simp] theorem State.observe_len (r : Reading) : (s.observe r).len = s.len := rfl
@[simp] theorem State.observe_keymat (r : Reading) : (s.observe r).keymat = s.keymat := rfl
@[simp] theorem State.observe_ivhex (r : Reading) : (s.observe r).ivhex = s.ivhex := rfl
@[simp] theorem State.observe_keySlots (r : Reading) : (s.observe r).keySlots = s.keySlots := rfl
@[simp] theorem State.observe_contexts (r : Reading) : (s.observe r).contexts = s.contexts := rfl
@[simp] theorem State.observe_latch (r : Reading) : (s.observe r).latch = s.latch := rfl
@[simp] theorem State.observe_busy (r : Reading) : (s.observe r).busy = s.busy := rfl
@[simp] theorem State.observe_mem (r : Reading) : (s.observe r).mem = s.mem := rfl
@[simp] theorem State.observe_faultMarks (r : Reading) : (s.observe r).faultMarks = s.faultMarks := rfl
@[simp] theorem State.observe_draws (r : Reading) : (s.observe r).draws = s.draws := rfl
@[simp] theorem State.observe_events (r : Reading) : (s.observe r).events = s.events := rfl
@[simp] theorem State.observe_observed (r : Reading) : (s.observe r).observed = r :: s.observed := rfl
@[simp] theorem State.observe_retired (r : Reading) : (s.observe r).retired = s.retired := rfl

@[simp] theorem State.retire_cfg (f : Footprint) : (s.retire f).cfg = s.cfg := rfl
@[simp] theorem State.retire_drop (f : Footprint) : (s.retire f).drop = s.drop := rfl
@[simp] theorem State.retire_err (f : Footprint) : (s.retire f).err = s.err := rfl
@[simp] theorem State.retire_count (f : Footprint) : (s.retire f).count = s.count := rfl
@[simp] theorem State.retire_param (f : Footprint) : (s.retire f).param = s.param := rfl
@[simp] theorem State.retire_src (f : Footprint) : (s.retire f).src = s.src := rfl
@[simp] theorem State.retire_dst (f : Footprint) : (s.retire f).dst = s.dst := rfl
@[simp] theorem State.retire_len (f : Footprint) : (s.retire f).len = s.len := rfl
@[simp] theorem State.retire_keymat (f : Footprint) : (s.retire f).keymat = s.keymat := rfl
@[simp] theorem State.retire_ivhex (f : Footprint) : (s.retire f).ivhex = s.ivhex := rfl
@[simp] theorem State.retire_keySlots (f : Footprint) : (s.retire f).keySlots = s.keySlots := rfl
@[simp] theorem State.retire_contexts (f : Footprint) : (s.retire f).contexts = s.contexts := rfl
@[simp] theorem State.retire_latch (f : Footprint) : (s.retire f).latch = s.latch := rfl
@[simp] theorem State.retire_busy (f : Footprint) : (s.retire f).busy = s.busy := rfl
@[simp] theorem State.retire_mem (f : Footprint) : (s.retire f).mem = s.mem := rfl
@[simp] theorem State.retire_faultMarks (f : Footprint) : (s.retire f).faultMarks = s.faultMarks := rfl
@[simp] theorem State.retire_draws (f : Footprint) : (s.retire f).draws = s.draws := rfl
@[simp] theorem State.retire_events (f : Footprint) : (s.retire f).events = s.events := rfl
@[simp] theorem State.retire_observed (f : Footprint) : (s.retire f).observed = s.observed := rfl
@[simp] theorem State.retire_retired (f : Footprint) :
    (s.retire f).retired = if f.isEmpty then s.retired else ⟨f, []⟩ :: s.retired := rfl

@[simp] theorem State.seeIdle_cfg (h : Nat) : (s.seeIdle h).cfg = s.cfg := rfl
@[simp] theorem State.seeIdle_drop (h : Nat) : (s.seeIdle h).drop = s.drop := rfl
@[simp] theorem State.seeIdle_err (h : Nat) : (s.seeIdle h).err = s.err := rfl
@[simp] theorem State.seeIdle_count (h : Nat) : (s.seeIdle h).count = s.count := rfl
@[simp] theorem State.seeIdle_param (h : Nat) : (s.seeIdle h).param = s.param := rfl
@[simp] theorem State.seeIdle_src (h : Nat) : (s.seeIdle h).src = s.src := rfl
@[simp] theorem State.seeIdle_dst (h : Nat) : (s.seeIdle h).dst = s.dst := rfl
@[simp] theorem State.seeIdle_len (h : Nat) : (s.seeIdle h).len = s.len := rfl
@[simp] theorem State.seeIdle_keymat (h : Nat) : (s.seeIdle h).keymat = s.keymat := rfl
@[simp] theorem State.seeIdle_ivhex (h : Nat) : (s.seeIdle h).ivhex = s.ivhex := rfl
@[simp] theorem State.seeIdle_keySlots (h : Nat) : (s.seeIdle h).keySlots = s.keySlots := rfl
@[simp] theorem State.seeIdle_contexts (h : Nat) : (s.seeIdle h).contexts = s.contexts := rfl
@[simp] theorem State.seeIdle_latch (h : Nat) : (s.seeIdle h).latch = s.latch := rfl
@[simp] theorem State.seeIdle_busy (h : Nat) : (s.seeIdle h).busy = s.busy := rfl
@[simp] theorem State.seeIdle_mem (h : Nat) : (s.seeIdle h).mem = s.mem := rfl
@[simp] theorem State.seeIdle_faultMarks (h : Nat) : (s.seeIdle h).faultMarks = s.faultMarks := rfl
@[simp] theorem State.seeIdle_draws (h : Nat) : (s.seeIdle h).draws = s.draws := rfl
@[simp] theorem State.seeIdle_events (h : Nat) : (s.seeIdle h).events = s.events := rfl
@[simp] theorem State.seeIdle_observed (h : Nat) : (s.seeIdle h).observed = s.observed := rfl
@[simp] theorem State.seeIdle_retired (h : Nat) : (s.seeIdle h).retired = s.retired.map (Retired.see h) := rfl

@[simp] theorem State.noteRead_cfg (h : Nat) (r : Reg) : (s.noteRead h r).cfg = s.cfg := rfl
@[simp] theorem State.noteRead_drop (h : Nat) (r : Reg) : (s.noteRead h r).drop = s.drop := rfl
@[simp] theorem State.noteRead_err (h : Nat) (r : Reg) : (s.noteRead h r).err = s.err := rfl
@[simp] theorem State.noteRead_count (h : Nat) (r : Reg) : (s.noteRead h r).count = s.count := rfl
@[simp] theorem State.noteRead_param (h : Nat) (r : Reg) : (s.noteRead h r).param = s.param := rfl
@[simp] theorem State.noteRead_src (h : Nat) (r : Reg) : (s.noteRead h r).src = s.src := rfl
@[simp] theorem State.noteRead_dst (h : Nat) (r : Reg) : (s.noteRead h r).dst = s.dst := rfl
@[simp] theorem State.noteRead_len (h : Nat) (r : Reg) : (s.noteRead h r).len = s.len := rfl
@[simp] theorem State.noteRead_keymat (h : Nat) (r : Reg) : (s.noteRead h r).keymat = s.keymat := rfl
@[simp] theorem State.noteRead_ivhex (h : Nat) (r : Reg) : (s.noteRead h r).ivhex = s.ivhex := rfl
@[simp] theorem State.noteRead_keySlots (h : Nat) (r : Reg) : (s.noteRead h r).keySlots = s.keySlots := rfl
@[simp] theorem State.noteRead_contexts (h : Nat) (r : Reg) : (s.noteRead h r).contexts = s.contexts := rfl
@[simp] theorem State.noteRead_latch (h : Nat) (r : Reg) : (s.noteRead h r).latch = s.latch := rfl
@[simp] theorem State.noteRead_busy (h : Nat) (r : Reg) : (s.noteRead h r).busy = s.busy := rfl
@[simp] theorem State.noteRead_mem (h : Nat) (r : Reg) : (s.noteRead h r).mem = s.mem := rfl
@[simp] theorem State.noteRead_faultMarks (h : Nat) (r : Reg) : (s.noteRead h r).faultMarks = s.faultMarks := rfl
@[simp] theorem State.noteRead_draws (h : Nat) (r : Reg) : (s.noteRead h r).draws = s.draws := rfl
@[simp] theorem State.noteRead_events (h : Nat) (r : Reg) : (s.noteRead h r).events = s.events := rfl
@[simp] theorem State.noteRead_observed (h : Nat) (r : Reg) : (s.noteRead h r).observed = s.observed := rfl
@[simp] theorem State.noteRead_retired (h : Nat) (r : Reg) :
    (s.noteRead h r).retired = if r = .status ∧ s.busy = false then s.retired.map (Retired.see h) else s.retired := rfl

end Sys2Proof.Machine
end

