-- ==== Sys2Proof/Laws/Ops.lean ====
section
/-! SUPPORT. One lemma for each shared operation of Machine/Ops.lean: everything it can do. -/

namespace Sys2Proof.Machine

/-! ### Slots and contexts -/

theorem State.slot_setSlot (s : State) (i j : Nat) (k : KeySlot) :
    (s.setSlot i k).slot j = if i = j ∧ i < 16 then k else s.slot j := by
  unfold State.slot State.setSlot
  simp only [Vector.getElem?_setIfInBounds]
  by_cases h : i = j
  · subst h
    by_cases h' : i < 16
    · simp [h']
    · simp [h']
  · simp [h]

theorem State.context_setContext (s : State) (i j : Nat) (x : Context) :
    (s.setContext i x).context j = if i = j ∧ i < 16 then x else s.context j := by
  unfold State.context State.setContext
  simp only [Vector.getElem?_setIfInBounds]
  by_cases h : i = j
  · subst h
    by_cases h' : i < 16
    · simp [h']
    · simp [h']
  · simp [h]

theorem State.context_setReg (s : State) (i j : Nat) (r : Block) :
    (s.setReg i r).context j = if i = j ∧ i < 16 then { s.context i with reg := r } else s.context j :=
  State.context_setContext ..

/-- Only a context that exists is valid. -/
theorem State.context_lt_of_valid {s : State} {j : Nat} (h : (s.context j).valid = true) : j < 16 := by
  by_contra hj
  simp [State.context, Vector.getElem?_eq_none (Nat.le_of_not_lt hj), Context.reset] at h

/-- Only a slot that exists is valid. -/
theorem State.slot_lt_of_valid {s : State} {i : Nat} (h : (s.slot i).valid = true) : i < 16 := by
  by_contra hi
  simp [State.slot, Vector.getElem?_eq_none (Nat.le_of_not_lt hi), KeySlot.reset] at h

theorem State.slot_congr {s t : State} (h : t.keySlots = s.keySlots) (i : Nat) : t.slot i = s.slot i := by
  simp [State.slot, h]

theorem State.context_congr {s t : State} (h : t.contexts = s.contexts) (j : Nat) : t.context j = s.context j := by
  simp [State.context, h]

/-- Writing the feedback register a context has changes nothing. -/
theorem State.setReg_self (s : State) (j : Nat) : s.setReg j (s.context j).reg = s := by
  have h : s.contexts.setIfInBounds j (s.context j) = s.contexts := by
    apply Vector.ext
    intro i hi
    by_cases hj : j = i
    · subst hj
      simp [State.context, hi]
    · rw [Vector.getElem_setIfInBounds hi, if_neg hj]
  show { s with contexts := s.contexts.setIfInBounds j { s.context j with reg := (s.context j).reg } } = s
  rw [show ({ s.context j with reg := (s.context j).reg } : Context) = s.context j from rfl, h]

/-- The last value written to a feedback register stays. -/
theorem State.setReg_setReg (s : State) (j : Nat) (r r' : Block) : (s.setReg j r).setReg j r' = s.setReg j r' := by
  unfold State.setReg State.setContext
  congr 1
  apply Vector.ext
  intro i hi
  simp only [State.context, Vector.getElem_setIfInBounds hi]
  by_cases h : j = i
  · subst h; simp [hi]
  · simp [h]

/-- Memory and feedback registers are apart. -/
theorem State.setMem_setReg (s : State) (j : Nat) (r : Block) (m : Memory) :
    (s.setReg j r).setMem m = (s.setMem m).setReg j r := rfl

@[simp] theorem State.slot_setMem (s : State) (m : Memory) (i : Nat) : (s.setMem m).slot i = s.slot i := rfl
@[simp] theorem State.context_setMem (s : State) (m : Memory) (j : Nat) : (s.setMem m).context j = s.context j := rfl
@[simp] theorem slot_finish (n : Nat) (s : State) (i : Nat) : (finish n s).slot i = s.slot i := rfl
@[simp] theorem context_finish (n : Nat) (s : State) (j : Nat) : (finish n s).context j = s.context j := rfl
@[simp] theorem slot_raise (e : ErrorKind) (s : State) (i : Nat) : (raise e s).slot i = s.slot i := rfl
@[simp] theorem context_raise (e : ErrorKind) (s : State) (j : Nat) : (raise e s).context j = s.context j := rfl

/-- What a written feedback register leaves of the contexts depends on the contexts alone. -/
theorem State.setReg_contexts_congr {s t : State} (j : Nat) (r : Block) (h : s.contexts = t.contexts) :
    (s.setReg j r).contexts = (t.setReg j r).contexts := by
  simp only [State.setReg, State.setContext, State.context, h]

/-- The handle check either passes, and then gives the two entries, or gives BadCipherState. -/
theorem checkHandles_cases (ksel csel : Nat) (s : State) :
    (HandlesReady s ksel csel ∧ checkHandles ksel csel s = .ok (s.slot ksel, s.context csel)) ∨
    (¬ HandlesReady s ksel csel ∧ checkHandles ksel csel s = .error .badCipherState) := by
  unfold checkHandles
  cases h1 : s.keyPresent ksel <;> cases h2 : (s.slot ksel).valid <;> cases h3 : s.ctxPresent csel <;>
    cases h4 : (s.context csel).valid <;> simp
  all_goals first
    | exact ⟨h1, h2, h3, h4⟩
    | (rintro ⟨g1, g2, g3, g4⟩; simp_all)

theorem checkHandles_ready {ksel csel : Nat} {s : State} (h : HandlesReady s ksel csel) :
    checkHandles ksel csel s = .ok (s.slot ksel, s.context csel) := by
  rcases checkHandles_cases ksel csel s with ⟨-, h'⟩ | ⟨hn, -⟩
  · exact h'
  · exact absurd h hn

/-! ### Admission -/

theorem Span.contains_iff {r : Span} {a : Nat} : r.contains a = true ↔ r.base ≤ a ∧ a < r.base + r.len := by
  simp [Span.contains]

/-- A range is admitted exactly when each of its bytes is. -/
theorem Span.admitted_iff {c : Config} {kind : AccessKind} {r : Span} :
    r.admitted c kind = true ↔ ∀ a, r.contains a = true → Machine.admitted c kind a = true := by
  simp only [Span.admitted, List.all_eq_true, List.mem_range, Span.contains_iff]
  constructor
  · intro h a ha
    have := h (a - r.base) (by omega)
    rwa [show r.base + (a - r.base) = a by omega] at this
  · intro h j hj
    exact h _ ⟨by omega, by omega⟩

/-- A footprint is admitted exactly when each byte read or written is. -/
theorem Footprint.admitted_iff {c : Config} {f : Footprint} :
    f.admitted c = true ↔ ∀ a, (f.reads.contains a = true → Machine.admitted c .read a = true) ∧
      (f.writes.contains a = true → Machine.admitted c .write a = true) := by
  simp only [Footprint.admitted, Bool.and_eq_true, Span.admitted_iff]
  constructor
  · intro h a; exact ⟨h.1 a, h.2 a⟩
  · intro h; exact ⟨fun a => (h a).1, fun a => (h a).2⟩

@[simp] theorem Span.not_contains_none (a : Nat) : Span.none.contains a = false := by
  simp [Span.contains, Span.none]

@[simp] theorem Footprint.admitted_none (c : Config) : Footprint.none.admitted c = true := by
  rw [Footprint.admitted_iff]
  intro a
  simp [Footprint.none]

theorem isSystemAddr_of_admitted {c : Config} {kind : AccessKind} {a : Nat} (h : admitted c kind a = true) :
    isSystemAddr c a = true := by
  simp only [admitted, Bool.and_eq_true] at h
  exact h.1

/-- Two ranges meet exactly when they share a byte. -/
theorem Span.meets_iff {r q : Span} : r.meets q = true ↔ ∃ a, r.contains a = true ∧ q.contains a = true := by
  simp only [Span.meets, Span.contains_iff, Bool.and_eq_true, decide_eq_true_eq]
  constructor
  · rintro ⟨⟨⟨h1, h2⟩, h3⟩, h4⟩
    exact ⟨max r.base q.base, by omega, by omega⟩
  · rintro ⟨a, h1, h2⟩
    omega

/-! ### Completion -/

/-- A committed effect is its state, if every access is admitted. -/
theorem Effect.commit_next {c : Config} {e : Effect} {t : State} (h : e.commit c = .next t) :
    e.fp.admitted c = true ∧ t = e.after := by
  unfold Effect.commit at h
  split at h
  · next h' => exact ⟨h', by injection h with h; exact h.symm⟩
  · cases h

theorem Effect.commit_of_admitted {c : Config} {e : Effect} (h : e.fp.admitted c = true) :
    e.commit c = .next e.after := by simp [Effect.commit, h]

@[simp] theorem Effect.commit_stop (c : Config) (t : State) : (Effect.stop t).commit c = .next t := by
  simp [Effect.stop, Effect.commit]

/-- A command on the latched record answers a next state only if there is a record. -/
theorem withLatch_next {s t : State} {f : Latch → Host.Outcome State Fault Refusal} (h : withLatch s f = .next t) :
    ∃ L, s.latch = some L ∧ f L = .next t := by
  unfold withLatch at h
  split at h
  · cases h
  · next L hL => exact ⟨L, hL, h⟩

theorem withLatch_some {s : State} {L : Latch} (h : s.latch = some L)
    (f : Latch → Host.Outcome State Fault Refusal) : withLatch s f = f L := by simp [withLatch, h]

theorem raise_sameRegisters (e : ErrorKind) (s : State) : SameRegisters s (raise e s) := by constructor <;> rfl

theorem finish_sameRegisters (n : Nat) (s : State) : SameRegisters s (finish n s) := by constructor <;> rfl

end Sys2Proof.Machine
end

