-- ==== Sys2Proof/Laws/Datapath.lean ====
section
/-! SUPPORT. The block loop: what it leaves alone, what each of its blocks is, and how it splits. -/

namespace Sys2Proof.Machine

theorem Memory.wf_writeBlock (a : Nat) (B : Block) {m : Memory} (hm : m.wf = true) : (m.writeBlock a B).wf = true :=
  Memory.wf_writeBytes _ _ hm

theorem Memory.read_writeBlock_outside (a b : Nat) (B : Block) {m : Memory} (hm : m.wf = true)
    (h : b < a ∨ a + 16 ≤ b) : (m.writeBlock a B).read b = m.read b :=
  Memory.read_writeBytes_outside _ _ _ hm (by simpa using h)

theorem Memory.read_writeBlock_inside (a j : Nat) (B : Block) {m : Memory} (hm : m.wf = true) (h : j < 16) :
    (m.writeBlock a B).read (a + j) = Block.byte B j := by
  rw [Memory.writeBlock, Memory.read_writeBytes_inside _ _ _ hm (by simpa using h), Block.getElem_toBytes]

/-- A Block written reads back. -/
theorem Memory.readBlock_writeBlock (a : Nat) (B : Block) {m : Memory} (hm : m.wf = true) :
    (m.writeBlock a B).readBlock a = B := by
  apply Block.ext_byte
  intro j hj
  rw [Memory.readBlock, Block.byte_ofBytes _ (by simp) j (by simpa using hj), Memory.getElem_readBytes,
    Memory.read_writeBlock_inside a j B hm hj]

/-- Memories that agree on 16 bytes read the same Block. -/
theorem Memory.readBlock_congr {m m' : Memory} {a a' : Nat} (h : ∀ j, j < 16 → m.read (a + j) = m'.read (a' + j)) :
    m.readBlock a = m'.readBlock a' := by
  rw [Memory.readBlock, Memory.readBlock, Memory.readBytes_congr h]

/-- Byte `j` of a Block read. -/
theorem Memory.byte_readBlock (m : Memory) (a j : Nat) (h : j < 16) :
    Block.byte (m.readBlock a) j = m.read (a + j) := by
  rw [Memory.readBlock, Block.byte_ofBytes _ (by simp) j (by simpa using h), Memory.getElem_readBytes]

variable (f : Block → Block → Block × Block) (src dst : Nat) (c : Chain)

theorem runBlocks_succ (n : Nat) : runBlocks f src dst c (n + 1) =
    stepBlock f (src + 16 * n) (dst + 16 * n) (runBlocks f src dst c n) := rfl

theorem stepBlock_reg : (stepBlock f src dst c).reg = (f c.reg (c.mem.readBlock src)).1 := rfl

theorem stepBlock_mem :
    (stepBlock f src dst c).mem = c.mem.writeBlock dst (f c.reg (c.mem.readBlock src)).2 := rfl

/-- The loop keeps the canonical form. -/
theorem runBlocks_wf (h : c.mem.wf = true) (n : Nat) : (runBlocks f src dst c n).mem.wf = true := by
  induction n with
  | zero => exact h
  | succ n ih =>
    rw [runBlocks_succ, stepBlock_mem]
    exact Memory.wf_writeBlock _ _ ih

/-- The loop writes only its output range. -/
theorem runBlocks_outside (h : c.mem.wf = true) (n a : Nat) (ha : a < dst ∨ dst + 16 * n ≤ a) :
    (runBlocks f src dst c n).mem.read a = c.mem.read a := by
  induction n with
  | zero => rfl
  | succ n ih =>
    rw [runBlocks_succ, stepBlock_mem,
      Memory.read_writeBlock_outside _ _ _ (runBlocks_wf f src dst c h n) (by omega)]
    exact ih (by omega)

/-- The loop lists no address outside its output range. -/
theorem runBlocks_mem_addr (n : Nat) {x : Host.Cell} (h : x ∈ (runBlocks f src dst c n).mem) :
    (dst ≤ x.1 ∧ x.1 < dst + 16 * n) ∨ x ∈ c.mem := by
  induction n with
  | zero => exact .inr h
  | succ n ih =>
    rcases Memory.mem_writeBytes h with h | h
    · simp only [Block.length_toBytes] at h
      exact .inl ⟨by omega, by omega⟩
    · rcases ih h with h | h
      · exact .inl ⟨h.1, by omega⟩
      · exact .inr h

/-- An output block stays as it was written. -/
theorem runBlocks_block (h : c.mem.wf = true) (n i : Nat) (hi : i < n) :
    (runBlocks f src dst c n).mem.readBlock (dst + 16 * i) =
      (f (runBlocks f src dst c i).reg ((runBlocks f src dst c i).mem.readBlock (src + 16 * i))).2 := by
  induction n with
  | zero => omega
  | succ n ih =>
    rw [runBlocks_succ, stepBlock_mem]
    by_cases hn : i = n
    · subst hn
      exact Memory.readBlock_writeBlock _ _ (runBlocks_wf f src dst c h i)
    · rw [← ih (by omega)]
      apply Memory.readBlock_congr
      intro j hj
      exact Memory.read_writeBlock_outside _ _ _ (runBlocks_wf f src dst c h n) (by omega)

/-- With buffers that are disjoint or the same, an input byte not yet reached is as it was before the command. -/
theorem runBlocks_input (h : c.mem.wf = true) (n j srcLen : Nat) (hj : 16 * n ≤ j) (hl : j < srcLen)
    {dstLen : Nat} (hd : 16 * n ≤ dstLen) (hs : DisjointOrSame src srcLen dst dstLen) :
    (runBlocks f src dst c n).mem.read (src + j) = c.mem.read (src + j) := by
  apply runBlocks_outside f src dst c h
  rcases hs with hs | hs | hs <;> omega

/-- With buffers that are disjoint or the same, the input block the loop reads next is the one there before the
command. -/
theorem runBlocks_next_input (h : c.mem.wf = true) (n srcLen dstLen : Nat) (hl : 16 * (n + 1) ≤ srcLen)
    (hd : 16 * n ≤ dstLen) (hs : DisjointOrSame src srcLen dst dstLen) :
    (runBlocks f src dst c n).mem.readBlock (src + 16 * n) = c.mem.readBlock (src + 16 * n) := by
  apply Memory.readBlock_congr
  intro j hj
  have := runBlocks_input f src dst c h n (16 * n + j) srcLen (by omega) (by omega) hd hs
  rwa [← Nat.add_assoc] at this

/-- The loop over `a + b` blocks is the loop over `a`, then the loop over the other `b`. -/
theorem runBlocks_add (a b : Nat) : runBlocks f src dst c (a + b) =
    runBlocks f (src + 16 * a) (dst + 16 * a) (runBlocks f src dst c a) b := by
  induction b with
  | zero => rfl
  | succ b ih =>
    rw [← Nat.add_assoc, runBlocks_succ, runBlocks_succ, ih]
    congr 1 <;> omega

/-! ### CFB1, bit by bit -/

theorem cfb1EncBits_succ (F : Block → Block) (reg P : Block) (n : Nat) :
    cfb1EncBits F reg P (n + 1) =
      (Block.shiftInBit (cfb1EncBits F reg P n).1
        (Block.bitAt (cfb1EncBits F reg P n).2 n ^^ Block.peekTop (F (cfb1EncBits F reg P n).1)),
       Block.setBit (cfb1EncBits F reg P n).2 n
        (Block.bitAt (cfb1EncBits F reg P n).2 n ^^ Block.peekTop (F (cfb1EncBits F reg P n).1))) := rfl

theorem cfb1DecBits_succ (F : Block → Block) (reg C : Block) (n : Nat) :
    cfb1DecBits F reg C (n + 1) =
      (Block.shiftInBit (cfb1DecBits F reg C n).1 (Block.bitAt C n),
       Block.setBit (cfb1DecBits F reg C n).2 n
        (Block.bitAt C n ^^ Block.peekTop (F (cfb1DecBits F reg C n).1))) := rfl

/-- Encryption: bits from `n` on are still the plaintext's after `n` steps. -/
theorem cfb1EncBits_later (F : Block → Block) (reg P : Block) (n k : Nat) (hn : n ≤ k) (hk : k < 128) :
    Block.bitAt (cfb1EncBits F reg P n).2 k = Block.bitAt P k := by
  induction n with
  | zero => rfl
  | succ n ih =>
    rw [cfb1EncBits_succ, Block.bitAt_setBit _ _ _ _ (by omega) hk, if_neg (by omega)]
    exact ih (by omega)

/-- Encryption: a bit that is out stays. -/
theorem cfb1EncBits_earlier (F : Block → Block) (reg P : Block) (n m k : Nat) (hk : k < n) (hnm : n ≤ m)
    (hm : m ≤ 128) : Block.bitAt (cfb1EncBits F reg P m).2 k = Block.bitAt (cfb1EncBits F reg P n).2 k := by
  induction m with
  | zero => omega
  | succ m ih =>
    by_cases h : n = m + 1
    · rw [h]
    · rw [cfb1EncBits_succ, Block.bitAt_setBit _ _ _ _ (by omega) (by omega), if_neg (by omega)]
      exact ih (by omega) (by omega)

/-- Decryption: a bit that is out stays. -/
theorem cfb1DecBits_earlier (F : Block → Block) (reg C : Block) (n m k : Nat) (hk : k < n) (hnm : n ≤ m)
    (hm : m ≤ 128) : Block.bitAt (cfb1DecBits F reg C m).2 k = Block.bitAt (cfb1DecBits F reg C n).2 k := by
  induction m with
  | zero => omega
  | succ m ih =>
    by_cases h : n = m + 1
    · rw [h]
    · rw [cfb1DecBits_succ, Block.bitAt_setBit _ _ _ _ (by omega) (by omega), if_neg (by omega)]
      exact ih (by omega) (by omega)

/-- The feedback register after `n` steps of decryption: the old bits from `n` on, then the first `n` input bits. -/
theorem cfb1DecBits_reg (F : Block → Block) (reg C : Block) (n k : Nat) (hn : n ≤ 128) (hk : k < 128) :
    Block.bitAt (cfb1DecBits F reg C n).1 k = if k + n < 128 then Block.bitAt reg (k + n) else Block.bitAt C (k + n - 128) := by
  induction n generalizing k with
  | zero => rw [if_pos (by omega)]; rfl
  | succ n ih =>
    rw [cfb1DecBits_succ, Block.bitAt_shiftInBit _ _ _ hk]
    by_cases h : k = 127
    · rw [if_pos h, if_neg (by omega), show k + (n + 1) - 128 = n by omega]
    · rw [if_neg h, ih (k + 1) (by omega) (by omega), show k + 1 + n = k + (n + 1) by omega]

/-- The feedback register after `n` steps of encryption: the old bits from `n` on, then the first `n` output bits. -/
theorem cfb1EncBits_reg (F : Block → Block) (reg P : Block) (n k : Nat) (hn : n ≤ 128) (hk : k < 128) :
    Block.bitAt (cfb1EncBits F reg P n).1 k =
      if k + n < 128 then Block.bitAt reg (k + n) else Block.bitAt (cfb1EncBits F reg P n).2 (k + n - 128) := by
  induction n generalizing k with
  | zero => rw [if_pos (by omega)]; rfl
  | succ n ih =>
    rw [cfb1EncBits_succ, Block.bitAt_shiftInBit _ _ _ hk]
    by_cases h : k = 127
    · subst h
      rw [if_pos rfl, if_neg (by omega), show 127 + (n + 1) - 128 = n by omega,
        Block.bitAt_setBit _ _ _ _ (by omega) (by omega), if_pos rfl]
    · rw [if_neg h, ih (k + 1) (by omega) (by omega), show k + 1 + n = k + (n + 1) by omega]
      by_cases h2 : k + (n + 1) < 128
      · rw [if_pos h2, if_pos h2]
      · rw [if_neg h2, if_neg h2, Block.bitAt_setBit _ _ _ _ (by omega) (by omega), if_neg (by omega)]

/-! ### Decryption undoes encryption -/

/-- One block: decryption under the schedules of the same raw key gives the plaintext back and leaves the same feedback
register (00_scope.md R22, R23). CFB1 needs the round counts only. -/
theorem decBlock_encBlock (p : Primitive) (raw : Bytes) (ks : KeySize) (d : Direction) (m : Mode) (reg P : Block)
    (hrc : p.RoundCounts) (hinv : m ≠ .cfb1 → p.Inverts) (hl : raw.length = ks.bytes)
    (hd : d = .decrypt ∨ m = .cfb1) :
    decBlock p (makeSlot p raw ks d) m reg (encBlock p (makeSlot p raw ks .encrypt) m reg P).2 =
      ((encBlock p (makeSlot p raw ks .encrypt) m reg P).1, P) := by
  by_cases hm : m = .cfb1
  · subst hm
    simp only [decBlock, encBlock, makeSlot]
    rw [hrc, hrc]
    generalize p.fwd (p.keyExpand raw ks .encrypt).1 ks.rounds = F
    have hreg : ∀ n, n ≤ 128 →
        (cfb1DecBits F reg (cfb1EncBits F reg P 128).2 n).1 = (cfb1EncBits F reg P n).1 := by
      intro n hn
      apply Block.ext_bitAt
      intro k hk
      rw [cfb1DecBits_reg _ _ _ _ _ hn hk, cfb1EncBits_reg _ _ _ _ _ hn hk]
      split
      · rfl
      · exact cfb1EncBits_earlier _ _ _ n 128 (k + n - 128) (by omega) (by omega) (by omega)
    apply Prod.ext
    · exact hreg 128 (by omega)
    · apply Block.ext_bitAt
      intro k hk
      show Block.bitAt (cfb1DecBits F reg (cfb1EncBits F reg P 128).2 128).2 k = Block.bitAt P k
      rw [cfb1DecBits_earlier _ _ _ (k + 1) 128 k (by omega) (by omega) (by omega), cfb1DecBits_succ]
      simp only
      rw [Block.bitAt_setBit _ _ _ _ hk hk, if_pos rfl, hreg k (by omega),
        cfb1EncBits_earlier _ _ _ (k + 1) 128 k (by omega) (by omega) (by omega), cfb1EncBits_succ]
      simp only
      rw [Block.bitAt_setBit _ _ _ _ hk hk, if_pos rfl, cfb1EncBits_later _ _ _ k k (by omega) hk]
      cases Block.bitAt P k <;> cases Block.peekTop _ <;> rfl
  · have hi : ∀ x, p.inv (p.keyExpand raw ks .decrypt).1 (p.keyExpand raw ks .decrypt).2
        (p.fwd (p.keyExpand raw ks .encrypt).1 (p.keyExpand raw ks .encrypt).2 x) = x := by
      intro x
      have h := hinv hm raw ks x hl
      rw [hrc raw ks .encrypt] at *
      rw [hrc raw ks .decrypt]
      exact h
    have hd : d = .decrypt := hd.resolve_right hm
    subst hd
    cases m with
    | ecb => simp only [decBlock, encBlock, makeSlot, hi]
    | cbc =>
      simp only [decBlock, encBlock, makeSlot, hi]
      simp
    | cfb1 => exact absurd rfl hm

/-- The loop: if `g` undoes `f` block by block, running `g` over the blocks `f` wrote gives the input of `f` back and
the same feedback register, for buffers that are disjoint or the same. -/
theorem runBlocks_inverse {f g : Block → Block → Block × Block} (hfg : ∀ r P, g r (f r P).2 = ((f r P).1, P))
    (src dst out : Nat) {m M : Memory} (reg : Block) (hm : m.wf = true) (hM : M.wf = true) (N A B : Nat)
    (hA : 16 * N ≤ A) (hB : 16 * N ≤ B) (h1 : DisjointOrSame src A dst B) (h2 : DisjointOrSame dst B out B)
    (hMm : ∀ j, j < 16 * N → M.read (dst + j) = (runBlocks f src dst ⟨m, reg⟩ N).mem.read (dst + j)) (n : Nat)
    (hn : n ≤ N) :
    (runBlocks g dst out ⟨M, reg⟩ n).reg = (runBlocks f src dst ⟨m, reg⟩ n).reg ∧
    ∀ i, i < n → (runBlocks g dst out ⟨M, reg⟩ n).mem.readBlock (out + 16 * i) = m.readBlock (src + 16 * i) := by
  induction n with
  | zero => exact ⟨rfl, fun i hi => by omega⟩
  | succ n ih =>
    obtain ⟨ih1, ih2⟩ := ih (by omega)
    have hin : (runBlocks g dst out ⟨M, reg⟩ n).mem.readBlock (dst + 16 * n) =
        (f (runBlocks f src dst ⟨m, reg⟩ n).reg (m.readBlock (src + 16 * n))).2 := by
      rw [runBlocks_next_input g dst out ⟨M, reg⟩ hM n B B (by omega) (by omega) h2]
      have e : M.readBlock (dst + 16 * n) = (runBlocks f src dst ⟨m, reg⟩ N).mem.readBlock (dst + 16 * n) := by
        apply Memory.readBlock_congr
        intro j hj
        rw [Nat.add_assoc]
        exact hMm _ (by omega)
      show M.readBlock _ = _
      rw [e, runBlocks_block f src dst ⟨m, reg⟩ hm N n (by omega),
        runBlocks_next_input f src dst ⟨m, reg⟩ hm n A B (by omega) (by omega) h1]
    rw [runBlocks_succ, runBlocks_succ, stepBlock_reg, stepBlock_reg, hin, ih1, hfg]
    constructor
    · rw [runBlocks_next_input f src dst ⟨m, reg⟩ hm n A B (by omega) (by omega) h1]
    · intro i hi
      rw [stepBlock_mem, hin, ih1, hfg]
      by_cases hh : i = n
      · subst hh
        exact Memory.readBlock_writeBlock _ _ (runBlocks_wf g dst out ⟨M, reg⟩ hM i)
      · rw [← ih2 i (by omega)]
        apply Memory.readBlock_congr
        intro j hj
        exact Memory.read_writeBlock_outside _ _ _ (runBlocks_wf g dst out ⟨M, reg⟩ hM n) (by omega)

end Sys2Proof.Machine
end

