-- ==== Sys2Proof/Laws/Decode.lean ====
section
/-! SUPPORT. The decoder, case by case (30_encoding.md R113, R114). -/

namespace Sys2Proof

/-- OPC names one of the six commands (30_encoding.md R114). -/
def legalOpc (w : Word) : Prop := 1 ≤ (fieldOpc w).toNat ∧ (fieldOpc w).toNat ≤ 6

/-- Which command a word spells, by its OPC (30_encoding.md R113, R114). -/
theorem decode_cases (w : Word) :
    (fieldOpc w = 1 ∧ decode w = .ok (.makekey (fieldKsel w) (fieldKmp w))) ∨
    (fieldOpc w = 2 ∧ decode w = .ok (.cipherinit (fieldCsel w) (fieldIvp w))) ∨
    (fieldOpc w = 3 ∧ decode w = .ok (.blkenc (fieldKsel w) (fieldCsel w))) ∨
    (fieldOpc w = 4 ∧ decode w = .ok (.blkdec (fieldKsel w) (fieldCsel w))) ∨
    (fieldOpc w = 5 ∧ decode w = .ok (.padenc (fieldKsel w) (fieldCsel w))) ∨
    (fieldOpc w = 6 ∧ decode w = .ok (.paddec (fieldKsel w) (fieldCsel w))) ∨
    (¬ legalOpc w ∧ decode w = .error (.illegalOpcode (fieldOpc w))) := by
  unfold decode legalOpc
  by_cases h1 : fieldOpc w = 1
  · simp [h1]
  by_cases h2 : fieldOpc w = 2
  · simp [h2]
  by_cases h3 : fieldOpc w = 3
  · simp [h3]
  by_cases h4 : fieldOpc w = 4
  · simp [h4]
  by_cases h5 : fieldOpc w = 5
  · simp [h5]
  by_cases h6 : fieldOpc w = 6
  · simp [h6]
  refine .inr (.inr (.inr (.inr (.inr (.inr ⟨by bv_omega, ?_⟩)))))
  simp only [if_neg h1, if_neg h2, if_neg h3, if_neg h4, if_neg h5, if_neg h6]

theorem selectorOk_field (w : Word) (a : Nat) : selectorOk (w.extractLsb' a 4).toNat = true := by
  simp only [selectorOk, decide_eq_true_eq]
  exact (w.extractLsb' a 4).isLt

/-- Two words with the same OPC and the same fields spell the same command. -/
theorem decode_congr {w v : Word} (h : fieldOpc w = fieldOpc v) (hk : fieldKsel w = fieldKsel v)
    (hc : fieldCsel w = fieldCsel v) (hm : fieldKmp w = fieldKmp v) (hi : fieldIvp w = fieldIvp v) :
    decode w = decode v := by
  unfold decode
  rw [h, hk, hc, hm, hi]

end Sys2Proof
end

