-- ==== Sys2Proof/Laws/Exec.lean ====
section
/-! SUPPORT. One inversion lemma for each command, and what every data command's effect has in common. -/

namespace Sys2Proof.Machine

/-! ### Inversion: which of its cases a command is in -/

theorem blkencWith_cases (p : Primitive) (ksel csel : Nat) (L : Latch) (s : State) :
    (¬ HandlesReady s ksel csel ∧ blkencWith p ksel csel L s = .stop (raise .badCipherState s)) ∨
    (HandlesReady s ksel csel ∧ (s.slot ksel).dir ≠ .encrypt ∧
      blkencWith p ksel csel L s = .stop (raise .badCipherState s)) ∨
    (HandlesReady s ksel csel ∧ (s.slot ksel).dir = .encrypt ∧ L.length ≤ 0 ∧
      blkencWith p ksel csel L s = .stop (finish 0 s)) ∨
    (HandlesReady s ksel csel ∧ (s.slot ksel).dir = .encrypt ∧ 0 < L.length ∧
      blkencWith p ksel csel L s =
        runBlk (encBlock p (s.slot ksel) (s.context csel).mode) csel (s.context csel).reg L s) := by
  unfold blkencWith
  rcases checkHandles_cases ksel csel s with ⟨h, h'⟩ | ⟨h, h'⟩
  · simp only [h']
    by_cases hd : (s.slot ksel).dir = .encrypt
    · by_cases hl : L.length ≤ 0
      · simp [hd, hl, h]
      · simp [hd, hl, h]; omega
    · simp [hd, h]
  · simp [h, h']

theorem blkdecWith_cases (p : Primitive) (ksel csel : Nat) (L : Latch) (s : State) :
    (¬ HandlesReady s ksel csel ∧ blkdecWith p ksel csel L s = .stop (raise .badCipherState s)) ∨
    (HandlesReady s ksel csel ∧ ((s.context csel).mode ≠ .cfb1 ∧ (s.slot ksel).dir ≠ .decrypt) ∧
      blkdecWith p ksel csel L s = .stop (raise .badCipherState s)) ∨
    (HandlesReady s ksel csel ∧ ¬ ((s.context csel).mode ≠ .cfb1 ∧ (s.slot ksel).dir ≠ .decrypt) ∧ L.length ≤ 0 ∧
      blkdecWith p ksel csel L s = .stop (finish 0 s)) ∨
    (HandlesReady s ksel csel ∧ ¬ ((s.context csel).mode ≠ .cfb1 ∧ (s.slot ksel).dir ≠ .decrypt) ∧ 0 < L.length ∧
      blkdecWith p ksel csel L s =
        runBlk (decBlock p (s.slot ksel) (s.context csel).mode) csel (s.context csel).reg L s) := by
  unfold blkdecWith
  rcases checkHandles_cases ksel csel s with ⟨h, h'⟩ | ⟨h, h'⟩
  · simp only [h']
    by_cases hd : (s.context csel).mode ≠ .cfb1 ∧ (s.slot ksel).dir ≠ .decrypt
    · rw [if_pos hd]; exact .inr (.inl ⟨h, hd, rfl⟩)
    · rw [if_neg hd]
      by_cases hl : L.length ≤ 0
      · rw [if_pos hl]; exact .inr (.inr (.inl ⟨h, hd, hl, rfl⟩))
      · rw [if_neg hl]; exact .inr (.inr (.inr ⟨h, hd, by omega, rfl⟩))
  · simp [h, h']

theorem padencWith_cases (p : Primitive) (ksel csel : Nat) (L : Latch) (s : State) :
    (¬ HandlesReady s ksel csel ∧ padencWith p ksel csel L s = .stop (raise .badCipherState s)) ∨
    (HandlesReady s ksel csel ∧ (s.slot ksel).dir ≠ .encrypt ∧
      padencWith p ksel csel L s = .stop (raise .badCipherState s)) ∨
    (HandlesReady s ksel csel ∧ (s.slot ksel).dir = .encrypt ∧ L.length ≤ 0 ∧
      padencWith p ksel csel L s = .stop (finish 0 s)) ∨
    (HandlesReady s ksel csel ∧ (s.slot ksel).dir = .encrypt ∧ 0 < L.length ∧ (s.context csel).mode = .cfb1 ∧
      padencWith p ksel csel L s = .stop (raise .badCipherState s)) ∨
    (HandlesReady s ksel csel ∧ (s.slot ksel).dir = .encrypt ∧ 0 < L.length ∧ (s.context csel).mode ≠ .cfb1 ∧
      padencWith p ksel csel L s =
        runPadenc (encBlock p (s.slot ksel) (s.context csel).mode) csel (s.context csel).reg L s) := by
  unfold padencWith
  rcases checkHandles_cases ksel csel s with ⟨h, h'⟩ | ⟨h, h'⟩
  · simp only [h']
    by_cases hd : (s.slot ksel).dir = .encrypt
    · by_cases hl : L.length ≤ 0
      · simp [hd, hl, h]
      · have hl' : 0 < L.length := by omega
        by_cases hm : (s.context csel).mode = .cfb1 <;> simp [hd, hl, hl', hm, h]
    · simp [hd, h]
  · simp [h, h']

theorem paddecWith_cases (p : Primitive) (ksel csel : Nat) (L : Latch) (s : State) :
    (¬ HandlesReady s ksel csel ∧ paddecWith p ksel csel L s = .stop (raise .badCipherState s)) ∨
    (HandlesReady s ksel csel ∧ (s.slot ksel).dir ≠ .decrypt ∧
      paddecWith p ksel csel L s = .stop (raise .badCipherState s)) ∨
    (HandlesReady s ksel csel ∧ (s.slot ksel).dir = .decrypt ∧ L.length ≤ 0 ∧
      paddecWith p ksel csel L s = .stop (finish 0 s)) ∨
    (HandlesReady s ksel csel ∧ (s.slot ksel).dir = .decrypt ∧ 0 < L.length ∧ L.length % 16 ≠ 0 ∧
      paddecWith p ksel csel L s = .stop (raise .badData s)) ∨
    (HandlesReady s ksel csel ∧ (s.slot ksel).dir = .decrypt ∧ 0 < L.length ∧ L.length % 16 = 0 ∧
      (s.context csel).mode = .cfb1 ∧ paddecWith p ksel csel L s = .stop (raise .badCipherState s)) ∨
    (HandlesReady s ksel csel ∧ (s.slot ksel).dir = .decrypt ∧ 0 < L.length ∧ L.length % 16 = 0 ∧
      (s.context csel).mode ≠ .cfb1 ∧ paddecWith p ksel csel L s =
        runPaddec p (s.slot ksel) (s.context csel).mode csel (s.context csel).reg L s) := by
  unfold paddecWith
  rcases checkHandles_cases ksel csel s with ⟨h, h'⟩ | ⟨h, h'⟩
  · simp only [h']
    by_cases hd : (s.slot ksel).dir = .decrypt
    · by_cases hl : L.length ≤ 0
      · simp [hd, hl, h]
      · have hl' : 0 < L.length := by omega
        by_cases ha : L.length % 16 = 0
        · by_cases hm : (s.context csel).mode = .cfb1 <;> simp [hd, hl, hl', ha, hm, h]
        · simp [hd, hl, hl', ha, h]
    · simp [hd, h]
  · simp [h, h']

/-! ### What the effects of the data commands have in common -/

/-- The effect of a data command on context `csel`, from state `s`. -/
structure DataEffect (csel : Nat) (s : State) (e : Effect) : Prop where
  same : SameRegisters s e.after
  latch : e.after.latch = none
  slots : e.after.keySlots = s.keySlots
  contexts : ∃ r, e.after.contexts = (s.setReg csel r).contexts
  outside : s.mem.wf = true → ∀ a, e.fp.writes.contains a = false → e.after.mem.read a = s.mem.read a
  memForm : s.mem.wf = true → e.after.mem.wf = true
  listed : e.fp.admitted s.cfg = true → ∀ x ∈ e.after.mem, isSystemAddr s.cfg x.1 = true ∨ x ∈ s.mem
  errorCount : e.after.err ≠ .success → e.after.count = 0
  countBound : e.after.count.toNat ≤ 2 ^ 31

theorem DataEffect.stop_raise (csel : Nat) (s : State) (e : ErrorKind) : DataEffect csel s (.stop (raise e s)) where
  same := raise_sameRegisters e s
  latch := rfl
  slots := rfl
  contexts := ⟨(s.context csel).reg, by rw [State.setReg_self]; rfl⟩
  outside := fun _ _ _ => rfl
  memForm := id
  listed := fun _ _ h => .inr h
  errorCount := fun _ => rfl
  countBound := by simp [Effect.stop]

theorem DataEffect.stop_finish (csel : Nat) (s : State) : DataEffect csel s (.stop (finish 0 s)) where
  same := finish_sameRegisters 0 s
  latch := rfl
  slots := rfl
  contexts := ⟨(s.context csel).reg, by rw [State.setReg_self]; rfl⟩
  outside := fun _ _ _ => rfl
  memForm := id
  listed := fun _ _ h => .inr h
  errorCount := fun h => absurd rfl h
  countBound := by simp [Effect.stop]

/-- A latched length is below 2^31 (10_state.md R38). -/
theorem Latch.length_lt (L : Latch) : L.length.toNat < 2 ^ 31 := by
  have := BitVec.toInt_lt (x := L.len)
  unfold Latch.length
  omega

theorem Span.not_contains_iff {base len a : Nat} :
    Span.contains ⟨base, len⟩ a = false ↔ a < base ∨ base + len ≤ a := by
  simp only [Span.contains, Bool.and_eq_false_iff, decide_eq_false_iff_not]
  omega

/-- What an effect needs of the memory it leaves: it differs from the old one only in the write range, stays canonical,
and lists only what was listed, what is written, or bytes of system memory. -/
structure WritesWithin (s : State) (fp : Footprint) (m : Memory) : Prop where
  outside : s.mem.wf = true → ∀ a, fp.writes.contains a = false → m.read a = s.mem.read a
  memForm : s.mem.wf = true → m.wf = true
  listed : ∀ x ∈ m, fp.writes.contains x.1 = true ∨ isSystemAddr s.cfg x.1 = true ∨ x ∈ s.mem

theorem WritesWithin.listed_of_admitted {s : State} {fp : Footprint} {m : Memory} (h : WritesWithin s fp m)
    (ha : fp.admitted s.cfg = true) : ∀ x ∈ m, isSystemAddr s.cfg x.1 = true ∨ x ∈ s.mem := by
  intro x hx
  rcases h.listed x hx with h | h
  · exact .inl (isSystemAddr_of_admitted ((Footprint.admitted_iff.mp ha x.1).2 h))
  · exact h

/-- An effect that writes memory and a feedback register and finishes. -/
theorem DataEffect.of_finish {csel : Nat} {s : State} {fp : Footprint} {m : Memory} (r : Block) {n : Nat}
    (hn : n ≤ 2 ^ 31) (h : WritesWithin s fp m) :
    DataEffect csel s ⟨fp, finish n ((s.setMem m).setReg csel r)⟩ where
  same := ⟨rfl, rfl, rfl, rfl, rfl, rfl, rfl, rfl, rfl, rfl, rfl, rfl⟩
  latch := rfl
  slots := rfl
  contexts := ⟨r, rfl⟩
  outside := h.outside
  memForm := h.memForm
  listed := h.listed_of_admitted
  errorCount := fun h => absurd rfl h
  countBound := by
    show (BitVec.ofNat 32 n).toNat ≤ 2 ^ 31
    rw [BitVec.toNat_ofNat]
    omega

theorem runBlk_eq (f : Block → Block → Block × Block) (csel : Nat) (reg : Block) (L : Latch) (s : State) :
    runBlk f csel reg L s =
      ⟨⟨⟨L.srcAddr, 16 * blockCount L⟩, ⟨L.dstAddr, 16 * blockCount L⟩⟩,
        finish (128 * blockCount L)
          ((s.setMem (runBlocks f L.srcAddr L.dstAddr ⟨s.mem, reg⟩ (blockCount L)).mem).setReg csel
            (runBlocks f L.srcAddr L.dstAddr ⟨s.mem, reg⟩ (blockCount L)).reg)⟩ := rfl

/-- Processing of BLKENC and BLKDEC. -/
theorem runBlk_dataEffect (f : Block → Block → Block × Block) (csel : Nat) (reg : Block) (L : Latch) (s : State) :
    DataEffect csel s (runBlk f csel reg L s) := by
  have hlt := L.length_lt
  rw [runBlk_eq]
  refine .of_finish _ (by unfold blockCount; omega) ⟨fun hm a ha => ?_, fun hm => ?_, fun x hx => ?_⟩
  · exact runBlocks_outside f _ _ _ hm _ _ (Span.not_contains_iff.mp ha)
  · exact runBlocks_wf f _ _ _ hm _
  · rcases runBlocks_mem_addr f _ _ _ _ hx with h | h
    · exact .inl (Span.contains_iff.mpr h)
    · exact .inr (.inr h)

/-- The final block of PADENC: the remaining input bytes and the padding, after the full blocks (42_padded.md R224). -/
def finalBlock (f : Block → Block → Block × Block) (reg : Block) (L : Latch) (s : State) : Block :=
  padBlock ((runBlocks f L.srcAddr L.dstAddr ⟨s.mem, reg⟩ (L.length.toNat / 16)).mem.readBytes
    (L.srcAddr + 16 * (L.length.toNat / 16)) (L.length.toNat - 16 * (L.length.toNat / 16))) (padLength L.length.toNat)

theorem runPadenc_eq (f : Block → Block → Block × Block) (csel : Nat) (reg : Block) (L : Latch) (s : State) :
    runPadenc f csel reg L s =
      ⟨⟨⟨L.srcAddr, L.length.toNat⟩, ⟨L.dstAddr, 16 * (L.length.toNat / 16 + 1)⟩⟩,
        finish (16 * (L.length.toNat / 16 + 1))
          ((s.setMem ((runBlocks f L.srcAddr L.dstAddr ⟨s.mem, reg⟩ (L.length.toNat / 16)).mem.writeBlock
            (L.dstAddr + 16 * (L.length.toNat / 16))
            (f (runBlocks f L.srcAddr L.dstAddr ⟨s.mem, reg⟩ (L.length.toNat / 16)).reg (finalBlock f reg L s)).2)).setReg
            csel (f (runBlocks f L.srcAddr L.dstAddr ⟨s.mem, reg⟩ (L.length.toNat / 16)).reg (finalBlock f reg L s)).1)⟩ :=
  rfl

/-- The memory a PADENC leaves. -/
theorem runPadenc_mem (f : Block → Block → Block × Block) (csel : Nat) (reg : Block) (L : Latch) (s : State) :
    (runPadenc f csel reg L s).after.mem =
      (runBlocks f L.srcAddr L.dstAddr ⟨s.mem, reg⟩ (L.length.toNat / 16)).mem.writeBlock
        (L.dstAddr + 16 * (L.length.toNat / 16))
        (f (runBlocks f L.srcAddr L.dstAddr ⟨s.mem, reg⟩ (L.length.toNat / 16)).reg (finalBlock f reg L s)).2 := by
  rw [runPadenc_eq]
  simp only [finish_mem, State.setReg_mem, State.setMem_mem]

/-- The feedback register a PADENC leaves. -/
theorem runPadenc_reg (f : Block → Block → Block × Block) (csel : Nat) (reg : Block) (L : Latch) (s : State)
    (h : csel < 16) : (runPadenc f csel reg L s).after.context csel = { s.context csel with
      reg := (f (runBlocks f L.srcAddr L.dstAddr ⟨s.mem, reg⟩ (L.length.toNat / 16)).reg (finalBlock f reg L s)).1 } := by
  rw [runPadenc_eq, context_finish, State.context_setReg, if_pos ⟨rfl, h⟩, State.context_setMem]

/-- Processing of PADENC. -/
theorem runPadenc_dataEffect (f : Block → Block → Block × Block) (csel : Nat) (reg : Block) (L : Latch) (s : State) :
    DataEffect csel s (runPadenc f csel reg L s) := by
  have hlt := L.length_lt
  rw [runPadenc_eq]
  refine .of_finish _ (by omega) ⟨fun hm a ha => ?_, fun hm => ?_, fun x hx => ?_⟩
  · have ha : a < L.dstAddr ∨ L.dstAddr + 16 * (L.length.toNat / 16 + 1) ≤ a := Span.not_contains_iff.mp ha
    rw [Memory.read_writeBlock_outside _ _ _ (runBlocks_wf f _ _ _ hm _) (by omega)]
    exact runBlocks_outside f _ _ _ hm _ _ (by omega)
  · exact Memory.wf_writeBlock _ _ (runBlocks_wf f _ _ _ hm _)
  · rcases Memory.mem_writeBytes hx with h | h
    · rw [Block.length_toBytes] at h
      exact .inl (Span.contains_iff.mpr (show L.dstAddr ≤ x.1 ∧ x.1 < L.dstAddr + 16 * (L.length.toNat / 16 + 1) by omega))
    · rcases runBlocks_mem_addr f _ _ _ _ h with h | h
      · exact .inl (Span.contains_iff.mpr (show L.dstAddr ≤ x.1 ∧ x.1 < L.dstAddr + 16 * (L.length.toNat / 16 + 1) by omega))
      · exact .inr (.inr h)

/-- A padding failure. -/
theorem padFailure_dataEffect (m : Mode) (csel : Nat) (reg : Block) (nb : Nat) (L : Latch) (s : State) :
    DataEffect csel s (padFailure m csel reg nb L s) where
  same := ⟨rfl, rfl, rfl, rfl, rfl, rfl, rfl, rfl, rfl, rfl, rfl, rfl⟩
  latch := rfl
  slots := rfl
  contexts := ⟨chainedReg m reg (Config.freeBlock s.draws), rfl⟩
  outside := by
    intro hm a ha
    have ha := Span.not_contains_iff.mp ha
    show (s.mem.drawBytes s.cfg L.dstAddr s.draws (16 * (nb - 1))).read a = _
    rw [Memory.read_drawBytes _ _ _ _ _ hm, if_neg (by omega)]
  memForm := fun hm => Memory.wf_drawBytes _ _ _ _ hm
  listed := fun _ x hx => Memory.mem_drawBytes hx
  errorCount := fun _ => rfl
  countBound := by
    show (0 : Word).toNat ≤ 2 ^ 31
    simp

/-- An accepted last byte is at most 16 (42_padded.md R233). -/
theorem padOk_le {rule : EcbPadRule} {m : Mode} {Q : Block} (h : padOk rule m Q = true) :
    (Block.byte Q 15).toNat ≤ 16 := by
  simp only [padOk, Bool.and_eq_true] at h
  have hb := h.1
  unfold boundOk at hb
  split at hb <;> simp at hb <;> omega

/-- The chain after all blocks but the last of a PADDEC (42_padded.md R230). -/
def paddecChain (p : Primitive) (k : KeySlot) (m : Mode) (reg : Block) (L : Latch) (s : State) : Chain :=
  runBlocks (decBlock p k m) L.srcAddr L.dstAddr ⟨s.mem, reg⟩ (L.length.toNat / 16 - 1)

/-- The last ciphertext block of a PADDEC. -/
def paddecLastInput (p : Primitive) (k : KeySlot) (m : Mode) (reg : Block) (L : Latch) (s : State) : Block :=
  (paddecChain p k m reg L s).mem.readBlock (L.srcAddr + 16 * (L.length.toNat / 16 - 1))

/-- The last decrypted block of a PADDEC, `Q` of 42_padded.md R230. -/
def paddecLast (p : Primitive) (k : KeySlot) (m : Mode) (reg : Block) (L : Latch) (s : State) : Block :=
  (decBlock p k m (paddecChain p k m reg L s).reg (paddecLastInput p k m reg L s)).2

theorem runPaddec_eq (p : Primitive) (k : KeySlot) (m : Mode) (csel : Nat) (reg : Block) (L : Latch) (s : State) :
    runPaddec p k m csel reg L s =
      if padOk s.cfg.ecbPadRule m (paddecLast p k m reg L s) then
        ⟨⟨⟨L.srcAddr, 16 * (L.length.toNat / 16)⟩,
            ⟨L.dstAddr, 16 * (L.length.toNat / 16) - (Block.byte (paddecLast p k m reg L s) 15).toNat⟩⟩,
          finish (16 * (L.length.toNat / 16) - (Block.byte (paddecLast p k m reg L s) 15).toNat)
            ((s.setMem ((paddecChain p k m reg L s).mem.writeBytes (L.dstAddr + 16 * (L.length.toNat / 16 - 1))
              ((Block.toBytes (paddecLast p k m reg L s)).take
                (16 - (Block.byte (paddecLast p k m reg L s) 15).toNat)))).setReg csel
              (chainedReg m (paddecChain p k m reg L s).reg (paddecLastInput p k m reg L s)))⟩
      else padFailure m csel reg (L.length.toNat / 16) L s := rfl

/-- Processing of PADDEC. -/
theorem runPaddec_dataEffect (p : Primitive) (k : KeySlot) (m : Mode) (csel : Nat) (reg : Block) (L : Latch)
    (s : State) (hn : 0 < L.length.toNat / 16) : DataEffect csel s (runPaddec p k m csel reg L s) := by
  have hlt := L.length_lt
  rw [runPaddec_eq]
  split
  · next hp =>
    have hp16 := padOk_le hp
    generalize (Block.byte (paddecLast p k m reg L s) 15).toNat = padLen at hp16 ⊢
    have hwf (hm : s.mem.wf = true) : (paddecChain p k m reg L s).mem.wf = true :=
      runBlocks_wf (decBlock p k m) L.srcAddr L.dstAddr ⟨s.mem, reg⟩ hm _
    refine .of_finish _ (by omega) ⟨fun hm a ha => ?_, fun hm => ?_, fun x hx => ?_⟩
    · have ha : a < L.dstAddr ∨ L.dstAddr + (16 * (L.length.toNat / 16) - padLen) ≤ a := Span.not_contains_iff.mp ha
      rw [Memory.read_writeBytes_outside _ _ _ (hwf hm)
        (by simp only [List.length_take, Block.length_toBytes]; omega)]
      exact runBlocks_outside (decBlock p k m) L.srcAddr L.dstAddr ⟨s.mem, reg⟩ hm _ _ (by omega)
    · exact Memory.wf_writeBytes _ _ (hwf hm)
    · rcases Memory.mem_writeBytes hx with h | h
      · simp only [List.length_take, Block.length_toBytes] at h
        exact .inl (Span.contains_iff.mpr (show L.dstAddr ≤ x.1 ∧
          x.1 < L.dstAddr + (16 * (L.length.toNat / 16) - padLen) by omega))
      · rcases runBlocks_mem_addr (decBlock p k m) L.srcAddr L.dstAddr ⟨s.mem, reg⟩ _ h with h | h
        · exact .inl (Span.contains_iff.mpr (show L.dstAddr ≤ x.1 ∧
            x.1 < L.dstAddr + (16 * (L.length.toNat / 16) - padLen) by omega))
        · exact .inr (.inr h)
  · exact padFailure_dataEffect ..

theorem blkencWith_dataEffect (p : Primitive) (ksel csel : Nat) (L : Latch) (s : State) :
    DataEffect csel s (blkencWith p ksel csel L s) := by
  rcases blkencWith_cases p ksel csel L s with ⟨-, h⟩ | ⟨-, -, h⟩ | ⟨-, -, -, h⟩ | ⟨-, -, -, h⟩ <;> rw [h]
  · exact .stop_raise ..
  · exact .stop_raise ..
  · exact .stop_finish ..
  · exact runBlk_dataEffect ..

theorem blkdecWith_dataEffect (p : Primitive) (ksel csel : Nat) (L : Latch) (s : State) :
    DataEffect csel s (blkdecWith p ksel csel L s) := by
  rcases blkdecWith_cases p ksel csel L s with ⟨-, h⟩ | ⟨-, -, h⟩ | ⟨-, -, -, h⟩ | ⟨-, -, -, h⟩ <;> rw [h]
  · exact .stop_raise ..
  · exact .stop_raise ..
  · exact .stop_finish ..
  · exact runBlk_dataEffect ..

theorem padencWith_dataEffect (p : Primitive) (ksel csel : Nat) (L : Latch) (s : State) :
    DataEffect csel s (padencWith p ksel csel L s) := by
  rcases padencWith_cases p ksel csel L s with
    ⟨-, h⟩ | ⟨-, -, h⟩ | ⟨-, -, -, h⟩ | ⟨-, -, -, -, h⟩ | ⟨-, -, -, -, h⟩ <;> rw [h]
  · exact .stop_raise ..
  · exact .stop_raise ..
  · exact .stop_finish ..
  · exact .stop_raise ..
  · exact runPadenc_dataEffect ..

theorem paddecWith_dataEffect (p : Primitive) (ksel csel : Nat) (L : Latch) (s : State) :
    DataEffect csel s (paddecWith p ksel csel L s) := by
  rcases paddecWith_cases p ksel csel L s with
    ⟨-, h⟩ | ⟨-, -, h⟩ | ⟨-, -, -, h⟩ | ⟨-, -, -, -, h⟩ | ⟨-, -, -, -, -, h⟩ | ⟨-, -, h1, h2, -, h⟩ <;> rw [h]
  · exact .stop_raise ..
  · exact .stop_raise ..
  · exact .stop_finish ..
  · exact .stop_raise ..
  · exact .stop_raise ..
  · exact runPaddec_dataEffect _ _ _ _ _ _ _ (by omega)

/-! ### exec as a whole -/

/-- The effect of a data command, and the context it names. -/
def dataEffectOf (i : Instr) (L : Latch) (s : State) : Option (Nat × Effect) :=
  match i with
  | .makekey _ _ => none
  | .cipherinit _ _ => none
  | .blkenc ksel csel => some (csel, blkencWith Config.primitive ksel csel L s)
  | .blkdec ksel csel => some (csel, blkdecWith Config.primitive ksel csel L s)
  | .padenc ksel csel => some (csel, padencWith Config.primitive ksel csel L s)
  | .paddec ksel csel => some (csel, paddecWith Config.primitive ksel csel L s)

/-- What `exec` answers on a latched record. -/
theorem exec_of_latch {s : State} {L : Latch} (h : s.latch = some L) (i : Instr) :
    exec i s =
      match i with
      | .makekey ksel kmp => .next (makekeyWith Config.primitive ksel kmp L s)
      | .cipherinit csel ivp => .next (cipherinitWith csel ivp L s)
      | .blkenc ksel csel => (blkencWith Config.primitive ksel csel L s).commit s.cfg
      | .blkdec ksel csel => (blkdecWith Config.primitive ksel csel L s).commit s.cfg
      | .padenc ksel csel => (padencWith Config.primitive ksel csel L s).commit s.cfg
      | .paddec ksel csel => (paddecWith Config.primitive ksel csel L s).commit s.cfg := by
  cases i <;> exact withLatch_some h _

/-- `exec` answers a next state only on a latched record. -/
theorem exec_next_latch {s t : State} {i : Instr} (h : exec i s = .next t) : ∃ L, s.latch = some L := by
  cases i <;> obtain ⟨L, hL, -⟩ := withLatch_next h <;> exact ⟨L, hL⟩

/-- `exec` of a data command is its effect, committed. -/
theorem exec_data {s : State} {L : Latch} {i : Instr} {csel : Nat} {e : Effect} (h : s.latch = some L)
    (hi : dataEffectOf i L s = some (csel, e)) : exec i s = e.commit s.cfg := by
  rw [exec_of_latch h]
  cases i <;> simp [dataEffectOf] at hi ⊢ <;> rw [← hi.2]

theorem commandFootprint_data {s : State} {L : Latch} {i : Instr} {csel : Nat} {e : Effect}
    (hi : dataEffectOf i L s = some (csel, e)) : commandFootprint i L s = e.fp := by
  cases i <;> simp [dataEffectOf, commandFootprint] at hi ⊢ <;> rw [← hi.2]

theorem dataEffectOf_dataEffect {s : State} {L : Latch} {i : Instr} {csel : Nat} {e : Effect}
    (hi : dataEffectOf i L s = some (csel, e)) : DataEffect csel s e := by
  cases i <;> simp only [dataEffectOf, Option.some.injEq, Prod.mk.injEq, reduceCtorEq] at hi
  · obtain ⟨rfl, rfl⟩ := hi; exact blkencWith_dataEffect ..
  · obtain ⟨rfl, rfl⟩ := hi; exact blkdecWith_dataEffect ..
  · obtain ⟨rfl, rfl⟩ := hi; exact padencWith_dataEffect ..
  · obtain ⟨rfl, rfl⟩ := hi; exact paddecWith_dataEffect ..

/-! ### The setup commands -/

/-- MAKEKEY either reports an error or builds the slot of some raw key of the slot's length. -/
theorem makekeyWith_cases (p : Primitive) (ksel : Nat) (kmp : Bool) (L : Latch) (s : State) :
    (∃ e, makekeyWith p ksel kmp L s = raise e s) ∨
    ∃ d ks raw, s.keyPresent ksel = true ∧ hexDecode L.keymat.toList ks.bytes = some raw ∧
      makekeyWith p ksel kmp L s = finish 0 (s.setSlot ksel (makeSlot p raw ks d)) := by
  unfold makekeyWith
  cases h : makekeySlot p ksel kmp L s with
  | error e => exact .inl ⟨e, rfl⟩
  | ok k =>
    right
    unfold makekeySlot at h
    split at h
    · cases h
    next hk =>
      split at h
      · cases h
      next d hd =>
        split at h
        · cases h
        next ks hks =>
          split at h
          · cases h
          · split at h
            · cases h
            next raw hraw =>
              injection h with h
              exact ⟨d, ks, raw, by simpa using hk, hraw, by rw [← h]⟩

/-- CIPHERINIT either reports an error or sets a valid context. -/
theorem cipherinitWith_cases (csel : Nat) (ivp : Bool) (L : Latch) (s : State) :
    (∃ e, cipherinitWith csel ivp L s = raise e s) ∨
    ∃ m iv, s.ctxPresent csel = true ∧ cipherinitWith csel ivp L s = finish 0 (s.setContext csel ⟨true, m, iv⟩) := by
  unfold cipherinitWith
  cases h : cipherinitContext csel ivp L s with
  | error e => exact .inl ⟨e, rfl⟩
  | ok x =>
    right
    unfold cipherinitContext at h
    split at h
    · cases h
    next hc =>
      split at h
      · cases h
      next m hm =>
        split at h
        · cases h
        next iv hiv =>
          injection h with h
          exact ⟨m, iv, by simpa using hc, by rw [← h]⟩

/-- Decoding `n` bytes gives `n` bytes (40_setup.md R142). -/
theorem hexDecode_length {chars : Bytes} {n : Nat} {out : Bytes} (h : hexDecode chars n = some out) :
    out.length = n := by
  induction n generalizing chars out with
  | zero => cases chars <;> simp [hexDecode] at h <;> simp [h]
  | succ n ih =>
    match chars, h with
    | [], h => simp [hexDecode] at h
    | [_], h => simp [hexDecode] at h
    | a :: b :: rest, h =>
      unfold hexDecode at h
      split at h
      next hv lv o h1 h2 h3 =>
        injection h with h
        rw [← h, List.length_cons, ih h3]
      · cases h

end Sys2Proof.Machine
end

