-- ==== Sys2Proof/Laws/PerInstr.lean ====
section
/-! SUPPORT. For each command: what its encoded word carries (30_encoding.md R110, R113, R115). -/

namespace Sys2Proof

theorem toNat_append {m n : Nat} (x : BitVec m) (y : BitVec n) : (x ++ y).toNat = x.toNat * 2 ^ n + y.toNat := by
  rw [BitVec.toNat_append, ← Nat.shiftLeft_add_eq_or_of_lt y.isLt, Nat.shiftLeft_eq]

/-- The value of a word put together from its fields. -/
theorem toNat_packWord (opc : BitVec 8) (ksel csel : Nat) (kmp ivp : Bool) :
    (packWord opc ksel csel kmp ivp).toNat =
      opc.toNat + 256 * (ksel % 16) + 4096 * (csel % 16) + 65536 * kmp.toNat + 131072 * ivp.toNat := by
  show (BitVec.ofNat 14 0 ++ BitVec.ofBool ivp ++ BitVec.ofBool kmp ++ BitVec.ofNat 4 csel ++ BitVec.ofNat 4 ksel ++
    opc).toNat = _
  simp only [toNat_append, BitVec.toNat_ofNat, BitVec.toNat_ofBool]
  omega

theorem fieldOpc_packWord (opc : BitVec 8) (ksel csel : Nat) (kmp ivp : Bool) :
    fieldOpc (packWord opc ksel csel kmp ivp) = opc := by
  apply BitVec.eq_of_toNat_eq
  have := opc.isLt
  rw [fieldOpc, BitVec.extractLsb'_toNat, toNat_packWord]
  omega

theorem fieldKsel_packWord (opc : BitVec 8) (ksel csel : Nat) (kmp ivp : Bool) :
    fieldKsel (packWord opc ksel csel kmp ivp) = ksel % 16 := by
  have := opc.isLt
  have := kmp.toNat_lt
  have := ivp.toNat_lt
  rw [fieldKsel, BitVec.extractLsb'_toNat, toNat_packWord, Nat.shiftRight_eq_div_pow]
  omega

theorem fieldCsel_packWord (opc : BitVec 8) (ksel csel : Nat) (kmp ivp : Bool) :
    fieldCsel (packWord opc ksel csel kmp ivp) = csel % 16 := by
  have := opc.isLt
  have := kmp.toNat_lt
  have := ivp.toNat_lt
  rw [fieldCsel, BitVec.extractLsb'_toNat, toNat_packWord, Nat.shiftRight_eq_div_pow]
  omega

theorem fieldKmp_packWord (opc : BitVec 8) (ksel csel : Nat) (kmp ivp : Bool) :
    fieldKmp (packWord opc ksel csel kmp ivp) = kmp := by
  have := opc.isLt
  rw [fieldKmp, BitVec.getLsbD, toNat_packWord, Nat.testBit_eq_decide_div_mod_eq]
  cases kmp <;> cases ivp <;> simp <;> omega

theorem fieldIvp_packWord (opc : BitVec 8) (ksel csel : Nat) (kmp ivp : Bool) :
    fieldIvp (packWord opc ksel csel kmp ivp) = ivp := by
  have := opc.isLt
  rw [fieldIvp, BitVec.getLsbD, toNat_packWord, Nat.testBit_eq_decide_div_mod_eq]
  cases kmp <;> cases ivp <;> simp <;> omega

/-- The reserved bits of a word put together from its fields. -/
theorem packWord_reserved (opc : BitVec 8) (ksel csel : Nat) (kmp ivp : Bool) :
    (packWord opc ksel csel kmp ivp).extractLsb' 18 14 = 0 := by
  apply BitVec.eq_of_toNat_eq
  have := opc.isLt
  have := kmp.toNat_lt
  have := ivp.toNat_lt
  rw [BitVec.extractLsb'_toNat, toNat_packWord, Nat.shiftRight_eq_div_pow]
  simp
  omega

end Sys2Proof

namespace Sys2Proof.Laws.EncodeLayout

/-- The command's word carries its opcode, and its reserved bits are 0. -/
def Statement (i : Instr) : Prop :=
  fieldOpc (encode i) =
    (match i with
      | .makekey _ _ => 0x01
      | .cipherinit _ _ => 0x02
      | .blkenc _ _ => 0x03
      | .blkdec _ _ => 0x04
      | .padenc _ _ => 0x05
      | .paddec _ _ => 0x06) ∧
  (encode i).extractLsb' 18 14 = 0

theorem makekey (ksel : Nat) (kmp : Bool) : Statement (.makekey ksel kmp) := by
  simp [Statement, encode, fieldOpc_packWord, packWord_reserved]

theorem cipherinit (csel : Nat) (ivp : Bool) : Statement (.cipherinit csel ivp) := by
  simp [Statement, encode, fieldOpc_packWord, packWord_reserved]

theorem blkenc (ksel csel : Nat) : Statement (.blkenc ksel csel) := by
  simp [Statement, encode, fieldOpc_packWord, packWord_reserved]

theorem blkdec (ksel csel : Nat) : Statement (.blkdec ksel csel) := by
  simp [Statement, encode, fieldOpc_packWord, packWord_reserved]

theorem padenc (ksel csel : Nat) : Statement (.padenc ksel csel) := by
  simp [Statement, encode, fieldOpc_packWord, packWord_reserved]

theorem paddec (ksel csel : Nat) : Statement (.paddec ksel csel) := by
  simp [Statement, encode, fieldOpc_packWord, packWord_reserved]

end Sys2Proof.Laws.EncodeLayout
end

