-- ==== Sys2Proof/Laws/Step.lean ====
section
/-! SUPPORT. Inversion of the machine's step: what a step can do, said once, and which step each event takes. -/

namespace Sys2Proof.Machine

/-! ### The engine's turn -/

/-- A turn of the engine changes nothing, completes an illegal command, or runs the latched one (10_state.md R57). -/
theorem engineTurn_cases {s t : State} (h : engineTurn s = .next t) :
    t = s ∨ (∃ L e, s.latch = some L ∧ decode L.cmd = .error e ∧ t = runIllegal s) ∨
      ∃ L i u, s.latch = some L ∧ decode L.cmd = .ok i ∧ exec i s = .next u ∧ t = u.retire (commandFootprint i L s) := by
  unfold engineTurn at h
  split at h
  · injection h with h; exact .inl h.symm
  · next L hL =>
    split at h
    · next e he => injection h with h; exact .inr (.inl ⟨L, e, hL, he, h.symm⟩)
    · next i hi =>
      split at h
      · next t' ht' => injection h with h; exact .inr (.inr ⟨L, i, t', hL, hi, ht', h.symm⟩)
      · injection h with h; exact .inl h.symm
      · cases h
      · cases h

/-- The turn of an engine with a command that `exec` completes. -/
theorem engineTurn_next {s t : State} {L : Latch} {i : Instr} (hl : s.latch = some L) (hd : decode L.cmd = .ok i)
    (ht : exec i s = .next t) : engineTurn s = .next (t.retire (commandFootprint i L s)) := by
  unfold engineTurn
  split
  · next h => rw [hl] at h; cases h
  · next L' h =>
    rw [hl] at h; injection h with h; subst h
    split
    · next h => rw [hd] at h; cases h
    · next j h =>
      rw [hd] at h; injection h with h; subst h
      rw [ht]

/-- The turn of an engine with a command that has an access not admitted (20_memory.md R83). -/
theorem engineTurn_stuck {s : State} {L : Latch} {i : Instr} (hl : s.latch = some L) (hd : decode L.cmd = .ok i)
    (ht : exec i s = .fault .notAdmitted) : engineTurn s = .next s := by
  unfold engineTurn
  split
  · rfl
  · next L' h =>
    rw [hl] at h; injection h with h; subst h
    split
    · next h => rw [hd] at h; cases h
    · next j h =>
      rw [hd] at h; injection h with h; subst h
      rw [ht]

/-- The turn of an engine with an illegal command (60_exceptions.md R265). -/
theorem engineTurn_illegal {s : State} {L : Latch} {e : Reject} (hl : s.latch = some L)
    (hd : decode L.cmd = .error e) : engineTurn s = .next (runIllegal s) := by
  unfold engineTurn
  split
  · next h => rw [hl] at h; cases h
  · next L' h =>
    rw [hl] at h; injection h with h; subst h
    rw [hd]

/-- The turn of an idle engine. -/
theorem engineTurn_idle {s : State} (hl : s.latch = none) : engineTurn s = .next s := by
  simp [engineTurn, hl]

/-! ### The bytes of the running command -/

/-- The bytes a command accesses do not depend on what is still to happen. -/
theorem commandFootprint_withEvents (i : Instr) (L : Latch) (s : State) (es : List Event) :
    commandFootprint i L { s with events := es } = commandFootprint i L s := by
  have hc (ksel csel : Nat) : checkHandles ksel csel { s with events := es } = checkHandles ksel csel s := rfl
  cases i with
  | makekey ksel kmp => rfl
  | cipherinit csel ivp => rfl
  | blkenc ksel csel =>
    unfold commandFootprint blkencWith
    simp only [hc]
    split
    · rfl
    · split
      · rfl
      · split <;> rfl
  | blkdec ksel csel =>
    unfold commandFootprint blkdecWith
    simp only [hc]
    split
    · rfl
    · split
      · rfl
      · split <;> rfl
  | padenc ksel csel =>
    unfold commandFootprint padencWith
    simp only [hc]
    split
    · rfl
    · split
      · rfl
      · split
        · rfl
        · split <;> rfl
  | paddec ksel csel =>
    unfold commandFootprint paddecWith
    simp only [hc]
    split
    · rfl
    · split
      · rfl
      · split
        · rfl
        · split
          · rfl
          · split
            · rfl
            · rw [runPaddec_eq, runPaddec_eq]
              split <;> split <;> first | rfl | contradiction

/-- The bytes of the running command are those its own rule gives. -/
theorem runningFootprint_of_latch {s : State} {L : Latch} {i : Instr} (hl : s.latch = some L)
    (hd : decode L.cmd = .ok i) : runningFootprint s = commandFootprint i L s := by
  simp [runningFootprint, hl, hd]

/-- The bytes of the running command do not depend on what is still to happen. -/
theorem runningFootprint_withEvents (s : State) (es : List Event) :
    runningFootprint { s with events := es } = runningFootprint s := by
  unfold runningFootprint
  simp only [commandFootprint_withEvents]

/-- The access shares a byte with what a command accesses. -/
theorem Footprint.meets_iff {f : Footprint} {r : Span} : f.meets r = true ↔
    ∃ a, r.contains a = true ∧ (f.reads.contains a = true ∨ f.writes.contains a = true) := by
  simp only [Footprint.meets, Bool.or_eq_true, Span.meets_iff]
  constructor
  · rintro (⟨a, h1, h2⟩ | ⟨a, h1, h2⟩)
    · exact ⟨a, h2, .inl h1⟩
    · exact ⟨a, h2, .inr h1⟩
  · rintro ⟨a, h2, h1 | h1⟩
    · exact .inl ⟨a, h1, h2⟩
    · exact .inr ⟨a, h1, h2⟩

/-- A host's access races exactly when it shares a byte with the running command (20_memory.md R92) or with one whose end
the host has not observed (70_reset_and_hazards.md R296). -/
theorem races_iff {s : State} {host : Nat} {r : Span} : races s host r = true ↔
    (runningFootprint s).meets r = true ∨ ∃ p ∈ s.retired, host ∉ p.seenBy ∧ p.fp.meets r = true := by
  simp only [races, Bool.or_eq_true, List.any_eq_true, Bool.and_eq_true, decide_eq_true_eq]

/-! ### What a host has observed (70_reset_and_hazards.md R296) -/

@[simp] theorem Retired.see_fp (host : Nat) (p : Retired) : (p.see host).fp = p.fp := by
  unfold Retired.see
  split <;> rfl

/-- Observing BUSY = 0 adds the host to those that have, and no other. -/
@[simp] theorem Retired.mem_see {h host : Nat} {p : Retired} :
    h ∈ (p.see host).seenBy ↔ h = host ∨ h ∈ p.seenBy := by
  unfold Retired.see
  split
  · next hm => exact ⟨.inr, fun hh => hh.elim (fun e => e ▸ hm) id⟩
  · exact List.mem_cons

/-- A command without accesses leaves nothing to observe. -/
theorem State.retire_isEmpty (s : State) {f : Footprint} (h : f.isEmpty = true) : s.retire f = s := by
  unfold State.retire
  rw [if_pos h]

/-- A host's read of a register lets it observe BUSY = 0 where it reads STATUS of an idle engine, and else leaves what the
hosts have observed. -/
theorem State.noteRead_eq (s : State) (host : Nat) (r : Reg) :
    s.noteRead host r = if r = .status ∧ s.busy = false then s.seeIdle host else s := by
  by_cases h : r = .status ∧ s.busy = false <;> simp [State.noteRead, State.seeIdle, h]

/-! ### Which step an event takes -/

theorem step_nil {s : State} (hf : s.faultMarks = []) (he : s.events = []) : step s = engineTurn s := by
  simp [step, runStep, hf, runNext, he]

theorem step_cons {s : State} {e : Event} {rest : List Event} (hf : s.faultMarks = []) (he : s.events = e :: rest) :
    step s = runEvent e { s with events := rest } := by
  unfold step runStep
  split
  · unfold runNext
    split
    · next h => rw [he] at h; cases h
    · next h => rw [he] at h; injection h with h1 h2; rw [h1, h2]
  · next h => rw [hf] at h; cases h

theorem step_marked {s : State} {f : FaultMark} {fs : List FaultMark} (hf : s.faultMarks = f :: fs) :
    step s = .fault .bufferRace := by
  simp [step, runStep, hf]

/-- Only a state without a fault mark has a step (20_memory.md R92). -/
theorem step_next_unmarked {s t : State} (h : step s = .next t) : s.faultMarks = [] := by
  match hf : s.faultMarks with
  | [] => rfl
  | f :: fs => rw [step_marked hf] at h; cases h

theorem State.withEvents_self (s : State) : { s with events := s.events } = s := rfl

@[simp] theorem State.busy_withEvents (s : State) (es : List Event) : ({ s with events := es } : State).busy = s.busy := rfl

/-! ### Inversion -/

/-- What a host's access to memory leaves (20_memory.md R92). -/
theorem hostMemAccess_cases {host : Nat} {r : Span} {f : State → State} {s t : State}
    (h : hostMemAccess host r f s = .next t) :
    (∀ a, r.contains a = true → isSystemAddr s.cfg a = true) ∧
      ((races s host r = true ∧ t = s.mark .bufferRace) ∨ (races s host r = false ∧ t = f s)) := by
  unfold hostMemAccess at h
  split at h
  · cases h
  next hw =>
    split at h
    · cases h
    next ha =>
      have hsys : ∀ a, r.contains a = true → isSystemAddr s.cfg a = true := by
        intro a hc
        rw [Span.contains_iff] at hc
        simp only [List.any_eq_true, List.mem_range, not_exists, not_and] at hw
        have := hw (a - r.base) (by omega)
        rw [show r.base + (a - r.base) = a by omega] at this
        simp only [isSystemAddr, Bool.and_eq_true, decide_eq_true_eq]
        exact ⟨by omega, by simpa using this⟩
      refine ⟨hsys, ?_⟩
      split at h
      · next hr => injection h with h; exact .inl ⟨hr, h.symm⟩
      · next hr => injection h with h; exact .inr ⟨by simpa using hr, h.symm⟩

/-- A host's access to bytes of system memory that does not race has its effect. -/
theorem hostMemAccess_next {host : Nat} {r : Span} (f : State → State) {s : State}
    (hs : ∀ a, r.contains a = true → isSystemAddr s.cfg a = true) (hr : races s host r = false) :
    hostMemAccess host r f s = .next (f s) := by
  have hin : ∀ j, j < r.len → isSystemAddr s.cfg (r.base + j) = true :=
    fun j hj => hs _ (Span.contains_iff.mpr ⟨by omega, by omega⟩)
  unfold hostMemAccess
  rw [if_neg, if_neg, if_neg (by simp [hr])]
  · rintro ⟨h1, h2⟩
    have := hin (r.len - 1) (by omega)
    simp only [isSystemAddr, Bool.and_eq_true, decide_eq_true_eq] at this
    omega
  · simp only [List.any_eq_true, List.mem_range, not_exists, not_and]
    intro j hj
    have := hin j hj
    simp only [isSystemAddr, Bool.and_eq_true] at this
    simpa using this.2

/-- A host's access that races records the race. -/
theorem hostMemAccess_race {host : Nat} {r : Span} (f : State → State) {s : State}
    (hs : ∀ a, r.contains a = true → isSystemAddr s.cfg a = true) (hr : races s host r = true) :
    hostMemAccess host r f s = .next (s.mark .bufferRace) := by
  have hin : ∀ j, j < r.len → isSystemAddr s.cfg (r.base + j) = true :=
    fun j hj => hs _ (Span.contains_iff.mpr ⟨by omega, by omega⟩)
  unfold hostMemAccess
  rw [if_neg, if_neg, if_pos hr]
  · rintro ⟨h1, h2⟩
    have := hin (r.len - 1) (by omega)
    simp only [isSystemAddr, Bool.and_eq_true, decide_eq_true_eq] at this
    omega
  · simp only [List.any_eq_true, List.mem_range, not_exists, not_and]
    intro j hj
    have := hin j hj
    simp only [isSystemAddr, Bool.and_eq_true] at this
    simpa using this.2

/-- What a step can do: the engine's turn, or what one event says, in the state `u` that no longer lists it. -/
inductive StepShape (s u t : State) : Prop where
  /-- The engine's turn (given, or taken because a host waits or no event is left). -/
  | turn (h : engineTurn u = .next t)
  /-- A host that waits on an idle engine observes BUSY = 0. -/
  | idle (host : Nat) (rest : List Event) (he : s.events = .wait host :: rest) (hb : s.busy = false)
    (h : t = u.seeIdle host)
  /-- A host write into the window. -/
  | wrote (r : Reg) (w : Word) (h : t = writeReg r w u)
  /-- A host's read of the window. -/
  | readWindow (host addr : Nat) (rest : List Event) (he : s.events = .regRead host addr 4 :: rest)
    (hw : windowAccessOk s.cfg addr 4 = true) (r : Reg) (hr : r = Reg.ofOffset (addr - s.cfg.regBase))
    (h : t = (u.observe (.word (readReg r u))).noteRead host r)
  /-- A host's read of memory. -/
  | readMem (bs : Bytes) (h : t = u.observe (.bytes bs))
  /-- A host write to memory. -/
  | stored (a : Nat) (bs : Bytes) (hs : ∀ x, Span.contains ⟨a, bs.length⟩ x = true → isSystemAddr u.cfg x = true)
      (h : t = u.setMem (u.mem.writeBytes a bs))
  /-- A race. -/
  | raced (h : t = u.mark .bufferRace)
  /-- A reset. -/
  | reset (rest : List Event) (he : s.events = .reset :: rest) (h : t = resetMachine u)

/-- Inversion of the step: it starts from no fault mark, and is one of the shapes above, in a state that differs from `s`
in its list of events only. -/
theorem step_cases {s t : State} (h : step s = .next t) :
    s.faultMarks = [] ∧ ∃ es, StepShape s { s with events := es } t := by
  have hf := step_next_unmarked h
  refine ⟨hf, ?_⟩
  match he : s.events with
  | [] => rw [step_nil hf he] at h; exact ⟨s.events, .turn h⟩
  | e :: rest =>
    rw [step_cons hf he] at h
    cases e with
    | engine => exact ⟨rest, .turn h⟩
    | wait host =>
      simp only [runEvent, hostWait] at h
      split at h
      · exact ⟨.wait host :: rest, .turn h⟩
      · next hb => injection h with h; exact ⟨rest, .idle host rest he (Bool.eq_false_iff.mpr hb) h.symm⟩
    | regWrite addr width w =>
      simp only [runEvent, hostRegWrite] at h
      split at h
      · injection h with h; exact ⟨rest, .wrote _ w h.symm⟩
      · cases h
    | regRead host addr width =>
      simp only [runEvent, hostRegRead] at h
      split at h
      · next hw =>
        have h4 : width = 4 := by
          simp only [windowAccessOk, Bool.and_eq_true, decide_eq_true_eq] at hw
          exact hw.1.2
        subst h4
        injection h with h; exact ⟨rest, .readWindow host addr rest he hw _ rfl h.symm⟩
      · cases h
    | memWrite host addr data =>
      simp only [runEvent, hostMemWrite] at h
      obtain ⟨hs, ⟨-, h⟩ | ⟨-, h⟩⟩ := hostMemAccess_cases h
      · exact ⟨rest, .raced h⟩
      · exact ⟨rest, .stored addr data hs h⟩
    | memRead host addr n =>
      simp only [runEvent, hostMemRead] at h
      obtain ⟨-, ⟨-, h⟩ | ⟨-, h⟩⟩ := hostMemAccess_cases h
      · exact ⟨rest, .raced h⟩
      · exact ⟨rest, .readMem _ h⟩
    | reset =>
      simp only [runEvent] at h
      injection h with h
      exact ⟨rest, .reset rest he h.symm⟩

end Sys2Proof.Machine
end

