-- ==== Sys2Proof/Tests/Slice0.lean ====
section
/-! SUPPORT. The model's own tests: the WellFormed smoke test, words written out from the spec's encodings, small tests
with values from 95_test_vectors.md or worked out by hand, and for each statement with hypotheses a state that meets
them. -/

namespace Sys2Proof.Tests

open Sys2Proof.Machine

/-! ### A small state -/

/-- A valid slot with an empty schedule. -/
def toySlot (d : Direction) : KeySlot := ⟨true, d, .k128, [], 10, []⟩

/-- Slot 0 an Encrypt key, slot 1 a Decrypt key; contexts 0, 1 and 2 in ECB, CBC and CFB1 mode; two bytes of memory. -/
def toyState : State :=
  { State.reset with
    keySlots := ((Vector.replicate 16 KeySlot.reset).set 0 (toySlot .encrypt)).set 1 (toySlot .decrypt)
    contexts := (((Vector.replicate 16 Context.reset).set 0 ⟨true, .ecb, 0⟩).set 1 ⟨true, .cbc, 5⟩).set 2 ⟨true, .cfb1, 0⟩
    mem := [(0x1000, 0x41), (0x1001, 0x42)] }

/-- A latched record: SRC 0x1000, DST 0x2000, all characters '0'. -/
def toyLatch (cmd param len : Word) : Latch :=
  ⟨cmd, param, 0x1000, 0x2000, len, Vector.replicate 64 0x30, Vector.replicate 32 0x30⟩

/-- The small state with a command latched and events to come. -/
def toyBusy (L : Latch) (events : List Event) : State := { toyState with latch := some L, events := events }

/-- The error code and COUNT that an outcome leaves, none where there is no next state. -/
def resultOf : Host.Outcome State Fault Refusal → Option (BitVec 4 × Nat)
  | .next t => some (t.err.code, t.count.toNat)
  | .fault _ => none
  | .refused _ => none

/-- Runs a command on the small state with this PARAM and LEN. -/
def run (i : Instr) (param len : Word) : Option (BitVec 4 × Nat) :=
  resultOf (exec i (toyBusy (toyLatch (encode i) param len) []))

/-! ### WellFormed -/

theorem test_wellFormed_refuses :
    (Instr.makekey 16 true).wellFormed = false ∧ (Instr.cipherinit 16 true).wellFormed = false ∧
    (Instr.blkenc 16 0).wellFormed = false ∧ (Instr.blkenc 0 16).wellFormed = false ∧
    (Instr.blkdec 16 0).wellFormed = false ∧ (Instr.blkdec 0 16).wellFormed = false ∧
    (Instr.padenc 16 0).wellFormed = false ∧ (Instr.padenc 0 16).wellFormed = false ∧
    (Instr.paddec 16 0).wellFormed = false ∧ (Instr.paddec 0 16).wellFormed = false := by decide

/-- Also the witness of DecodeEncodeRoundTrip, at the edges of both selectors. -/
theorem test_wellFormed_accepts :
    (Instr.makekey 15 true).wellFormed = true ∧ (Instr.cipherinit 15 false).wellFormed = true ∧
    (Instr.blkenc 15 15).wellFormed = true ∧ (Instr.blkdec 15 15).wellFormed = true ∧
    (Instr.padenc 15 15).wellFormed = true ∧ (Instr.paddec 15 15).wellFormed = true := by decide

/-! ### Decoding: words written bit by bit from 30_encoding.md R110 (reserved, IVP, KMP, CSEL, KSEL, OPC) -/

theorem test_decode_makekey :
    decode 0b00000000000000_0_1_0000_0101_00000001 = .ok (.makekey 5 true) ∧
    decode 0b00000000000000_0_0_0000_0000_00000001 = .ok (.makekey 0 false) := by decide

theorem test_decode_cipherinit :
    decode 0b00000000000000_1_0_0001_0000_00000010 = .ok (.cipherinit 1 true) ∧
    decode 0b00000000000000_0_0_0111_0000_00000010 = .ok (.cipherinit 7 false) := by decide

theorem test_decode_blkenc :
    decode 0b00000000000000_0_0_1111_0001_00000011 = .ok (.blkenc 1 15) ∧
    decode 0b11111111111111_1_1_0000_0000_00000011 = .ok (.blkenc 0 0) := by decide

theorem test_decode_blkdec : decode 0b00000000000000_0_0_0001_0000_00000100 = .ok (.blkdec 0 1) := by decide

theorem test_decode_padenc : decode 0b00000000000000_0_0_0010_0011_00000101 = .ok (.padenc 3 2) := by decide

theorem test_decode_paddec : decode 0b00000000000000_0_0_0001_0001_00000110 = .ok (.paddec 1 1) := by decide

/-- 95_test_vectors.md V-E15. -/
theorem test_decode_illegal :
    decode 0x00000000 = .error (.illegalOpcode 0x00) ∧ decode 0x00000007 = .error (.illegalOpcode 0x07) ∧
    decode 0x000000FF = .error (.illegalOpcode 0xFF) := by decide

/-- The words of 30_encoding.md R119, from their mnemonics. -/
theorem test_encode :
    encode (.makekey 1 true) = 0x00010101 ∧ encode (.cipherinit 1 true) = 0x00021002 ∧
    encode (.blkenc 0 0) = 0x00000003 ∧ encode (.blkdec 1 1) = 0x00001104 ∧ encode (.padenc 0 0) = 0x00000005 ∧
    encode (.paddec 1 1) = 0x00001106 := by decide

/-! ### Registers and operands -/

/-- 95_test_vectors.md V-H1, V-H2. -/
theorem test_nib :
    nib 0x30 = some 0 ∧ nib 0x39 = some 9 ∧ nib 0x61 = some 10 ∧ nib 0x66 = some 15 ∧ nib 0x41 = some 10 ∧
    nib 0x46 = some 15 ∧ nib 0x67 = none ∧ nib 0x47 = none ∧ nib 0x2F = none ∧ nib 0x3A = none ∧ nib 0x40 = none ∧
    nib 0x60 = none ∧ nib 0x20 = none ∧ nib 0x00 = none := by decide

/-- 95_test_vectors.md V-H3, V-H5. -/
theorem test_hexDecode :
    hexDecode [0x30, 0x41, 0x30, 0x62] 2 = some [0x0A, 0x0B] ∧ hexDecode [0x30, 0x67] 1 = none := by decide

/-- The map of 10_state.md R32, at the edges of its ranges. -/
theorem test_regOffsets :
    Reg.ofOffset 0x018 = .len ∧ Reg.ofOffset 0x01C = .reserved ∧ Reg.ofOffset 0x03C = .reserved ∧
    Reg.ofOffset 0x040 = .keymat 0 ∧ Reg.ofOffset 0x07C = .keymat 15 ∧ Reg.ofOffset 0x080 = .ivhex 0 ∧
    Reg.ofOffset 0x09C = .ivhex 7 ∧ Reg.ofOffset 0x0A0 = .reserved ∧ Reg.ofOffset 0x0FC = .reserved := by decide

/-- 10_state.md R39, 95_test_vectors.md 2.1: the first KEYMAT word of K spells "0001". -/
theorem test_keymatChars :
    ((keymatChars ((Vector.replicate 16 0).set 0 0x31303030)).toList.take 5) = [0x30, 0x30, 0x30, 0x31, 0x00] := by
  decide

/-- 95_test_vectors.md V-R6: ERR = 15, DROP = 1, BUSY = 0. -/
theorem test_status : ({ State.reset with err := .failed .badCommand, drop := true } : State).status = 0xF2 := by decide

/-- 95_test_vectors.md V-R4 and V-R5: an accepted illegal word, then a dropped CIPHERINIT. -/
theorem test_cmdWrite :
    (writeCmd 0x00000007 State.reset).status = 1 ∧ (writeCmd 0x00000002 (writeCmd 0x00000007 State.reset)).status = 3 := by
  decide

/-- 95_test_vectors.md V-X1: the illegal word then completes with STATUS 0xF0. -/
theorem test_illegalCommand :
    resultOf (step (State.reset.withFetchWord 32 0x00000007)) = some (15, 0) := by decide

/-! ### One step of each command -/

/-- 95_test_vectors.md V-K1: COUNT 0 and ERR 0; the slot is a valid 128-bit Encrypt key. -/
theorem test_makekey :
    run (.makekey 2 true) 0x00800000 0 = some (0, 0) ∧
    ((makekeyWith Config.primitive 2 true (toyLatch 0x00010201 0x00800000 0) toyState).slot 2).valid = true := by decide

/-- 95_test_vectors.md V-K7 to V-K11: the order of the checks. -/
theorem test_makekey_errors :
    run (.makekey 2 true) 0x00810002 0 = some (1, 0) ∧ run (.makekey 2 true) 0x00810000 0 = some (2, 0) ∧
    run (.makekey 5 true) 0x00800002 0 = some (3, 0) ∧ run (.makekey 2 false) 0x00800000 0 = some (2, 0) := by decide

/-- 95_test_vectors.md V-C2: IV1 from its eight IVHEX words. -/
theorem test_cipherinit :
    decodeIv true { toyLatch 0x00021002 0x00000200 0 with
      ivhex := ivhexChars #v[0x30653066, 0x30633064, 0x30613062, 0x30383039, 0x30363037, 0x30343035,
        0x30323033, 0x30303031] } = some 0xf0e0d0c0b0a090807060504030201000 := by decide

/-- 95_test_vectors.md V-C1, V-C3 to V-C6. -/
theorem test_cipherinit_results :
    run (.cipherinit 0 false) 0x00000200 0 = some (0, 0) ∧ run (.cipherinit 2 false) 0x00000000 0 = some (4, 0) ∧
    run (.cipherinit 2 false) 0x00000400 0 = some (4, 0) ∧ run (.cipherinit 7 false) 0x00000000 0 = some (7, 0) := by
  decide

/-- 95_test_vectors.md V-B15 to V-B17. -/
theorem test_blkenc_length :
    run (.blkenc 0 0) 0 127 = some (0, 0) ∧ run (.blkenc 0 0) 0 129 = some (0, 128) ∧
    run (.blkenc 0 0) 0 0xFFFFFF80 = some (0, 0) := by decide

/-- 95_test_vectors.md V-B20, V-B23, V-B25 to V-B27. -/
theorem test_blkenc_errors :
    run (.blkenc 1 0) 0 0 = some (5, 0) ∧ run (.blkenc 1 2) 0 128 = some (5, 0) ∧
    run (.blkenc 2 0) 0 128 = some (5, 0) ∧ run (.blkenc 0 3) 0 128 = some (5, 0) ∧
    run (.blkenc 9 0) 0 128 = some (5, 0) := by decide

/-- 95_test_vectors.md V-B10, V-B11, V-B21, V-B22: only CFB1 takes an Encrypt key. -/
theorem test_blkdec :
    run (.blkdec 0 2) 0 128 = some (0, 128) ∧ run (.blkdec 1 2) 0 128 = some (0, 128) ∧
    run (.blkdec 0 0) 0 128 = some (5, 0) ∧ run (.blkdec 0 1) 0 128 = some (5, 0) := by decide

/-- 95_test_vectors.md V-P1, V-P5, V-P6. -/
theorem test_padenc :
    run (.padenc 0 0) 0 5 = some (0, 16) ∧ run (.padenc 0 0) 0 16 = some (0, 32) ∧
    run (.padenc 0 1) 0 17 = some (0, 32) := by decide

/-- 95_test_vectors.md V-P19, V-P20, V-P26, V-P28. -/
theorem test_padenc_checks :
    run (.padenc 0 2) 0 16 = some (5, 0) ∧ run (.padenc 0 2) 0 0 = some (0, 0) ∧
    run (.padenc 1 1) 0 16 = some (5, 0) ∧ run (.padenc 0 0) 0 0 = some (0, 0) := by decide

/-- 95_test_vectors.md V-P21 to V-P25, V-P27. -/
theorem test_paddec_checks :
    run (.paddec 1 2) 0 17 = some (8, 0) ∧ run (.paddec 1 2) 0 16 = some (5, 0) ∧
    run (.paddec 1 2) 0 0 = some (0, 0) ∧ run (.paddec 1 1) 0 8 = some (8, 0) ∧
    run (.paddec 0 1) 0 16 = some (5, 0) ∧ run (.paddec 1 1) 0 0xFFFFFFF0 = some (0, 0) := by decide

/-- 95_test_vectors.md V-P14 to V-P17b: the validator under both rules. -/
theorem test_padOk :
    padOk .harmonized .ecb 0 = false ∧ padOk .reference .ecb 0 = true ∧ padOk .reference .cbc 0 = false ∧
    padOk .harmonized .ecb 0x11111111111111111111111111111111 = false ∧
    padOk .harmonized .ecb 0x00000000000000000000000000030203 = false ∧
    padOk .harmonized .ecb 0x00000000000000000000000000000202 = true ∧
    padOk .harmonized .ecb 0x10101010101010101010101010101010 = true ∧
    padOk .reference .ecb 0x10101010101010101010101010101010 = false ∧
    padOk .reference .cbc 0x10101010101010101010101010101010 = true := by decide

/-- 95_test_vectors.md 1.4: padding lengths, and the final block of five bytes 0x41. -/
theorem test_padding :
    [1, 5, 15, 16, 17, 20, 32].map padLength = [15, 11, 1, 16, 15, 12, 16] ∧
    padBlock [0x41, 0x41, 0x41, 0x41, 0x41] 11 = 0x41414141410b0b0b0b0b0b0b0b0b0b0b := by decide

/-- A block primitive for tests: both directions complement the block. -/
def flip : Primitive where
  keyExpand := fun _ ks _ => ([], ks.rounds)
  fwd := fun _ _ b => ~~~b
  inv := fun _ _ b => ~~~b

/-- By hand, from 41_block.md R187 and R188 with the complement as primitive. -/
theorem test_cbc :
    encBlock flip (toySlot .encrypt) .cbc 0xFF 0x0F = (~~~0xF0, ~~~0xF0) ∧
    decBlock flip (toySlot .decrypt) .cbc 0xFF 0x0F = (0x0F, ~~~0xF0) := by decide

/-- By hand, from 41_block.md R189 and R190 with the complement as primitive: the 128 keystream bits are the complements of
the old register's bits, in order; the register ends as the ciphertext: the output of encryption, the input of
decryption. -/
theorem test_cfb1 :
    encBlock flip (toySlot .encrypt) .cfb1 0x80 0x41 = (0x41 ^^^ ~~~0x80, 0x41 ^^^ ~~~0x80) ∧
    decBlock flip (toySlot .encrypt) .cfb1 0x80 0x41 = (0x41, 0x41 ^^^ ~~~0x80) := by decide +kernel

/-! ### Witnesses: for each statement with hypotheses, states and operands that meet all of them -/

theorem next_of_result {o : Host.Outcome State Fault Refusal} (h : (resultOf o).isSome = true) : ∃ t, o = .next t := by
  cases o with
  | next t => exact ⟨t, rfl⟩
  | fault f => cases h
  | refused r => cases h

theorem success_of_result {o : Host.Outcome State Fault Refusal} {n : Nat} (h : resultOf o = some (0, n)) :
    ∃ t, o = .next t ∧ t.err = .success := by
  cases o with
  | next t =>
    refine ⟨t, rfl, ?_⟩
    simp only [resultOf, Option.some.injEq, Prod.mk.injEq] at h
    cases he : t.err with
    | success => rfl
    | failed e => rw [he] at h; cases e <;> exact absurd h.1 (by decide)
  | fault f => cases h
  | refused r => cases h

/-- A BLKENC of one block, ECB. -/
def encLatch : Latch := toyLatch 0x00000003 0 128

/-- The same with a SRC whose block runs past the address space (95_test_vectors.md V-X6). -/
def stuckLatch : Latch := { encLatch with src := 0xFFFFFFF8 }

theorem ready_enc_ecb (L : Latch) (es : List Event) : HandlesReady (toyBusy L es) 0 0 :=
  ⟨rfl, rfl, rfl, rfl⟩

theorem ready_enc_cbc (L : Latch) (es : List Event) : HandlesReady (toyBusy L es) 0 1 :=
  ⟨rfl, rfl, rfl, rfl⟩

theorem ready_enc_cfb1 (L : Latch) (es : List Event) : HandlesReady (toyBusy L es) 0 2 :=
  ⟨rfl, rfl, rfl, rfl⟩

theorem ready_dec_ecb (L : Latch) (es : List Event) : HandlesReady (toyBusy L es) 1 0 :=
  ⟨rfl, rfl, rfl, rfl⟩

theorem ready_dec_cbc (L : Latch) (es : List Event) : HandlesReady (toyBusy L es) 1 1 :=
  ⟨rfl, rfl, rfl, rfl⟩

theorem ready_dec_cfb1 (L : Latch) (es : List Event) : HandlesReady (toyBusy L es) 1 2 :=
  ⟨rfl, rfl, rfl, rfl⟩

theorem toy_admits (L : Latch) (es : List Event) (kind : AccessKind) (a : Nat) (h : a < 0x10000) :
    admitted (toyBusy L es).cfg kind a = true := by
  have h1 : a < 2 ^ 32 := by omega
  have h2 : ¬ 0xF0000000 ≤ a := by omega
  show admitted Config.initial kind a = true
  have h3 : isSystemAddr Config.initial a = true := by
    simp only [isSystemAddr, Config.inWindow, Bool.and_eq_true, Bool.not_eq_true', Bool.and_eq_false_iff, decide_eq_true_eq,
      decide_eq_false_iff_not]
    exact ⟨h1, .inl h2⟩
  have h4 : a < 0 + 2 ^ 32 := by omega
  refine Bool.and_eq_true_iff.mpr ⟨h3, ?_⟩
  cases kind <;>
    simp only [Config.initial, Region.admits, List.any_cons, h4, decide_true, Nat.zero_le, Bool.true_and, Bool.true_or]

/-- A PADDEC completes on every padding: its accesses are admitted either way. -/
theorem paddec_completes : ∃ t, exec (.paddec 1 1) (toyBusy (toyLatch 0x00001106 0 32) []) = .next t := by
  refine ⟨_, (exec_of_latch rfl _).trans (Effect.commit_of_admitted ?_)⟩
  show (runPaddec Config.primitive (toySlot .decrypt) .cbc 1 5 _ _).fp.admitted _ = true
  rw [runPaddec_eq]
  generalize (Block.byte _ 15).toNat = padLen
  split
  · refine Footprint.admitted_iff.mpr fun a => ⟨fun h => toy_admits _ _ _ a ?_, fun h => toy_admits _ _ _ a ?_⟩
    · have h : a < 0x1000 + 32 := (Span.contains_iff.mp h).2
      omega
    · have h : a < 0x2000 + (32 - padLen) := (Span.contains_iff.mp h).2
      omega
  · decide

/-! #### Encoding -/

theorem witness_DecodingIsTotal :
    (0x00010101 : Word).toNat % 256 = 1 ∧ (0x00021002 : Word).toNat % 256 = 2 ∧ (0x00000003 : Word).toNat % 256 = 3 ∧
    (0x00001104 : Word).toNat % 256 = 4 ∧ (0x00000005 : Word).toNat % 256 = 5 ∧ (0xFFFFF006 : Word).toNat % 256 = 6 ∧
    (0xFFFFFF00 : Word).toNat % 256 = 0 ∧ 7 ≤ (0x00000007 : Word).toNat % 256 ∧ 7 ≤ (0xFFFFFFFF : Word).toNat % 256 ∧
    decode 0xFFFFF006 = .ok (.paddec 0 15) := by decide

/-! #### The step -/

theorem witness_StepRunsLatchedCommand :
    (toyBusy encLatch [.engine]).faultMarks = [] ∧ (toyBusy encLatch [.engine]).latch = some encLatch ∧
    decode encLatch.cmd = .ok (.blkenc 0 0) ∧
    (toyBusy encLatch [.engine]).events = .engine :: [] ∧ (toyBusy encLatch []).events = [] ∧
    (∃ t, exec (.blkenc 0 0) { toyBusy encLatch [.engine] with events := [] } = .next t) ∧
    exec (.blkenc 0 0) { toyBusy stuckLatch [.engine] with events := [] } = .fault .notAdmitted ∧
    decodeTableWord 32 0x00000003 = some (.blkenc 0 0) ∧
    ∃ L t, ({ toyState.accept (BitVec.ofNat 32 0x00000003) with faultMarks := [] } : State).latch = some L ∧
      exec (.blkenc 0 0) { toyState.accept (BitVec.ofNat 32 0x00000003) with faultMarks := [] } = .next t :=
  ⟨rfl, rfl, rfl, rfl, rfl, next_of_result (by decide), rfl, rfl,
    (next_of_result (by decide)).elim fun t h => ⟨_, t, rfl, h⟩⟩

theorem witness_IllegalCommandReportsBadCommand :
    (toyBusy (toyLatch 0x00000007 0 0) [.engine]).faultMarks = [] ∧
    (toyBusy (toyLatch 0x00000007 0 0) [.engine]).latch = some (toyLatch 0x00000007 0 0) ∧
    (toyBusy (toyLatch 0x00000007 0 0) [.engine]).events = .engine :: [] ∧
    ¬ (1 ≤ ((toyLatch 0x00000007 0 0).cmd.extractLsb' 0 8).toNat ∧
      ((toyLatch 0x00000007 0 0).cmd.extractLsb' 0 8).toNat ≤ 6) ∧
    ¬ (1 ≤ ((toyLatch 0x00000100 0 0).cmd.extractLsb' 0 8).toNat ∧
      ((toyLatch 0x00000100 0 0).cmd.extractLsb' 0 8).toNat ≤ 6) := by decide

theorem witness_WaitingLetsTheEngineRun :
    (toyBusy encLatch [.wait 1]).faultMarks = [] ∧ (toyBusy encLatch [.wait 1]).busy = true ∧
    (toyBusy encLatch [.wait 1]).events = .wait 1 :: [] ∧
    toyState.faultMarks = [] ∧ toyState.busy = false ∧
    ({ toyState with events := [.wait 1] } : State).events = .wait 1 :: [] ∧
    ({ toyState with events := [.engine] } : State).events = .engine :: [] ∧ toyState.events = [] := by decide

theorem witness_StepServesHostAccesses :
    toyState.faultMarks = [] ∧
    ({ toyState with events := [.regWrite 0xF000000C 4 1] } : State).events = .regWrite 0xF000000C 4 1 :: [] ∧
    ({ toyState with events := [.regRead 1 0xF0000004 4] } : State).events = .regRead 1 0xF0000004 4 :: [] ∧
    ({ toyState with events := [.memWrite 1 0x1000 [1]] } : State).events = .memWrite 1 0x1000 [1] :: [] ∧
    ({ toyState with events := [.memRead 1 0x1000 1] } : State).events = .memRead 1 0x1000 1 :: [] := by decide

/-! #### Reset -/

theorem witness_ResetGivesResetValues :
    (toyBusy encLatch [.reset]).faultMarks = [] ∧ (toyBusy encLatch [.reset]).events = .reset :: [] ∧
    ({ toyState with events := [.reset] } : State).busy = false := by decide

/-- A state that is not the reset state: a slot built by MAKEKEY, a context, memory, and a CIPHERINIT to run. -/
def goodState : State :=
  { toyBusy (toyLatch 0x00000002 0x00000200 0) [.engine] with
    keySlots := (Vector.replicate 16 KeySlot.reset).set 0
      (makeSlot Config.primitive (List.replicate 16 0x41) .k128 .decrypt) }

theorem goodState_inv : goodState.Inv where
  cfgBounds := by decide
  memForm := by decide
  memAddrs := by decide
  slots := by
    intro i h
    by_cases h0 : i = 0
    · subst h0; exact ⟨List.replicate 16 0x41, rfl, rfl⟩
    · by_cases h16 : i < 16
      · have hv : ∀ i, i < 16 → i ≠ 0 → (goodState.slot i).valid = false := by decide
        rw [hv i h16 h0] at h; cases h
      · have : goodState.slot i = KeySlot.reset := by
          show (Option.getD _ _ : KeySlot) = _
          rw [Vector.getElem?_eq_none (by omega)]; rfl
        rw [this] at h; cases h
  absentSlots := by
    intro i h
    by_cases h16 : i < 16
    · have hv : ∀ i, i < 16 → goodState.keyPresent i = false → (goodState.slot i).valid = false := by decide
      exact hv i h16 h
    · show (Option.getD _ _ : KeySlot).valid = false
      rw [Vector.getElem?_eq_none (by omega)]; rfl
  absentContexts := by
    intro i h
    by_cases h16 : i < 16
    · have hv : ∀ i, i < 16 → goodState.ctxPresent i = false → (goodState.context i).valid = false := by decide
      exact hv i h16 h
    · show (Option.getD _ _ : Context).valid = false
      rw [Vector.getElem?_eq_none (by omega)]; rfl
  errorCount := fun h => absurd rfl h
  countBound := by decide
  marksNodup := List.nodup_nil

theorem witness_StepKeepsInvariant : goodState.Inv ∧ ∃ t, step goodState = .next t :=
  ⟨goodState_inv, next_of_result (by decide)⟩

theorem witness_ResetAbortTouchesOnlyTheWriteRange :
    ∀ L ∈ [toyLatch 0x00000003 0 256, toyLatch 0x00001104 0 256, toyLatch 0x00000005 0 5, toyLatch 0x00001106 0 32,
      toyLatch 0x00000001 0 0, toyLatch 0x00000007 0 0],
    (toyBusy L [.reset]).faultMarks = [] ∧ (toyBusy L [.reset]).mem.wf = true ∧
    (toyBusy L [.reset]).latch = some L ∧ (toyBusy L [.reset]).events = .reset :: [] ∧
    ∃ t, step (toyBusy L [.reset]) = .next t := fun _ _ => ⟨rfl, rfl, rfl, rfl, _, rfl⟩

theorem witness_OnlyResetInvalidates :
    (∃ t, step goodState = .next t) ∧ (∀ rest, goodState.events ≠ .reset :: rest) ∧
    (goodState.slot 0).valid = true ∧ (goodState.context 1).valid = true :=
  ⟨next_of_result (by decide), (by intro rest h; cases h), by decide, by decide⟩

/-! #### The register window -/

theorem witness_CmdWriteAcceptsOrDrops :
    (toyBusy encLatch [.regWrite 0xF0000000 4 2]).events = .regWrite toyState.cfg.regBase 4 2 :: [] ∧
    (toyBusy encLatch [.regWrite 0xF0000000 4 2]).faultMarks = [] ∧
    (toyBusy encLatch [.regWrite 0xF0000000 4 2]).busy = true ∧
    ({ toyState with events := [.regWrite 0xF0000000 4 2] } : State).busy = false := by decide

/-- Offsets at the edges of each clause; an offset falls under one clause about writes. The last two lines: the KEYMAT and
IVHEX words at the edges of their ranges. -/
theorem witness_RegisterWritesStoreAndReadBack :
    (∀ off ∈ [0x00C, 0x018, 0x040, 0x07C, 0x080, 0x09C],
      off = 0x00C ∨ off = 0x010 ∨ off = 0x014 ∨ off = 0x018 ∨ (0x040 ≤ off ∧ off < 0x0A0 ∧ off % 4 = 0)) ∧
    (∀ off ∈ [0x004, 0x008, 0x01C, 0x03C, 0x0A0, 0x0FC],
      off = 0x004 ∨ off = 0x008 ∨ (0x01C ≤ off ∧ off < 0x040 ∧ off % 4 = 0) ∨
        (0x0A0 ≤ off ∧ off < 0x100 ∧ off % 4 = 0)) ∧
    (∀ off ∈ [0x000, 0x01C, 0x03C, 0x0A0, 0x0FC],
      off = 0x000 ∨ (0x01C ≤ off ∧ off < 0x040 ∧ off % 4 = 0) ∨ (0x0A0 ≤ off ∧ off < 0x100 ∧ off % 4 = 0)) ∧
    (0x040 = 0x040 + 4 * 0 ∧ 0x07C = 0x040 + 4 * 15 ∧ toyState.keymat[0]? = some 0 ∧ toyState.keymat[15]? = some 0) ∧
    (0x080 = 0x080 + 4 * 0 ∧ 0x09C = 0x080 + 4 * 7 ∧ toyState.ivhex[0]? = some 0 ∧ toyState.ivhex[7]? = some 0) := by
  decide

theorem witness_OddWindowAccessIsRefused :
    toyState.cfg.inWindow 0xF0000004 = true ∧ (2 ≠ 4 ∨ (0xF0000004 - toyState.cfg.regBase) % 4 ≠ 0) ∧
    toyState.cfg.inWindow 0xF00000FF = true ∧ (4 ≠ 4 ∨ (0xF00000FF - toyState.cfg.regBase) % 4 ≠ 0) ∧
    1 < ([1, 2] : Bytes).length ∧ toyState.cfg.inWindow (0xEFFFFFFF + 1) = true := by decide

theorem witness_KeyStateIsNotReadable :
    (some (toyLatch 0 0 0)).isSome = (toyBusy encLatch []).latch.isSome ∧
    ∃ t, hostRegRead 1 0xF0000004 4 (toyBusy encLatch []) = .next t := ⟨rfl, _, rfl⟩

/-! #### Every command: frames, accesses, admission -/

/-- A completed command of each kind: what RunningCommandIgnoresArgumentRegisters, CompletedCommandKeepsRegisters,
CommandWritesOnlyItsOwnHandle, CommandWritesOnlyItsRange and AccessedBytesTable assume (`toyBusy` latches the record).
Whether the padding of the PADDEC passes depends on the block primitive, which is opaque. -/
theorem witness_commandsComplete :
    (∃ t, exec (.makekey 2 true) (toyBusy (toyLatch 0x00010201 0x00800000 0) []) = .next t) ∧
    (∃ t, exec (.cipherinit 2 false) (toyBusy (toyLatch 0x00002002 0x00000200 0) []) = .next t) ∧
    (∃ t, exec (.blkenc 0 1) (toyBusy (toyLatch 0x00001003 0 256) []) = .next t ∧ t.err = .success) ∧
    (∃ t, exec (.blkdec 0 2) (toyBusy (toyLatch 0x00002004 0 256) []) = .next t ∧ t.err = .success) ∧
    (∃ t, exec (.padenc 0 1) (toyBusy (toyLatch 0x00001005 0 5) []) = .next t ∧ t.err = .success) ∧
    (∃ t, exec (.paddec 1 1) (toyBusy (toyLatch 0x00001106 0 32) []) = .next t) ∧ toyState.mem.wf = true :=
  ⟨next_of_result (by decide), next_of_result (by decide), success_of_result (n := 256) (by decide),
    success_of_result (n := 256) (by decide), success_of_result (n := 16) (by decide), paddec_completes, by decide⟩

theorem witness_CommandCompletesExactlyWhenAdmitted :
    (∀ a, ((commandFootprint (.blkenc 0 0) encLatch (toyBusy encLatch [])).reads.contains a = true →
        admitted (toyBusy encLatch []).cfg .read a = true) ∧
      ((commandFootprint (.blkenc 0 0) encLatch (toyBusy encLatch [])).writes.contains a = true →
        admitted (toyBusy encLatch []).cfg .write a = true)) ∧
    ((commandFootprint (.blkenc 0 0) stuckLatch (toyBusy stuckLatch [])).reads.contains (2 ^ 32) = true ∧
      admitted (toyBusy stuckLatch []).cfg .read (2 ^ 32) = false) :=
  ⟨Footprint.admitted_iff.mp (by decide), by decide⟩

theorem witness_UnadmittedCommandStaysStuck :
    2 ^ toyState.cfg.addrW ≤ 2 ^ 32 ∧ toyState.cfg.inWindow 0xF0000000 = true ∧ toyState.cfg.inWindow 0xF00000FF = true ∧
    (toyBusy stuckLatch [.engine]).faultMarks = [] ∧ (toyBusy stuckLatch [.engine]).latch = some stuckLatch ∧
    decode stuckLatch.cmd = .ok (.blkenc 0 0) ∧
    (commandFootprint (.blkenc 0 0) stuckLatch (toyBusy stuckLatch [.engine])).reads.contains (2 ^ 32) = true ∧
    admitted (toyBusy stuckLatch [.engine]).cfg .read (2 ^ 32) = false ∧
    (toyBusy stuckLatch [.engine]).events = .engine :: [] ∧ (toyBusy stuckLatch [.wait 1]).events = .wait 1 :: [] ∧
    (toyBusy stuckLatch []).events = [] := by decide

/-- A command with input 0x1000 to 0x100F and output 0x2000 to 0x200F has ended, and only host 2 has observed it. -/
def endedState (events : List Event) : State :=
  { toyState with retired := [⟨⟨⟨0x1000, 16⟩, ⟨0x2000, 16⟩⟩, [2]⟩], events := events }

/-- 95_test_vectors.md V-R9: a host reads the first output byte while the command is latched. The next lines: the same of a
command that has ended, at the edges of its ranges; the step that ends one; the two ways to observe BUSY = 0; a step that
adds nothing. -/
theorem witness_BufferRaceIsRecorded :
    ((toyBusy encLatch [.memRead 1 0x2000 1]).faultMarks = [] ∧
      (toyBusy encLatch [.memRead 1 0x2000 1]).latch = some encLatch ∧ decode encLatch.cmd = .ok (.blkenc 0 0) ∧
      (toyBusy encLatch [.memRead 1 0x2000 1]).events = .memRead 1 0x2000 ([0] : Bytes).length :: [] ∧
      (toyBusy encLatch [.memWrite 1 0x100F [0]]).events = .memWrite 1 0x100F [0] :: [] ∧
      (∀ j, j < ([0] : Bytes).length → isSystemAddr toyState.cfg (0x2000 + j) = true) ∧
      (commandFootprint (.blkenc 0 0) encLatch (toyBusy encLatch [.memRead 1 0x2000 1])).writes.contains 0x2000 = true ∧
      (commandFootprint (.blkenc 0 0) encLatch (toyBusy encLatch [.memWrite 1 0x100F [0]])).reads.contains 0x100F =
        true) ∧
    ((endedState [.memRead 1 0x200F 1]).faultMarks = [] ∧
      (endedState [.memRead 1 0x200F 1]).events = .memRead 1 0x200F ([0] : Bytes).length :: [] ∧
      ∃ p ∈ (endedState [.memRead 1 0x200F 1]).retired, 1 ∉ p.seenBy ∧ p.fp.writes.contains 0x200F = true ∧
        p.fp.reads.contains 0x1000 = true) ∧
    (∃ t, step (toyBusy encLatch [.engine]) = .next t ∧ t.latch = none ∧
      (commandFootprint (.blkenc 0 0) encLatch (toyBusy encLatch [.engine])).reads.contains 0x1000 = true) ∧
    ((endedState [.wait 1]).busy = false ∧ (endedState [.wait 1]).events = .wait 1 :: [] ∧
      (endedState [.regRead 1 0xF0000004 4]).events = .regRead 1 (toyState.cfg.regBase + 4) 4 :: []) ∧
    ∃ t, step (endedState [.regRead 1 0xF0000008 4]) = .next t ∧ ∃ q ∈ t.retired, 1 ∉ q.seenBy :=
  ⟨by decide, by decide, ⟨_, rfl, rfl, by decide⟩, by decide, ⟨_, rfl, by decide⟩⟩

/-- 70_reset_and_hazards.md R296: once the command has completed, host 1's read of its first output byte is still a race. -/
theorem test_race_afterCompletion :
    (match step (toyBusy encLatch [.engine, .memRead 1 0x2000 1]) with
     | .next t => (match step t with
       | .next u => u.faultMarks
       | .fault _ => []
       | .refused _ => [])
     | .fault _ => []
     | .refused _ => []) = [FaultMark.bufferRace] := by decide

/-- 70_reset_and_hazards.md R296: a host that has observed BUSY = 0 may touch the bytes; another may not. -/
theorem test_race_untilObserved :
    races ((endedState []).seeIdle 1) 1 ⟨0x2000, 1⟩ = false ∧ races (endedState []) 1 ⟨0x2000, 1⟩ = true ∧
    races ((endedState []).seeIdle 1) 3 ⟨0x2000, 1⟩ = true ∧ races (endedState []) 1 ⟨0x2010, 1⟩ = false := by decide

/-- The bytes right after the input of the running command, which host 1 has seen one ended command leave and which another
ends short of. -/
theorem witness_HostMemoryAccess :
    let s : State := { toyBusy encLatch [] with
      retired := [⟨⟨⟨0x1010, 16⟩, ⟨0x1010, 16⟩⟩, [1]⟩, ⟨⟨⟨0x1012, 16⟩, ⟨0x1000, 16⟩⟩, []⟩] }
    s.mem.wf = true ∧ (∀ j, j < ([7, 8] : Bytes).length → isSystemAddr s.cfg (0x1010 + j) = true) ∧
    ∀ b, 0x1010 ≤ b → b < 0x1010 + ([7, 8] : Bytes).length →
      (runningFootprint s).reads.contains b = false ∧ (runningFootprint s).writes.contains b = false ∧
      ∀ p ∈ s.retired, 1 ∉ p.seenBy → p.fp.reads.contains b = false ∧ p.fp.writes.contains b = false := by
  refine ⟨by decide, by decide, fun b h1 h2 => ?_⟩
  have : b = 0x1010 ∨ b = 0x1011 := by simp at h2; omega
  rcases this with rfl | rfl <;> decide

/-- The CIPHERINIT of `goodState` changes context 0, mode included. -/
theorem witness_WhoWritesSlotsAndContexts :
    (∃ t, step goodState = .next t ∧ (t.context 0).mode ≠ (goodState.context 0).mode) ∧
    (∀ rest, goodState.events ≠ .reset :: rest) ∧
    (∃ t, step (toyBusy (toyLatch 0x00010201 0x00800000 0) [.engine]) = .next t ∧
      (t.slot 2).valid ≠ ((toyBusy (toyLatch 0x00010201 0x00800000 0) [.engine]).slot 2).valid) ∧
    (∃ t, step (toyBusy { toyLatch 0x00021002 0x00000200 0 with ivhex := Vector.replicate 32 0x61 } [.engine]) = .next t ∧
      (t.context 1).reg ≠ (5 : Block)) :=
  ⟨⟨_, rfl, by decide⟩, (by intro rest h; cases h), ⟨_, rfl, by decide⟩, ⟨_, rfl, by decide⟩⟩

theorem witness_ErrorsChangeNothingElse :
    (∃ t, exec (.paddec 1 1) (toyBusy (toyLatch 0x00001106 0 8) []) = .next t ∧ t.err = .failed .badData) ∧
    ¬ (ErrorKind.badData = .badData ∧ (toyLatch 0x00001106 0 8).len.toInt % 16 = 0) :=
  ⟨⟨_, rfl, rfl⟩, by decide⟩

/-! #### Setup commands -/

theorem witness_HexDecodeReadsPairs :
    2 * 2 ≤ ([0x66, 0x30, 0x65, 0x30] : Bytes).length ∧
    hexDecode [0x66, 0x30, 0x65, 0x30] 2 = some [0xF0, 0xE0] := by decide

theorem witness_MakekeyBuildsSlot :
    (toyBusy (toyLatch 0x00010301 0x01000001 0) []).latch = some (toyLatch 0x00010301 0x01000001 0) ∧ 3 < 16 ∧
    3 < (toyBusy (toyLatch 0x00010301 0x01000001 0) []).cfg.numKeySlots ∧
    ((toyLatch 0x00010301 0x01000001 0).param.extractLsb' 0 8).toNat = 1 ∧
    ((toyLatch 0x00010301 0x01000001 0).param.extractLsb' 16 16).toNat = KeySize.k256.bits ∧
    hexDecode (toyLatch 0x00010301 0x01000001 0).keymat.toList (KeySize.k256.bits / 8) = some (List.replicate 32 0) := by
  decide

theorem witness_MakekeyErrorOrder :
    (toyBusy encLatch []).latch = some encLatch ∧ (toyBusy encLatch []).cfg.numKeySlots ≤ 4 ∧
    3 < (toyBusy encLatch []).cfg.numKeySlots ∧
    (((0x00800002 : Word).extractLsb' 0 8).toNat ≠ 0 ∧ ((0x00800002 : Word).extractLsb' 0 8).toNat ≠ 1) ∧
    ((0x00810001 : Word).extractLsb' 0 8).toNat = 1 ∧
    (((0x00810001 : Word).extractLsb' 16 16).toNat ≠ 128 ∧ ((0x00810001 : Word).extractLsb' 16 16).toNat ≠ 192 ∧
      ((0x00810001 : Word).extractLsb' 16 16).toNat ≠ 256) ∧
    hexDecode (List.replicate 31 0x30 ++ List.replicate 33 0x67) (128 / 8) = none := by decide

/-- 128-bit material and other characters from 32 on. -/
theorem witness_LaterKeyCharactersAreNotRead :
    ∀ c, c < ((toyLatch 0x00010001 0x00800000 0).param.extractLsb' 16 16).toNat / 4 →
      (((Vector.replicate 64 (0x30 : Byte)).set 32 0x7A)[c]?) = (toyLatch 0x00010001 0x00800000 0).keymat[c]? := by
  decide

theorem witness_CipherinitSetsContext :
    (toyBusy (toyLatch 0x00023002 0x00000300 0) []).latch = some (toyLatch 0x00023002 0x00000300 0) ∧ 3 < 16 ∧
    3 < (toyBusy (toyLatch 0x00023002 0x00000300 0) []).cfg.numCtx ∧
    ((toyLatch 0x00023002 0x00000300 0).param.extractLsb' 8 8).toNat = 3 ∧
    hexDecode (toyLatch 0x00023002 0x00000300 0).ivhex.toList 16 = some (List.replicate 16 0) := by decide

theorem witness_CipherinitErrorOrder :
    (toyBusy encLatch []).cfg.numCtx ≤ 4 ∧ 3 < (toyBusy encLatch []).cfg.numCtx ∧
    ¬ (1 ≤ ((0x00000400 : Word).extractLsb' 8 8).toNat ∧ ((0x00000400 : Word).extractLsb' 8 8).toNat ≤ 3) ∧
    ¬ (1 ≤ ((0x00000000 : Word).extractLsb' 8 8).toNat ∧ ((0x00000000 : Word).extractLsb' 8 8).toNat ≤ 3) ∧
    (1 ≤ ((0x00000300 : Word).extractLsb' 8 8).toNat ∧ ((0x00000300 : Word).extractLsb' 8 8).toNat ≤ 3) ∧
    hexDecode (List.replicate 31 0x30 ++ [0x00]) 16 = none := by decide

/-! #### Checks of the data commands -/

theorem witness_BadHandleReportsBadCipherState :
    (toyBusy encLatch []).latch = some encLatch ∧ (toyBusy encLatch []).cfg.numKeySlots ≤ 4 ∧
    ((toyBusy encLatch []).slot 3).valid = false ∧ (toyBusy encLatch []).cfg.numCtx ≤ 15 ∧
    ((toyBusy encLatch []).context 3).valid = false := by decide

theorem witness_WrongDirectionReportsBadCipherState :
    HandlesReady (toyBusy encLatch []) 1 0 ∧ ((toyBusy encLatch []).slot 1).dir = .decrypt ∧
    HandlesReady (toyBusy encLatch []) 0 1 ∧ ((toyBusy encLatch []).slot 0).dir = .encrypt ∧
    ((toyBusy encLatch []).context 1).mode ≠ .cfb1 :=
  ⟨ready_dec_ecb .., rfl, ready_enc_cbc .., rfl, by decide⟩

theorem witness_NonPositiveLengthIsNoOp :
    HandlesReady (toyBusy (toyLatch 0 0 0) []) 0 2 ∧ (toyLatch 0 0 0).len.toInt ≤ 0 ∧
    (toyLatch 0 0 0xFFFFFF80).len.toInt ≤ 0 ∧ ((toyBusy (toyLatch 0 0 0) []).slot 0).dir = .encrypt ∧
    HandlesReady (toyBusy (toyLatch 0 0 0) []) 1 2 ∧ ((toyBusy (toyLatch 0 0 0) []).slot 1).dir = .decrypt ∧
    ((toyBusy (toyLatch 0 0 0) []).context 2).mode = .cfb1 :=
  ⟨ready_enc_cfb1 .., by decide, by decide, rfl, ready_dec_cfb1 .., rfl, rfl⟩

theorem witness_PaddedLengthAndModeChecks :
    HandlesReady (toyBusy (toyLatch 0 0 16) []) 0 2 ∧ 0 < (toyLatch 0 0 16).len.toInt ∧
    ((toyBusy (toyLatch 0 0 16) []).slot 0).dir = .encrypt ∧ ((toyBusy (toyLatch 0 0 16) []).context 2).mode = .cfb1 ∧
    HandlesReady (toyBusy (toyLatch 0 0 17) []) 1 2 ∧ 0 < (toyLatch 0 0 17).len.toInt ∧
    ((toyBusy (toyLatch 0 0 17) []).slot 1).dir = .decrypt ∧ (toyLatch 0 0 17).len.toInt % 16 ≠ 0 ∧
    HandlesReady (toyBusy (toyLatch 0 0 16) []) 1 2 ∧ (toyLatch 0 0 16).len.toInt % 16 = 0 :=
  ⟨ready_enc_cfb1 .., by decide, rfl, rfl, ready_dec_cfb1 .., by decide, rfl, by decide, ready_dec_cfb1 .., by decide⟩

/-! #### Data commands -/

theorem witness_FeedbackIsLastCiphertext :
    Mode.cbc ≠ .ecb ∧ Mode.cfb1 ≠ .ecb ∧ toyState.mem.wf = true ∧ 128 ≤ (toyLatch 0x00001003 0 256).len.toInt ∧
    ((toyBusy (toyLatch 0x00001003 0 256) []).context 1).mode ≠ .ecb ∧
    (∃ t, exec (.blkenc 0 1) (toyBusy (toyLatch 0x00001003 0 256) []) = .next t ∧ t.err = .success) ∧
    (∃ t, exec (.blkdec 1 1) (toyBusy (toyLatch 0x00001104 0 256) []) = .next t ∧ t.err = .success) ∧
    DisjointOrSame (toyLatch 0x00001104 0 256).src.toNat (16 * 2) (toyLatch 0x00001104 0 256).dst.toNat (16 * 2) :=
  ⟨by decide, by decide, by decide, by decide, by decide, success_of_result (n := 256) (by decide),
    success_of_result (n := 256) (by decide), .inr (.inl (by decide))⟩

/-- Two blocks, disjoint buffers, CBC. -/
theorem witness_BlkencRunsDatapath :
    toyState.mem.wf = true ∧ HandlesReady (toyBusy (toyLatch 0x00001003 0 256) []) 0 1 ∧
    ((toyBusy (toyLatch 0x00001003 0 256) []).slot 0).dir = .encrypt ∧ 0 < (toyLatch 0x00001003 0 256).len.toInt ∧
    (∀ j, j < 16 * 2 → admitted (toyBusy (toyLatch 0x00001003 0 256) []).cfg .read (0x1000 + j) = true ∧
      admitted (toyBusy (toyLatch 0x00001003 0 256) []).cfg .write (0x2000 + j) = true) ∧
    DisjointOrSame 0x1000 (16 * 2) 0x2000 (16 * 2) :=
  ⟨by decide, ready_enc_cbc .., rfl, by decide,
    fun j h => ⟨toy_admits _ _ _ _ (by omega), toy_admits _ _ _ _ (by omega)⟩, .inr (.inl (by decide))⟩

/-- A Decrypt key in ECB, and an Encrypt key in CFB1. -/
theorem witness_BlkdecRunsDatapath :
    toyState.mem.wf = true ∧ HandlesReady (toyBusy (toyLatch 0x00000104 0 256) []) 1 0 ∧
    ((toyBusy (toyLatch 0x00000104 0 256) []).slot 1).dir = .decrypt ∧
    HandlesReady (toyBusy (toyLatch 0x00000104 0 256) []) 0 2 ∧
    ((toyBusy (toyLatch 0x00000104 0 256) []).context 2).mode = .cfb1 ∧ 0 < (toyLatch 0x00000104 0 256).len.toInt ∧
    (∀ j, j < 16 * 2 → admitted (toyBusy (toyLatch 0x00000104 0 256) []).cfg .read (0x1000 + j) = true ∧
      admitted (toyBusy (toyLatch 0x00000104 0 256) []).cfg .write (0x2000 + j) = true) ∧
    DisjointOrSame 0x1000 (16 * 2) 0x2000 (16 * 2) :=
  ⟨by decide, ready_dec_ecb .., rfl, ready_enc_cfb1 .., rfl, by decide,
    fun j h => ⟨toy_admits _ _ _ _ (by omega), toy_admits _ _ _ _ (by omega)⟩, .inr (.inl (by decide))⟩

/-- Partly overlapping buffers (95_test_vectors.md V-B28's offset of 8), which the two access-order statements admit. -/
def overlapLatch (cmd len : Word) : Latch := { toyLatch cmd 0 len with dst := 0x1008 }

theorem witness_BlockCommandsFollowAccessOrder :
    (toyBusy (overlapLatch 3 256) []).latch = some (overlapLatch 3 256) ∧
    HandlesReady (toyBusy (overlapLatch 3 256) []) 0 0 ∧ HandlesReady (toyBusy (overlapLatch 3 256) []) 1 0 ∧
    0 < (overlapLatch 3 256).len.toInt ∧
    (∀ j, j < 16 * 2 → admitted (toyBusy (overlapLatch 3 256) []).cfg .read ((overlapLatch 3 256).src.toNat + j) = true ∧
      admitted (toyBusy (overlapLatch 3 256) []).cfg .write ((overlapLatch 3 256).dst.toNat + j) = true) ∧
    ((toyBusy (overlapLatch 3 256) []).slot 0).dir = .encrypt ∧ ((toyBusy (overlapLatch 3 256) []).slot 1).dir = .decrypt :=
  ⟨rfl, ready_enc_ecb .., ready_dec_ecb .., by decide,
    fun j h => ⟨toy_admits _ _ _ _ (by simp [overlapLatch, toyLatch]; omega),
      toy_admits _ _ _ _ (by simp [overlapLatch, toyLatch]; omega)⟩, rfl, rfl⟩

/-- One block and then one block, in place of two. -/
theorem witness_SplitMessageSameCiphertext :
    ∃ t1 t2 t : State,
      exec (.blkenc 0 1) { toyBusy encLatch [] with latch := some { encLatch with len := BitVec.ofNat 32 (128 * 1) } } =
        .next t1 ∧ t1.err = .success ∧
      exec (.blkenc 0 1)
        { t1 with latch := some { encLatch with
            src := encLatch.src + BitVec.ofNat 32 (16 * 1)
            dst := encLatch.dst + BitVec.ofNat 32 (16 * 1)
            len := BitVec.ofNat 32 (128 * 1) } } = .next t2 ∧
      exec (.blkenc 0 1)
        { toyBusy encLatch [] with latch := some { encLatch with len := BitVec.ofNat 32 (128 * (1 + 1)) } } = .next t ∧
      128 * (1 + 1) < 2 ^ 31 ∧ encLatch.src.toNat + 16 * 1 < 2 ^ 32 ∧ encLatch.dst.toNat + 16 * 1 < 2 ^ 32 := by
  obtain ⟨t, ht⟩ := next_of_result (o := exec (.blkenc 0 1)
    { toyBusy encLatch [] with latch := some { encLatch with len := BitVec.ofNat 32 (128 * (1 + 1)) } }) (by decide)
  refine ⟨_, _, t, (exec_of_latch rfl _).trans (Effect.commit_of_admitted (by decide)), rfl,
    (exec_of_latch rfl _).trans (Effect.commit_of_admitted (by decide)), ht, by decide, by decide, by decide⟩

/-- `flip` meets `P_RC` and `P_INV`. -/
theorem flip_counts : flip.RoundCounts := fun _ _ _ => rfl

theorem flip_inverts : flip.Inverts := fun _ _ _ _ => BitVec.not_not

/-- Slots 0 and 1 of `flip`, of one raw key; the contexts of the small state. -/
def flipState (L : Latch) : State :=
  { toyBusy L [] with
    keySlots := ((Vector.replicate 16 KeySlot.reset).set 0
      (makeSlot flip (List.replicate 16 0x41) .k128 .encrypt)).set 1
      (makeSlot flip (List.replicate 16 0x41) .k128 .decrypt) }

theorem flip_ready (L : Latch) (m : Memory) (k c : Nat) (hk : k < 2) (hc : c < 3) :
    HandlesReady { flipState L with mem := m } k c := by
  have h1 : k = 0 ∨ k = 1 := by omega
  have h2 : c = 0 ∨ c = 1 ∨ c = 2 := by omega
  rcases h1 with rfl | rfl <;> rcases h2 with rfl | rfl | rfl <;> exact ⟨rfl, rfl, rfl, rfl⟩

/-- Encrypt from 0x1000 to 0x2000, decrypt from there to 0x3000. -/
def backLatch (cmd len : Word) : Latch := { toyLatch cmd 0 len with src := 0x2000, dst := 0x3000 }

theorem witness_BlockRoundTrip :
    flip.RoundCounts ∧ flip.Inverts ∧ (List.replicate 16 (0x41 : Byte)).length = KeySize.k128.bytes ∧
    (flipState encLatch).mem.wf = true ∧ HandlesReady (flipState encLatch) 0 1 ∧
    (flipState encLatch).slot 0 = makeSlot flip (List.replicate 16 0x41) .k128 .encrypt ∧
    (∃ t : State, t = { flipState encLatch with mem := (blkencWith flip 0 1 encLatch (flipState encLatch)).after.mem } ∧
      HandlesReady t 1 1 ∧ t.slot 1 = makeSlot flip (List.replicate 16 0x41) .k128 .decrypt ∧
      t.context 1 = (flipState encLatch).context 1 ∧
      t.mem = (blkencWith flip 0 1 encLatch (flipState encLatch)).after.mem) ∧
    (backLatch 4 128).src = encLatch.dst ∧ (backLatch 4 128).len = encLatch.len ∧ 0 < encLatch.len.toInt ∧
    DisjointOrSame encLatch.src.toNat 16 encLatch.dst.toNat 16 ∧
    DisjointOrSame (backLatch 4 128).src.toNat 16 (backLatch 4 128).dst.toNat 16 :=
  ⟨flip_counts, flip_inverts, rfl, by decide, flip_ready _ _ _ _ (by decide) (by decide), rfl,
    ⟨_, rfl, flip_ready _ _ _ _ (by decide) (by decide), rfl, rfl, rfl⟩, rfl, rfl, by decide,
    .inr (.inl (by decide)), .inr (.inl (by decide))⟩

theorem witness_Cfb1DecryptTakesEitherKey :
    flip.RoundCounts ∧ HandlesReady (flipState encLatch) 0 2 ∧ HandlesReady (flipState encLatch) 1 2 ∧
    (flipState encLatch).slot 0 = makeSlot flip (List.replicate 16 0x41) .k128 .encrypt ∧
    (flipState encLatch).slot 1 = makeSlot flip (List.replicate 16 0x41) .k128 .decrypt ∧
    ((flipState encLatch).context 2).mode = .cfb1 :=
  ⟨flip_counts, flip_ready _ _ _ _ (by decide) (by decide), flip_ready _ _ _ _ (by decide) (by decide), rfl, rfl, rfl⟩

theorem witness_EcbNeitherReadsNorWritesFeedback :
    ((toyBusy encLatch []).context 0).mode = .ecb ∧ (∃ t, exec (.blkenc 0 0) (toyBusy encLatch []) = .next t) ∧
    (∃ t, exec (.blkdec 1 0) (toyBusy encLatch []) = .next t) ∧
    (∃ t, exec (.padenc 0 0) (toyBusy encLatch []) = .next t) :=
  ⟨rfl, next_of_result (by decide), next_of_result (by decide), next_of_result (by decide)⟩

/-- Contexts 1 and 3, both CBC with the same register. -/
theorem witness_EqualContextsGiveEqualOutputs :
    ((toyBusy encLatch []).setContext 3 ⟨true, .cbc, 5⟩).context 1 =
      ((toyBusy encLatch []).setContext 3 ⟨true, .cbc, 5⟩).context 3 ∧
    ((toyBusy encLatch []).setContext 3 ⟨true, .cbc, 5⟩).ctxPresent 1 =
      ((toyBusy encLatch []).setContext 3 ⟨true, .cbc, 5⟩).ctxPresent 3 ∧
    ∃ t, exec (.blkenc 0 1) ((toyBusy encLatch []).setContext 3 ⟨true, .cbc, 5⟩) = .next t :=
  ⟨rfl, rfl, next_of_result (by decide)⟩

/-- For BitsAreNumberedFromTheTop, Cfb1EncryptBlock and Cfb1DecryptBlock (bit positions) and PaddingValidator (modes). -/
theorem witness_positionsAndModes : 0 < 128 ∧ 127 < 128 ∧ Mode.ecb ≠ .cfb1 ∧ Mode.cbc ≠ .cfb1 := by decide

theorem witness_PaddingInjector :
    32 % 16 = 0 ∧ 17 % 16 ≠ 0 ∧ ([] : Bytes).length + 16 = 16 ∧ (List.replicate 15 (1 : Byte)).length + 1 = 16 := by decide

/-- Five bytes, CBC. -/
theorem witness_PadencPadsAndEncrypts :
    toyState.mem.wf = true ∧ HandlesReady (toyBusy (toyLatch 0x00001005 0 5) []) 0 1 ∧
    ((toyBusy (toyLatch 0x00001005 0 5) []).slot 0).dir = .encrypt ∧
    ((toyBusy (toyLatch 0x00001005 0 5) []).context 1).mode ≠ .cfb1 ∧ 0 < (toyLatch 0x00001005 0 5).len.toInt ∧
    (∀ j, j < 5 → admitted (toyBusy (toyLatch 0x00001005 0 5) []).cfg .read (0x1000 + j) = true) ∧
    (∀ j, j < 16 * (0 + 1) → admitted (toyBusy (toyLatch 0x00001005 0 5) []).cfg .write (0x2000 + j) = true) ∧
    DisjointOrSame 0x1000 5 0x2000 (16 * (0 + 1)) :=
  ⟨by decide, ready_enc_cbc .., rfl, by decide, by decide, fun j h => toy_admits _ _ _ _ (by omega),
    fun j h => toy_admits _ _ _ _ (by omega), .inr (.inl (by decide))⟩

/-- Two blocks, CBC and ECB. -/
theorem witness_PaddecValidatesAndUnpads :
    toyState.mem.wf = true ∧ HandlesReady (toyBusy (toyLatch 0x00001106 0 32) []) 1 1 ∧
    HandlesReady (toyBusy (toyLatch 0x00001106 0 32) []) 1 0 ∧
    ((toyBusy (toyLatch 0x00001106 0 32) []).slot 1).dir = .decrypt ∧
    ((toyBusy (toyLatch 0x00001106 0 32) []).context 1).mode ≠ .cfb1 ∧ 0 < (toyLatch 0x00001106 0 32).len.toInt ∧
    (toyLatch 0x00001106 0 32).len.toInt % 16 = 0 ∧
    (∀ j, j < 32 → admitted (toyBusy (toyLatch 0x00001106 0 32) []).cfg .read (0x1000 + j) = true ∧
      admitted (toyBusy (toyLatch 0x00001106 0 32) []).cfg .write (0x2000 + j) = true) ∧
    DisjointOrSame 0x1000 32 0x2000 32 :=
  ⟨by decide, ready_dec_cbc .., ready_dec_ecb .., rfl, by decide, by decide, by decide,
    fun j h => ⟨toy_admits _ _ _ _ (by omega), toy_admits _ _ _ _ (by omega)⟩, .inr (.inl (by decide))⟩

theorem witness_PaddedCommandsFollowAccessOrder :
    HandlesReady (toyBusy (overlapLatch 5 32) []) 0 1 ∧ HandlesReady (toyBusy (overlapLatch 5 32) []) 1 1 ∧
    ((toyBusy (overlapLatch 5 32) []).context 1).mode ≠ .cfb1 ∧ 0 < (overlapLatch 5 32).len.toInt ∧
    ((toyBusy (overlapLatch 5 32) []).slot 0).dir = .encrypt ∧ ((toyBusy (overlapLatch 5 32) []).slot 1).dir = .decrypt ∧
    (overlapLatch 5 32).len.toInt.toNat % 16 = 0 ∧
    (∀ j, j < 32 → admitted (toyBusy (overlapLatch 5 32) []).cfg .read ((overlapLatch 5 32).src.toNat + j) = true) ∧
    (∀ j, j < 16 * (2 + 1) →
      admitted (toyBusy (overlapLatch 5 32) []).cfg .write ((overlapLatch 5 32).dst.toNat + j) = true) :=
  ⟨ready_enc_cbc .., ready_dec_cbc .., by decide, by decide, rfl, rfl, by decide,
    fun j h => toy_admits _ _ _ _ (by simp [overlapLatch, toyLatch]; omega),
    fun j h => toy_admits _ _ _ _ (by simp [overlapLatch, toyLatch]; omega)⟩

/-- 32 bytes to 48 and back: ECB under either rule (a whole number of blocks), CBC. -/
theorem witness_PaddedRoundTrip :
    flip.RoundCounts ∧ flip.Inverts ∧ (List.replicate 16 (0x41 : Byte)).length = KeySize.k128.bytes ∧
    (flipState (toyLatch 5 0 32)).mem.wf = true ∧ HandlesReady (flipState (toyLatch 5 0 32)) 0 0 ∧
    (flipState (toyLatch 5 0 32)).slot 0 = makeSlot flip (List.replicate 16 0x41) .k128 .encrypt ∧
    ((flipState (toyLatch 5 0 32)).context 0).mode = .ecb ∧ ((flipState (toyLatch 5 0 32)).context 1).mode = .cbc ∧
    (∃ t : State, t = { flipState (toyLatch 5 0 32) with
        mem := (padencWith flip 0 0 (toyLatch 5 0 32) (flipState (toyLatch 5 0 32))).after.mem } ∧
      HandlesReady t 1 0 ∧ t.slot 1 = makeSlot flip (List.replicate 16 0x41) .k128 .decrypt ∧
      t.context 0 = (flipState (toyLatch 5 0 32)).context 0 ∧
      t.mem = (padencWith flip 0 0 (toyLatch 5 0 32) (flipState (toyLatch 5 0 32))).after.mem ∧
      t.cfg.ecbPadRule = .harmonized ∧ ({ t.cfg with ecbPadRule := .reference } : Config).ecbPadRule = .reference) ∧
    (backLatch 6 48).src = (toyLatch 5 0 32).dst ∧ 0 < (toyLatch 5 0 32).len.toInt ∧
    (backLatch 6 48).len.toInt = 16 * (32 / 16 + 1) ∧ 32 % 16 = 0 ∧
    DisjointOrSame (toyLatch 5 0 32).src.toNat 32 (toyLatch 5 0 32).dst.toNat 48 ∧
    DisjointOrSame (backLatch 6 48).src.toNat 48 (backLatch 6 48).dst.toNat 48 :=
  ⟨flip_counts, flip_inverts, rfl, by decide, flip_ready _ _ _ _ (by decide) (by decide), rfl, rfl, rfl,
    ⟨_, rfl, flip_ready _ _ _ _ (by decide) (by decide), rfl, rfl, rfl, rfl, rfl⟩, rfl, by decide, by decide, by decide,
    .inr (.inl (by decide)), .inr (.inl (by decide))⟩

end Sys2Proof.Tests
end

section
/-! The numbering of a Block's bits (00_scope.md R16). -/

namespace Sys2Proof

/-- Bit `7 - k mod 8` of byte `k div 8` is bit `k` of the Block: both are bit `127 - k` of its value. -/
theorem Block.getLsbD_byte (B : Block) {k : Nat} (hk : k < 128) :
    (Block.byte B (k / 8)).getLsbD (7 - k % 8) = Block.bitAt B k := by
  have hpos : 8 * (15 - k / 8) + (7 - k % 8) = 127 - k := by omega
  have hin : 7 - k % 8 < 8 := by omega
  simp [Block.byte, Block.bitAt, hpos, hin]

/-- Settles O42: the byte positions are those of `bitAt`, and `setBit` is known on every `bitAt`. -/
theorem bitsAreNumberedFromTheTop : Obligations.BitsAreNumberedFromTheTop := by
  intro B k hk
  refine ⟨(Block.getLsbD_byte B hk).symm, rfl, fun v j hj => ?_⟩
  rw [Block.getLsbD_byte _ hj, Block.getLsbD_byte _ hj]
  exact Block.bitAt_setBit B k j v hk hj

end Sys2Proof
end

section
/-! What a completed command does to slots, contexts and the invariant (10_state.md R40, R41, R46, R48). -/

namespace Sys2Proof.Machine

/-! ### The slots and contexts a command leaves -/

/-- A data command that completes leaves the state of its effect, every access of which is admitted. -/
theorem exec_data_next {i : Instr} {s t : State} {L : Latch} {csel : Nat} {e : Effect} (hL : s.latch = some L)
    (hi : dataEffectOf i L s = some (csel, e)) (h : exec i s = .next t) :
    e.fp.admitted s.cfg = true ∧ t = e.after := by
  rw [exec_data hL hi] at h
  exact Effect.commit_next h

/-- The contexts of a completed data command: at most one feedback register is another (41_block.md R180). -/
theorem exec_data_contexts {i : Instr} {s t : State} {L : Latch} {csel : Nat} {e : Effect} (hL : s.latch = some L)
    (hi : dataEffectOf i L s = some (csel, e)) (h : exec i s = .next t) :
    t.keySlots = s.keySlots ∧ ∃ r, t.contexts = (s.setReg csel r).contexts := by
  obtain ⟨-, rfl⟩ := exec_data_next hL hi h
  exact ⟨(dataEffectOf_dataEffect hi).slots, (dataEffectOf_dataEffect hi).contexts⟩

/-- A written feedback register leaves every other context, and the valid bit and the mode of its own. -/
theorem State.context_of_setReg_contexts {s t : State} {csel : Nat} {r : Block}
    (h : t.contexts = (s.setReg csel r).contexts) :
    (∀ j, j ≠ csel → t.context j = s.context j) ∧ (t.context csel).valid = (s.context csel).valid ∧
      (t.context csel).mode = (s.context csel).mode := by
  simp only [State.context_congr h, State.context_setReg]
  refine ⟨fun j hj => if_neg fun hh => hj hh.1.symm, ?_, ?_⟩ <;> split <;> rfl

/-- MAKEKEY writes at most its own slot (10_state.md R41). -/
theorem makekeyWith_frame (p : Primitive) (ksel : Nat) (kmp : Bool) (L : Latch) (s : State) :
    (makekeyWith p ksel kmp L s).contexts = s.contexts ∧ (makekeyWith p ksel kmp L s).mem = s.mem ∧
      ∀ i, i ≠ ksel → (makekeyWith p ksel kmp L s).slot i = s.slot i := by
  rcases makekeyWith_cases p ksel kmp L s with ⟨e, h⟩ | ⟨d, ks, raw, -, -, h⟩ <;> rw [h]
  · exact ⟨rfl, rfl, fun _ _ => rfl⟩
  · refine ⟨rfl, rfl, fun i hi => ?_⟩
    rw [slot_finish, State.slot_setSlot, if_neg fun hh => hi hh.1.symm]

/-- CIPHERINIT writes at most its own context (10_state.md R46). -/
theorem cipherinitWith_frame (csel : Nat) (ivp : Bool) (L : Latch) (s : State) :
    (cipherinitWith csel ivp L s).keySlots = s.keySlots ∧ (cipherinitWith csel ivp L s).mem = s.mem ∧
      ∀ j, j ≠ csel → (cipherinitWith csel ivp L s).context j = s.context j := by
  rcases cipherinitWith_cases csel ivp L s with ⟨e, h⟩ | ⟨m, iv, -, h⟩ <;> rw [h]
  · exact ⟨rfl, rfl, fun _ _ => rfl⟩
  · refine ⟨rfl, rfl, fun j hj => ?_⟩
    rw [context_finish, State.context_setContext, if_neg fun hh => hj hh.1.symm]

/-- What a completed MAKEKEY leaves. -/
theorem exec_makekey_next {ksel : Nat} {kmp : Bool} {s t : State} (h : exec (.makekey ksel kmp) s = .next t) :
    ∃ L, s.latch = some L ∧ t = makekeyWith Config.primitive ksel kmp L s := by
  obtain ⟨L, hL, h⟩ := withLatch_next h
  injection h with h
  exact ⟨L, hL, h.symm⟩

/-- What a completed CIPHERINIT leaves. -/
theorem exec_cipherinit_next {csel : Nat} {ivp : Bool} {s t : State} (h : exec (.cipherinit csel ivp) s = .next t) :
    ∃ L, s.latch = some L ∧ t = cipherinitWith csel ivp L s := by
  obtain ⟨L, hL, h⟩ := withLatch_next h
  injection h with h
  exact ⟨L, hL, h.symm⟩

/-- The frame of a completed data command, in the form of 10_state.md R48. -/
theorem exec_data_frame {i : Instr} {s t : State} {csel : Nat} (f : Latch → Effect)
    (hi : ∀ L, dataEffectOf i L s = some (csel, f L)) (h : exec i s = .next t) :
    t.keySlots = s.keySlots ∧ (∀ j, j ≠ csel → t.context j = s.context j) ∧
      (t.context csel).valid = (s.context csel).valid ∧ (t.context csel).mode = (s.context csel).mode := by
  obtain ⟨L, hL⟩ := exec_next_latch h
  obtain ⟨hk, r, hr⟩ := exec_data_contexts hL (hi L) h
  exact ⟨hk, State.context_of_setReg_contexts hr⟩

/-- Settles O22, by the frame of each of the two setup commands and the one of the data commands. -/
theorem commandWritesOnlyItsOwnHandle : Obligations.CommandWritesOnlyItsOwnHandle := by
  intro i s t h
  cases i with
  | makekey ksel kmp =>
    obtain ⟨L, -, rfl⟩ := exec_makekey_next h
    exact makekeyWith_frame ..
  | cipherinit csel ivp =>
    obtain ⟨L, -, rfl⟩ := exec_cipherinit_next h
    exact cipherinitWith_frame ..
  | blkenc ksel csel | blkdec ksel csel | padenc ksel csel | paddec ksel csel =>
    exact exec_data_frame _ (fun _ => rfl) h

/-! ### Who writes slots and contexts, over all steps -/

/-- Only a MAKEKEY on a slot changes it (10_state.md R41). -/
theorem exec_changes_slot {i : Instr} {s t : State} {k : Nat} (h : exec i s = .next t) (hk : t.slot k ≠ s.slot k) :
    ∃ kmp, i = .makekey k kmp := by
  have hframe := commandWritesOnlyItsOwnHandle i s t h
  cases i with
  | makekey ksel kmp =>
    obtain ⟨-, -, hslot⟩ := hframe
    by_cases hks : k = ksel
    · exact ⟨kmp, by rw [hks]⟩
    · exact absurd (hslot k hks) hk
  | _ => exact absurd (State.slot_congr hframe.1 k) hk

/-- Only a CIPHERINIT or a data command on a context changes it (10_state.md R46, R48). -/
theorem exec_changes_context {i : Instr} {s t : State} {j : Nat} (h : exec i s = .next t)
    (hj : t.context j ≠ s.context j) : (∃ ivp, i = .cipherinit j ivp) ∨
      ((∃ k, i = .blkenc k j ∨ i = .blkdec k j ∨ i = .padenc k j ∨ i = .paddec k j) ∧
        (t.context j).valid = (s.context j).valid ∧ (t.context j).mode = (s.context j).mode) := by
  have hframe := commandWritesOnlyItsOwnHandle i s t h
  have hsel {csel : Nat} (hother : ∀ c, c ≠ csel → t.context c = s.context c) : j = csel := by
    by_contra hne
    exact hj (hother j hne)
  cases i with
  | makekey ksel kmp => exact absurd (State.context_congr hframe.1 j) hj
  | cipherinit csel ivp =>
    obtain ⟨-, -, hother⟩ := hframe
    exact .inl ⟨ivp, by rw [hsel hother]⟩
  | blkenc ksel csel | blkdec ksel csel | padenc ksel csel | paddec ksel csel =>
    obtain ⟨-, hother, hsame⟩ := hframe
    obtain rfl := hsel hother
    exact .inr ⟨⟨ksel, by simp⟩, hsame⟩

/-- A host's write to CMD is dropped while busy (10_state.md R56). -/
theorem writeReg_cmd_busy {s : State} (w : Word) (hb : s.busy = true) :
    writeReg .cmd w s = { s with drop := true } :=
  if_pos hb

/-- A host's write to CMD is accepted while idle (10_state.md R56). -/
theorem writeReg_cmd_idle {s : State} (w : Word) (hb : s.busy = false) : writeReg .cmd w s = s.accept w :=
  if_neg (Bool.eq_false_iff.mp hb)

/-- A host's register write is no write of a slot or a context. -/
theorem writeReg_slots_contexts (r : Reg) (w : Word) (s : State) :
    (writeReg r w s).keySlots = s.keySlots ∧ (writeReg r w s).contexts = s.contexts := by
  cases r with
  | cmd =>
    cases hb : s.busy
    · rw [writeReg_cmd_idle w hb]; exact ⟨rfl, rfl⟩
    · rw [writeReg_cmd_busy w hb]; exact ⟨rfl, rfl⟩
  | _ => exact ⟨rfl, rfl⟩

@[simp] theorem State.mark_keySlots (s : State) (f : FaultMark) : (s.mark f).keySlots = s.keySlots := by
  unfold State.mark; split <;> rfl

@[simp] theorem State.mark_contexts (s : State) (f : FaultMark) : (s.mark f).contexts = s.contexts := by
  unfold State.mark; split <;> rfl

/-- Of all the steps but a reset, only the one that completes a command writes a slot or a context. -/
theorem step_slots_contexts {s t : State} (h : step s = .next t) (hr : ∀ rest, s.events ≠ .reset :: rest) :
    (t.keySlots = s.keySlots ∧ t.contexts = s.contexts) ∨
    ∃ L i es u, s.latch = some L ∧ decode L.cmd = .ok i ∧ exec i { s with events := es } = .next u ∧
      t.keySlots = u.keySlots ∧ t.contexts = u.contexts := by
  obtain ⟨-, es, hshape⟩ := step_cases h
  cases hshape with
  | turn h =>
    rcases engineTurn_cases h with rfl | ⟨L, e, -, -, rfl⟩ | ⟨L, i, u, hL, hi, hu, rfl⟩
    · exact .inl ⟨rfl, rfl⟩
    · exact .inl ⟨rfl, rfl⟩
    · exact .inr ⟨L, i, es, u, hL, hi, hu, rfl, rfl⟩
  | idle host rest he hb h => subst h; exact .inl ⟨rfl, rfl⟩
  | wrote r w h => subst h; exact .inl (writeReg_slots_contexts r w _)
  | readWindow host addr rest he hw r hr h => subst h; exact .inl ⟨rfl, rfl⟩
  | readMem bs h => subst h; exact .inl ⟨rfl, rfl⟩
  | stored a bs hs h => subst h; exact .inl ⟨rfl, rfl⟩
  | raced h => subst h; exact .inl ⟨State.mark_keySlots .., State.mark_contexts ..⟩
  | reset rest he h => exact absurd he (hr rest)

/-- Settles O29: only the completion of a command writes slots and contexts, and each command only its own. -/
theorem whoWritesSlotsAndContexts : Obligations.WhoWritesSlotsAndContexts := by
  intro s t h hr
  rcases step_slots_contexts h hr with ⟨hk, hc⟩ | ⟨L, i, es, u, hL, hi, hu, hk, hc⟩
  · exact ⟨fun k hne => absurd (State.slot_congr hk k) hne,
      fun j hne => by simp [State.context_congr hc j] at hne,
      fun j hne => by simp [State.context_congr hc j] at hne⟩
  simp only [State.slot_congr hk, State.context_congr hc]
  refine ⟨fun k hne => ?_, fun j hne => ?_, fun j hne => ?_⟩
  · obtain ⟨kmp, rfl⟩ := exec_changes_slot hu hne
    exact ⟨L, kmp, hL, hi⟩
  · have hj : u.context j ≠ s.context j := fun heq => by simp [heq] at hne
    rcases exec_changes_context hu hj with ⟨ivp, rfl⟩ | ⟨-, hv, hm⟩
    · exact ⟨L, ivp, hL, hi⟩
    · exact absurd hne (not_or.mpr ⟨not_not.mpr hv, not_not.mpr hm⟩)
  · have hj : u.context j ≠ s.context j := fun heq => hne (by rw [heq])
    rcases exec_changes_context hu hj with ⟨ivp, rfl⟩ | ⟨⟨k, hik⟩, -, -⟩
    · exact ⟨L, hL, .inl ⟨ivp, hi⟩⟩
    · refine ⟨L, hL, .inr ⟨k, ?_⟩⟩
      simpa only [hi, Except.ok.injEq] using hik

end Sys2Proof.Machine
end

section
/-! The invariant of the machine is kept by every operation a step is made of, so by every step. -/

namespace Sys2Proof.Machine

/-- The invariant speaks of seven fields only. -/
theorem State.Inv.of_fields {s t : State} (hi : s.Inv) (hcfg : t.cfg = s.cfg) (hmem : t.mem = s.mem)
    (hslots : t.keySlots = s.keySlots) (hctx : t.contexts = s.contexts) (herr : t.err = s.err)
    (hcount : t.count = s.count) (hmarks : t.faultMarks = s.faultMarks) : t.Inv where
  cfgBounds := hcfg ▸ hi.cfgBounds
  memForm := hmem ▸ hi.memForm
  memAddrs := by rw [hmem, hcfg]; exact hi.memAddrs
  slots i := State.slot_congr hslots i ▸ hi.slots i
  absentSlots i h := by
    rw [State.slot_congr hslots]
    exact hi.absentSlots i (by simpa only [State.keyPresent, hcfg] using h)
  absentContexts j h := by
    rw [State.context_congr hctx]
    exact hi.absentContexts j (by simpa only [State.ctxPresent, hcfg] using h)
  errorCount := by rw [herr, hcount]; exact hi.errorCount
  countBound := hcount ▸ hi.countBound
  marksNodup := hmarks ▸ hi.marksNodup

/-- A reported error keeps the invariant: COUNT is 0 beside it (60_exceptions.md R262). -/
theorem State.Inv.raise {s : State} (hi : s.Inv) (e : ErrorKind) : (Machine.raise e s).Inv :=
  { hi with
    errorCount := fun _ => rfl
    countBound := by simp }

/-- A setup command that succeeds keeps the invariant: COUNT is 0. -/
theorem State.Inv.finish_zero {s : State} (hi : s.Inv) : (finish 0 s).Inv :=
  { hi with
    errorCount := fun _ => rfl
    countBound := by simp }

/-- The slot MAKEKEY builds is consistent (10_state.md R40). -/
theorem makeSlot_consistent (p : Primitive) {raw : Bytes} {ks : KeySize} (d : Direction)
    (h : raw.length = ks.bytes) : (makeSlot p raw ks d).Consistent p :=
  fun _ => ⟨raw, h, rfl⟩

/-- A consistent slot written at a present handle keeps the invariant. -/
theorem State.Inv.setSlot {s : State} (hi : s.Inv) {ksel : Nat} {k : KeySlot} (hp : s.keyPresent ksel = true)
    (hk : k.Consistent Config.primitive) : (s.setSlot ksel k).Inv :=
  { hi with
    slots := fun i => by
      rw [State.slot_setSlot]
      split
      · exact hk
      · exact hi.slots i
    absentSlots := fun i (h : s.keyPresent i = false) => by
      rw [State.slot_setSlot, if_neg fun hh => by simp [hh.1 ▸ hp] at h]
      exact hi.absentSlots i h }

/-- A context written at a present handle keeps the invariant. -/
theorem State.Inv.setContext {s : State} (hi : s.Inv) {csel : Nat} (x : Context) (hp : s.ctxPresent csel = true) :
    (s.setContext csel x).Inv :=
  { hi with
    absentContexts := fun j (h : s.ctxPresent j = false) => by
      rw [State.context_setContext, if_neg fun hh => by simp [hh.1 ▸ hp] at h]
      exact hi.absentContexts j h }

/-- Memory that stays canonical and inside system memory keeps the invariant. -/
theorem State.Inv.setMem {s : State} (hi : s.Inv) {m : Memory} (hm : m.wf = true)
    (ha : ∀ c ∈ m, isSystemAddr s.cfg c.1 = true) : (s.setMem m).Inv :=
  { hi with
    memForm := hm
    memAddrs := ha }

/-- A mark that joins the set keeps it one (10_state.md R51). -/
theorem State.Inv.mark {s : State} (hi : s.Inv) (f : FaultMark) : (s.mark f).Inv := by
  unfold State.mark
  split
  · exact hi
  · next hf =>
    exact { hi with marksNodup := List.nodup_cons.mpr ⟨hf, hi.marksNodup⟩ }

/-- MAKEKEY keeps the invariant. -/
theorem State.Inv.makekeyWith {s : State} (hi : s.Inv) (ksel : Nat) (kmp : Bool) (L : Latch) :
    (makekeyWith Config.primitive ksel kmp L s).Inv := by
  rcases makekeyWith_cases Config.primitive ksel kmp L s with ⟨e, h⟩ | ⟨d, ks, raw, hp, hraw, h⟩ <;> rw [h]
  · exact hi.raise e
  · exact (hi.setSlot hp (makeSlot_consistent _ d (hexDecode_length hraw))).finish_zero

/-- CIPHERINIT keeps the invariant. -/
theorem State.Inv.cipherinitWith {s : State} (hi : s.Inv) (csel : Nat) (ivp : Bool) (L : Latch) :
    (cipherinitWith csel ivp L s).Inv := by
  rcases cipherinitWith_cases csel ivp L s with ⟨e, h⟩ | ⟨m, iv, hp, h⟩ <;> rw [h]
  · exact hi.raise e
  · exact (hi.setContext _ hp).finish_zero

/-- An admitted data effect keeps the invariant. -/
theorem State.Inv.dataEffect {s : State} (hi : s.Inv) {csel : Nat} {e : Effect} (he : DataEffect csel s e)
    (ha : e.fp.admitted s.cfg = true) : e.after.Inv where
  cfgBounds := he.same.cfg ▸ hi.cfgBounds
  memForm := he.memForm hi.memForm
  memAddrs c hc := by
    rw [he.same.cfg]
    exact (he.listed ha c hc).elim id (hi.memAddrs c)
  slots i := State.slot_congr he.slots i ▸ hi.slots i
  absentSlots i h := by
    rw [State.slot_congr he.slots]
    exact hi.absentSlots i (by simpa only [State.keyPresent, he.same.cfg] using h)
  absentContexts j h := by
    obtain ⟨r, hr⟩ := he.contexts
    have hv := hi.absentContexts j (by simpa only [State.ctxPresent, he.same.cfg] using h)
    obtain ⟨hother, hvalid, -⟩ := State.context_of_setReg_contexts hr
    by_cases hj : j = csel
    · subst hj; rw [hvalid, hv]
    · rw [hother j hj, hv]
  errorCount := he.errorCount
  countBound := he.countBound
  marksNodup := he.same.faultMarks ▸ hi.marksNodup

/-- A completed data command keeps the invariant and the parameters. -/
theorem State.Inv.exec_data {s t : State} (hi : s.Inv) {i : Instr} {csel : Nat} (f : Latch → Effect)
    (hf : ∀ L, dataEffectOf i L s = some (csel, f L)) (h : exec i s = .next t) : t.Inv ∧ t.cfg = s.cfg := by
  obtain ⟨L, hL⟩ := exec_next_latch h
  obtain ⟨ha, rfl⟩ := exec_data_next hL (hf L) h
  have he := dataEffectOf_dataEffect (hf L)
  exact ⟨hi.dataEffect he ha, he.same.cfg⟩

theorem makekeyWith_cfg (p : Primitive) (ksel : Nat) (kmp : Bool) (L : Latch) (s : State) :
    (makekeyWith p ksel kmp L s).cfg = s.cfg := by
  rcases makekeyWith_cases p ksel kmp L s with ⟨e, h⟩ | ⟨d, ks, raw, -, -, h⟩ <;> rw [h] <;> rfl

theorem cipherinitWith_cfg (csel : Nat) (ivp : Bool) (L : Latch) (s : State) :
    (cipherinitWith csel ivp L s).cfg = s.cfg := by
  rcases cipherinitWith_cases csel ivp L s with ⟨e, h⟩ | ⟨m, iv, -, h⟩ <;> rw [h] <;> rfl

/-- A completed command keeps the invariant and the parameters. -/
theorem State.Inv.exec {s t : State} (hi : s.Inv) {i : Instr} (h : exec i s = .next t) : t.Inv ∧ t.cfg = s.cfg := by
  cases i with
  | makekey ksel kmp =>
    obtain ⟨L, -, rfl⟩ := exec_makekey_next h
    exact ⟨hi.makekeyWith .., makekeyWith_cfg ..⟩
  | cipherinit csel ivp =>
    obtain ⟨L, -, rfl⟩ := exec_cipherinit_next h
    exact ⟨hi.cipherinitWith .., cipherinitWith_cfg ..⟩
  | blkenc ksel csel | blkdec ksel csel | padenc ksel csel | paddec ksel csel =>
    exact hi.exec_data _ (fun _ => rfl) h

/-- The engine's turn keeps the invariant and the parameters. -/
theorem State.Inv.engineTurn {s t : State} (hi : s.Inv) (h : engineTurn s = .next t) : t.Inv ∧ t.cfg = s.cfg := by
  rcases engineTurn_cases h with rfl | ⟨L, e, -, -, rfl⟩ | ⟨L, i, u, -, -, hu, rfl⟩
  · exact ⟨hi, rfl⟩
  · exact ⟨hi.raise .badCommand, rfl⟩
  · obtain ⟨hinv, hcfg⟩ := hi.exec hu
    exact ⟨hinv.of_fields rfl rfl rfl rfl rfl rfl rfl, hcfg⟩

/-- A host's register write keeps the invariant and the parameters. -/
theorem State.Inv.writeReg {s : State} (hi : s.Inv) (r : Reg) (w : Word) :
    (writeReg r w s).Inv ∧ (writeReg r w s).cfg = s.cfg := by
  cases r with
  | cmd =>
    cases hb : s.busy
    · rw [writeReg_cmd_idle w hb]; exact ⟨hi.of_fields rfl rfl rfl rfl rfl rfl rfl, rfl⟩
    · rw [writeReg_cmd_busy w hb]; exact ⟨hi.of_fields rfl rfl rfl rfl rfl rfl rfl, rfl⟩
  | _ => exact ⟨hi.of_fields rfl rfl rfl rfl rfl rfl rfl, rfl⟩

/-- After a reset every slot is the reset one. -/
theorem State.slot_of_replicate {s : State} (h : s.keySlots = Vector.replicate 16 KeySlot.reset) (i : Nat) :
    s.slot i = KeySlot.reset := by
  by_cases hi : i < 16 <;> simp [State.slot, h, hi]

/-- After a reset every context is the reset one. -/
theorem State.context_of_replicate {s : State} (h : s.contexts = Vector.replicate 16 Context.reset) (j : Nat) :
    s.context j = Context.reset := by
  by_cases hj : j < 16 <;> simp [State.context, h, hj]

/-- The reset values meet the invariant under every parameters in bounds (10_state.md R58). -/
theorem State.resetWith_inv {c : Config} (hc : c.wf = true) : (State.resetWith c).Inv where
  cfgBounds := hc
  memForm := rfl
  memAddrs := by simp [State.resetWith]
  slots i := by
    rw [State.slot_of_replicate rfl]
    exact fun h => by simp [KeySlot.reset] at h
  absentSlots i _ := by rw [State.slot_of_replicate rfl]; rfl
  absentContexts j _ := by rw [State.context_of_replicate rfl]; rfl
  errorCount := fun _ => rfl
  countBound := by simp [State.resetWith]
  marksNodup := List.nodup_nil

/-- A reset gives a state that meets the invariant: the reset values, and memory in which bytes of system memory were
drawn (70_reset_and_hazards.md R290, R291). -/
theorem State.Inv.resetMachine {s : State} (hi : s.Inv) : (resetMachine s).Inv := by
  have hmem := (State.resetWith_inv hi.cfgBounds).setMem
    (Memory.wf_drawBytes s.cfg (abortSpan s).base s.draws (abortSpan s).len hi.memForm)
    (fun c hc => (Memory.mem_drawBytes hc).elim id (hi.memAddrs c))
  exact hmem.of_fields rfl rfl rfl rfl rfl rfl rfl

/-- A host's write of bytes of system memory keeps the invariant. -/
theorem State.Inv.writeBytes {s : State} (hi : s.Inv) {a : Nat} {bs : Bytes}
    (hs : ∀ x, Span.contains ⟨a, bs.length⟩ x = true → isSystemAddr s.cfg x = true) :
    (s.setMem (s.mem.writeBytes a bs)).Inv :=
  hi.setMem (Memory.wf_writeBytes bs a hi.memForm) fun c hc =>
    (Memory.mem_writeBytes hc).elim (fun h => hs c.1 (Span.contains_iff.mpr h)) (hi.memAddrs c)

theorem State.mark_cfg (s : State) (f : FaultMark) : (s.mark f).cfg = s.cfg := by
  unfold State.mark; split <;> rfl

/-- Settles O11, by the shapes a step can have: each is an operation that keeps the invariant. -/
theorem stepKeepsInvariant : Obligations.StepKeepsInvariant := by
  intro s t hi h
  obtain ⟨-, es, hshape⟩ := step_cases h
  have hu : ({ s with events := es } : State).Inv := hi.of_fields rfl rfl rfl rfl rfl rfl rfl
  cases hshape with
  | turn h => exact hu.engineTurn h
  | idle host rest he hb h => subst h; exact ⟨hu.of_fields rfl rfl rfl rfl rfl rfl rfl, rfl⟩
  | wrote r w h => subst h; exact hu.writeReg r w
  | readWindow host addr rest he hw r hr h => subst h; exact ⟨hu.of_fields rfl rfl rfl rfl rfl rfl rfl, rfl⟩
  | readMem bs h => subst h; exact ⟨hu.of_fields rfl rfl rfl rfl rfl rfl rfl, rfl⟩
  | stored a bs hs h => subst h; exact ⟨hu.writeBytes hs, rfl⟩
  | raced h => subst h; exact ⟨hu.mark .bufferRace, State.mark_cfg ..⟩
  | reset rest he h => subst h; exact ⟨hu.resetMachine, rfl⟩

/-- Settles O10: the reset state is the reset values under parameters in bounds. -/
theorem resetStateMeetsInvariant : Obligations.ResetStateMeetsInvariant :=
  State.resetWith_inv (by decide)

end Sys2Proof.Machine
end

section
/-! The register window as the hosts see it (10_state.md R32 to R39, R54 to R56). -/

namespace Sys2Proof.Machine

/-! ### Offsets and registers (10_state.md R32) -/

/-- The lowest offset that names the register. -/
def Reg.offset : Reg → Nat
  | .cmd => 0x000
  | .status => 0x004
  | .count => 0x008
  | .param => 0x00C
  | .src => 0x010
  | .dst => 0x014
  | .len => 0x018
  | .keymat j => 0x040 + 4 * j
  | .ivhex j => 0x080 + 4 * j
  | .reserved => 0x01C

/-- A register that takes a host's write as plain data: one of PARAM, SRC, DST, LEN, KEYMAT and IVHEX (10_state.md
R55). -/
def Reg.IsArgument : Reg → Prop
  | .param | .src | .dst | .len => True
  | .keymat j => j < 16
  | .ivhex j => j < 8
  | .cmd | .status | .count | .reserved => False

theorem Reg.ofOffset_keymat {j : Nat} (hj : j < 16) : Reg.ofOffset (0x040 + 4 * j) = .keymat j := by
  unfold Reg.ofOffset
  iterate 7 rw [if_neg (by omega)]
  rw [if_pos (by omega), show (0x040 + 4 * j - 0x040) / 4 = j by omega]

theorem Reg.ofOffset_ivhex {j : Nat} (hj : j < 8) : Reg.ofOffset (0x080 + 4 * j) = .ivhex j := by
  unfold Reg.ofOffset
  iterate 8 rw [if_neg (by omega)]
  rw [if_pos (by omega), show (0x080 + 4 * j - 0x080) / 4 = j by omega]

theorem Reg.ofOffset_reserved {off : Nat} (h : (0x01C ≤ off ∧ off < 0x040) ∨ 0x0A0 ≤ off) :
    Reg.ofOffset off = .reserved := by
  unfold Reg.ofOffset
  iterate 9 rw [if_neg (by omega)]

theorem Reg.ofOffset_eq_status_iff {off : Nat} : Reg.ofOffset off = .status ↔ off = 4 := by
  unfold Reg.ofOffset
  split_ifs <;> simp <;> omega

/-- An aligned offset that names a register is that register's. -/
theorem Reg.offset_ofOffset {off : Nat} (h4 : off % 4 = 0) (hr : Reg.ofOffset off ≠ .reserved) :
    (Reg.ofOffset off).offset = off := by
  revert hr
  unfold Reg.ofOffset
  split_ifs <;> simp [Reg.offset] <;> omega

/-- Two aligned offsets name one register only if they are equal, or both reserved. -/
theorem Reg.ofOffset_eq_iff {off off' : Nat} (h4 : off % 4 = 0) (h4' : off' % 4 = 0)
    (hr : Reg.ofOffset off ≠ .reserved) : Reg.ofOffset off' = Reg.ofOffset off ↔ off' = off := by
  refine ⟨fun h => ?_, fun h => h ▸ rfl⟩
  rw [← Reg.offset_ofOffset h4 hr, ← h, Reg.offset_ofOffset h4' (h ▸ hr)]

/-- An aligned offset of the character buffers is that of a KEYMAT word or of an IVHEX word (10_state.md R39). -/
theorem bufferOffset_cases {off : Nat} (h : 0x040 ≤ off ∧ off < 0x0A0 ∧ off % 4 = 0) :
    (∃ j, j < 16 ∧ off = 0x040 + 4 * j) ∨ ∃ j, j < 8 ∧ off = 0x080 + 4 * j := by
  by_cases hk : off < 0x080
  · exact .inl ⟨(off - 0x040) / 4, by omega, by omega⟩
  · exact .inr ⟨(off - 0x080) / 4, by omega, by omega⟩

/-! ### Accesses to the window (10_state.md R54, R55) -/

/-- An aligned 32-bit access at an offset of the window is admitted. -/
theorem windowAccessOk_offset (c : Config) {off : Nat} (h : off < 256) (h4 : off % 4 = 0) :
    windowAccessOk c (c.regBase + off) 4 = true := by
  simp [windowAccessOk, Config.inWindow, h, h4]

/-- A host's write at an offset of the window is one of the register R32 names there. -/
theorem hostRegWrite_offset (s : State) {off : Nat} (w : Word) (h : off < 256) (h4 : off % 4 = 0) :
    hostRegWrite (s.cfg.regBase + off) 4 w s = .next (writeReg (Reg.ofOffset off) w s) := by
  rw [hostRegWrite, if_pos (windowAccessOk_offset s.cfg h h4), Nat.add_sub_cancel_left]

/-- What a host's read of the word `w` at offset `off` leaves: the log of reads holds `w`, and where it read STATUS of an
idle engine, the host has observed BUSY = 0 (70_reset_and_hazards.md R296). -/
def afterRead (host off : Nat) (w : Word) (s : State) : State :=
  if off = 4 ∧ s.busy = false then (s.observe (.word w)).seeIdle host else s.observe (.word w)

/-- A host's read at an offset of the window gives the register R32 names there. -/
theorem hostRegRead_offset (s : State) (host : Nat) {off : Nat} (h : off < 256) (h4 : off % 4 = 0) :
    hostRegRead host (s.cfg.regBase + off) 4 s = .next (afterRead host off (readReg (Reg.ofOffset off) s) s) := by
  rw [hostRegRead, if_pos (windowAccessOk_offset s.cfg h h4), Nat.add_sub_cancel_left]
  simp only [State.noteRead_eq, State.observe_busy, Reg.ofOffset_eq_status_iff, afterRead]

/-- An access that is not 32 bits wide or not aligned is refused. -/
theorem windowAccessOk_odd {c : Config} {addr width : Nat} (h : width ≠ 4 ∨ (addr - c.regBase) % 4 ≠ 0) :
    windowAccessOk c addr width = false := by
  rcases h with h | h <;> simp [windowAccessOk, h]

/-- A host's access by bytes that touches the window is refused. -/
theorem hostMemAccess_window {host : Nat} {r : Span} (f : State → State) {s : State} {j : Nat} (hj : j < r.len)
    (hw : s.cfg.inWindow (r.base + j) = true) : hostMemAccess host r f s = .refused .windowAccess :=
  if_pos (List.any_eq_true.mpr ⟨j, List.mem_range.mpr hj, hw⟩)

/-- Settles O18: neither kind of access passes its window check. -/
theorem oddWindowAccessIsRefused : Obligations.OddWindowAccessIsRefused := by
  refine ⟨fun s host addr width w _ hodd => ?_, fun s host addr j data hj hw => ⟨?_, ?_⟩⟩
  · have hok := Bool.eq_false_iff.mp (windowAccessOk_odd hodd)
    exact ⟨if_neg hok, if_neg hok⟩
  · exact hostMemAccess_window _ hj hw
  · exact hostMemAccess_window _ hj hw

/-! ### What a host reads -/

/-- A register reads alike in two states with the same readable registers, BUSY among them (10_state.md R42, R47, R50:
slots, contexts and the latched record are not readable). -/
theorem readReg_withKeyState (r : Reg) (s : State) (ks : Vector KeySlot 16) (cs : Vector Context 16)
    (L : Option Latch) (hL : L.isSome = s.latch.isSome) :
    readReg r { s with keySlots := ks, contexts := cs, latch := L } = readReg r s := by
  cases r with
  | status => simp only [readReg, State.status, State.busy, hL]
  | _ => rfl

/-- Settles O19: the window check, the word read and what the host observes see BUSY, and nothing else of what differs. -/
theorem keyStateIsNotReadable : Obligations.KeyStateIsNotReadable := by
  intro s t ks cs L host addr width hL h
  have hbusy : ({ s with keySlots := ks, contexts := cs, latch := L } : State).busy = s.busy := hL
  unfold hostRegRead at h ⊢
  split at h
  · next hok =>
    injection h with h
    rw [if_pos hok, ← h]
    simp only [readReg_withKeyState _ s ks cs L hL, State.noteRead, State.observe_busy, hbusy]
    rfl
  · cases h

/-! ### The STATUS word (10_state.md R34) -/

/-- The value of the STATUS word. -/
theorem State.toNat_status (s : State) :
    s.status.toNat = 16 * s.err.code.toNat + 2 * s.drop.toNat + s.busy.toNat := by
  show (BitVec.ofNat 24 0 ++ s.err.code ++ BitVec.ofNat 2 0 ++ BitVec.ofBool s.drop ++ BitVec.ofBool s.busy).toNat = _
  simp only [toNat_append, BitVec.toNat_ofNat, BitVec.toNat_ofBool]
  omega

/-- A field of the STATUS word, by value. -/
theorem State.status_field (s : State) (start len : Nat) : (s.status.extractLsb' start len).toNat =
    (16 * s.err.code.toNat + 2 * s.drop.toNat + s.busy.toNat) / 2 ^ start % 2 ^ len := by
  rw [BitVec.extractLsb'_toNat, State.toNat_status, Nat.shiftRight_eq_div_pow]

/-- The codes of the error kinds (60_exceptions.md R260), as the statement lists them. -/
theorem Result.code_eq (r : Result) : r.code =
    match r with
    | .success => 0
    | .failed .badKeyDirection => 1
    | .failed .badKeyMaterial => 2
    | .failed .badKeyInstance => 3
    | .failed .badCipherMode => 4
    | .failed .badCipherState => 5
    | .failed .badCipherInstance => 7
    | .failed .badData => 8
    | .failed .badCommand => 15 := by
  cases r with
  | success => rfl
  | failed e => cases e <;> rfl

/-- Settles O16, by the value of the STATUS word. -/
theorem statusWordLayout : Obligations.StatusWordLayout := by
  intro s host
  have hread := hostRegRead_offset s host (off := 4) (by omega) (by omega)
  have hcode := s.err.code.isLt
  have hdrop := s.drop.toNat_lt
  have hbusy := s.busy.toNat_lt
  refine ⟨fun hb => ?_, fun hb => ?_, ?_, ?_, ?_, ?_, ?_⟩
  · rw [hread, afterRead, if_neg (by simp [hb])]; rfl
  · rw [hread, afterRead, if_pos ⟨rfl, hb⟩]; rfl
  · show s.status.getLsbD 0 = s.busy
    rw [BitVec.getLsbD, s.toNat_status, Nat.testBit_eq_decide_div_mod_eq]
    cases hb : s.busy <;> simp <;> omega
  · rw [BitVec.getLsbD, s.toNat_status, Nat.testBit_eq_decide_div_mod_eq]
    cases hd : s.drop <;> simp <;> omega
  · apply BitVec.eq_of_toNat_eq
    rw [s.status_field]
    show _ = 0
    omega
  · apply BitVec.eq_of_toNat_eq
    rw [s.status_field]
    show _ = 0
    omega
  · refine Eq.trans (BitVec.eq_of_toNat_eq ?_) s.err.code_eq
    rw [s.status_field]
    omega

/-! ### Writes to CMD (10_state.md R56) -/

theorem keymatChars_getElem? (ws : Vector Word 16) {c : Nat} (hc : c < 64) :
    (keymatChars ws)[c]? = some (charAt ws c) := by
  simp [keymatChars, hc]

theorem ivhexChars_getElem? (ws : Vector Word 8) {c : Nat} (hc : c < 32) :
    (ivhexChars ws)[c]? = some (charAt ws c) := by
  simp [ivhexChars, hc]

/-- Settles O14: offset 0 names CMD, whose two writes the model gives as a drop and an acceptance. -/
theorem cmdWriteAcceptsOrDrops : Obligations.CmdWriteAcceptsOrDrops := by
  intro s w rest hf he
  have hstep : step s = .next (writeReg .cmd w { s with events := rest }) := by
    rw [step_cons hf he]
    exact hostRegWrite_offset { s with events := rest } (off := 0) w (by omega) (by omega)
  rw [hstep]
  refine ⟨fun hb => ?_, fun hb => ⟨s.latchFor w, ?_, rfl, rfl, rfl, rfl, rfl, ?_, ?_⟩⟩
  · exact congrArg _ (writeReg_cmd_busy (s := { s with events := rest }) w hb)
  · exact congrArg _ (writeReg_cmd_idle (s := { s with events := rest }) w hb)
  · exact fun c hc => keymatChars_getElem? s.keymat hc
  · exact fun c hc => ivhexChars_getElem? s.ivhex hc

/-! ### Writes to the other registers (10_state.md R55) -/

/-- A write to an argument register leaves all that is not one. -/
theorem writeReg_argument_frame {r : Reg} (hr : r.IsArgument) (w : Word) (s : State) :
    (writeReg r w s).cfg = s.cfg ∧ (writeReg r w s).latch = s.latch ∧ (writeReg r w s).drop = s.drop ∧
      (writeReg r w s).err = s.err ∧ (writeReg r w s).count = s.count ∧
      (writeReg r w s).keySlots = s.keySlots ∧ (writeReg r w s).contexts = s.contexts ∧
      (writeReg r w s).mem = s.mem := by
  cases r with
  | cmd | status | count | reserved => exact hr.elim
  | _ => exact ⟨rfl, rfl, rfl, rfl, rfl, rfl, rfl, rfl⟩

/-- A written word of KEYMAT or IVHEX is that word; the other words stay. -/
theorem getElem?_setIfInBounds_word {n : Nat} (ws : Vector Word n) {j : Nat} (hj : j < n) (w : Word) :
    (ws.setIfInBounds j w)[j]? = some w ∧ ∀ j', j' ≠ j → (ws.setIfInBounds j w)[j']? = ws[j']? :=
  ⟨by simp [hj], fun j' hne => Vector.getElem?_setIfInBounds_ne hne.symm⟩

/-- The word read from a buffer after one of its words was written. -/
theorem getD_setIfInBounds_word {n : Nat} (ws : Vector Word n) {j : Nat} (hj : j < n) (w : Word) (j' : Nat) :
    (ws.setIfInBounds j w)[j']?.getD 0 = if j' = j then w else ws[j']?.getD 0 := by
  obtain ⟨hsame, hother⟩ := getElem?_setIfInBounds_word ws hj w
  split
  · next h => rw [h, hsame]; rfl
  · next h => rw [hother j' h]

/-- An argument register written reads back, and every other register reads as before. -/
theorem readReg_writeReg {r : Reg} (hr : r.IsArgument) (r' : Reg) (w : Word) (s : State) :
    readReg r' (writeReg r w s) = if r' = r then w else readReg r' s := by
  cases r with
  | cmd | status | count | reserved => exact hr.elim
  | keymat j =>
    cases r' with
    | keymat j' => simpa only [readReg, writeReg, Reg.keymat.injEq] using getD_setIfInBounds_word s.keymat hr w j'
    | _ => rfl
  | ivhex j =>
    cases r' with
    | ivhex j' => simpa only [readReg, writeReg, Reg.ivhex.injEq] using getD_setIfInBounds_word s.ivhex hr w j'
    | _ => rfl
  | param | src | dst | len => cases r' <;> rfl

/-- The offsets of the argument registers name argument registers, and lie aligned in the window. -/
theorem argumentOffset_spec {off : Nat} (h : off = 0x00C ∨ off = 0x010 ∨ off = 0x014 ∨ off = 0x018 ∨
    (0x040 ≤ off ∧ off < 0x0A0 ∧ off % 4 = 0)) :
    (Reg.ofOffset off).IsArgument ∧ off < 256 ∧ off % 4 = 0 := by
  refine ⟨?_, by omega, by omega⟩
  rcases h with rfl | rfl | rfl | rfl | hbuf
  iterate 4 exact trivial
  rcases bufferOffset_cases hbuf with ⟨j, hj, rfl⟩ | ⟨j, hj, rfl⟩
  · rw [Reg.ofOffset_keymat hj]; exact hj
  · rw [Reg.ofOffset_ivhex hj]; exact hj

/-- After a write to an argument register, every aligned read of the window gives what R55 says. -/
theorem hostRegRead_writeReg {s : State} {off : Nat} (w : Word) (hr : (Reg.ofOffset off).IsArgument)
    (h4 : off % 4 = 0) (host : Nat) {off' : Nat} (hlt' : off' < 256) (h4' : off' % 4 = 0) :
    hostRegRead host (s.cfg.regBase + off') 4 (writeReg (Reg.ofOffset off) w s) =
      .next (afterRead host off' (if off' = off then w else readReg (Reg.ofOffset off') s)
        (writeReg (Reg.ofOffset off) w s)) := by
  have hnamed : Reg.ofOffset off ≠ .reserved := fun h => by rw [h] at hr; exact hr
  obtain ⟨hcfg, -⟩ := writeReg_argument_frame hr w s
  rw [← hcfg, hostRegRead_offset _ host hlt' h4', readReg_writeReg hr]
  simp only [Reg.ofOffset_eq_iff h4 h4' hnamed]

/-- A read of a buffer word that exists. -/
theorem hostRegRead_keymat {s : State} (host : Nat) {j : Nat} {w : Word} (h : s.keymat[j]? = some w) :
    hostRegRead host (s.cfg.regBase + (0x040 + 4 * j)) 4 s = .next (afterRead host (0x040 + 4 * j) w s) := by
  obtain ⟨hj, -⟩ := Vector.getElem?_eq_some_iff.mp h
  rw [hostRegRead_offset s host (by omega) (by omega), Reg.ofOffset_keymat hj, readReg, h]
  rfl

theorem hostRegRead_ivhex {s : State} (host : Nat) {j : Nat} {w : Word} (h : s.ivhex[j]? = some w) :
    hostRegRead host (s.cfg.regBase + (0x080 + 4 * j)) 4 s = .next (afterRead host (0x080 + 4 * j) w s) := by
  obtain ⟨hj, -⟩ := Vector.getElem?_eq_some_iff.mp h
  rw [hostRegRead_offset s host (by omega) (by omega), Reg.ofOffset_ivhex hj, readReg, h]
  rfl

/-- Settles O15, register by register: what R32 names at each offset, and what a write and a read of it do. -/
theorem registerWritesStoreAndReadBack : Obligations.RegisterWritesStoreAndReadBack := by
  refine ⟨fun s off w hoff => ?_, fun s host => ?_, fun s off w hoff => ?_, fun s host off hoff => ?_⟩
  · obtain ⟨hr, hlt, h4⟩ := argumentOffset_spec hoff
    obtain ⟨-, hframe⟩ := writeReg_argument_frame hr w s
    refine ⟨_, hostRegWrite_offset s w hlt h4, fun host off' hlt' h4' => hostRegRead_writeReg w hr h4 host hlt' h4',
      ?_, ?_, ?_, ?_, fun j hj hoffj => ?_, fun j hj hoffj => ?_, fun hlow => ?_, fun hbuf => ?_, hframe⟩
    iterate 4 (rintro rfl; rfl)
    · rw [hoffj, Reg.ofOffset_keymat hj]
      exact getElem?_setIfInBounds_word s.keymat hj w
    · rw [hoffj, Reg.ofOffset_ivhex hj]
      exact getElem?_setIfInBounds_word s.ivhex hj w
    · rcases hoff with rfl | rfl | rfl | rfl | hoff
      iterate 4 exact ⟨rfl, rfl⟩
      omega
    · rcases bufferOffset_cases ⟨hbuf, by omega, h4⟩ with ⟨j, hj, rfl⟩ | ⟨j, hj, rfl⟩
      · rw [Reg.ofOffset_keymat hj]
        exact ⟨rfl, rfl, rfl, rfl, fun _ => rfl, fun h => by omega⟩
      · rw [Reg.ofOffset_ivhex hj]
        exact ⟨rfl, rfl, rfl, rfl, fun h => by omega, fun _ => rfl⟩
  · have hread {off : Nat} (hlt : off < 256) (h4 : off % 4 = 0) := hostRegRead_offset s host hlt h4
    exact ⟨hread (by omega) rfl, hread (by omega) rfl, hread (by omega) rfl, hread (by omega) rfl,
      hread (by omega) rfl, hread (by omega) rfl, fun j w h => hostRegRead_keymat host h,
      fun j w h => hostRegRead_ivhex host h⟩
  · rw [hostRegWrite_offset s w (by omega) (by omega)]
    rcases hoff with rfl | rfl | hoff | hoff
    · rfl
    · rfl
    · rw [Reg.ofOffset_reserved (.inl ⟨hoff.1, hoff.2.1⟩)]; rfl
    · rw [Reg.ofOffset_reserved (.inr hoff.1)]; rfl
  · rw [hostRegRead_offset s host (by omega) (by omega), afterRead, if_neg (by omega)]
    rcases hoff with rfl | hoff | hoff
    · rfl
    · rw [Reg.ofOffset_reserved (.inl ⟨hoff.1, hoff.2.1⟩)]; rfl
    · rw [Reg.ofOffset_reserved (.inr hoff.1)]; rfl

end Sys2Proof.Machine
end

section
/-! What a running command reads: the latched record, never the argument registers (10_state.md R50), and on an ECB
context never the feedback register (10_state.md R45). -/

namespace Sys2Proof.Machine

/-- The effect with another state left. -/
def Effect.map (g : State → State) (e : Effect) : Effect := ⟨e.fp, g e.after⟩

/-- A data command whose effect from `g s` is its effect from `s`, with `g` applied, answers that from `g s`. -/
theorem exec_data_map {g : State → State} {i : Instr} {s t : State} {L : Latch} {csel : Nat} {e : Effect}
    (hL : s.latch = some L) (hgL : (g s).latch = s.latch) (hgc : (g s).cfg = s.cfg)
    (hi : dataEffectOf i L s = some (csel, e)) (hgi : dataEffectOf i L (g s) = some (csel, e.map g))
    (h : exec i s = .next t) : exec i (g s) = .next (g t) := by
  obtain ⟨ha, rfl⟩ := exec_data_next hL hi h
  rw [exec_data (hgL.trans hL) hgi, hgc]
  exact Effect.commit_of_admitted ha

/-! ### The argument registers -/

/-- `s` with the argument registers of `a`. -/
def State.withArgs (a s : State) : State :=
  { s with param := a.param, src := a.src, dst := a.dst, len := a.len, keymat := a.keymat, ivhex := a.ivhex }

variable (a : State)

theorem checkHandles_withArgs (ksel csel : Nat) (s : State) :
    checkHandles ksel csel (a.withArgs s) = checkHandles ksel csel s := rfl

theorem runPaddec_withArgs (p : Primitive) (k : KeySlot) (m : Mode) (csel : Nat) (reg : Block) (L : Latch) (s : State) :
    runPaddec p k m csel reg L (a.withArgs s) = (runPaddec p k m csel reg L s).map a.withArgs := by
  have hcfg : (a.withArgs s).cfg = s.cfg := rfl
  have hlast : paddecLast p k m reg L (a.withArgs s) = paddecLast p k m reg L s := rfl
  rw [runPaddec_eq, runPaddec_eq, hcfg, hlast]
  split <;> rfl

theorem blkencWith_withArgs (p : Primitive) (ksel csel : Nat) (L : Latch) (s : State) :
    blkencWith p ksel csel L (a.withArgs s) = (blkencWith p ksel csel L s).map a.withArgs := by
  unfold blkencWith
  rw [checkHandles_withArgs]
  split
  · rfl
  · split_ifs <;> rfl

theorem blkdecWith_withArgs (p : Primitive) (ksel csel : Nat) (L : Latch) (s : State) :
    blkdecWith p ksel csel L (a.withArgs s) = (blkdecWith p ksel csel L s).map a.withArgs := by
  unfold blkdecWith
  rw [checkHandles_withArgs]
  split
  · rfl
  · split_ifs <;> rfl

theorem padencWith_withArgs (p : Primitive) (ksel csel : Nat) (L : Latch) (s : State) :
    padencWith p ksel csel L (a.withArgs s) = (padencWith p ksel csel L s).map a.withArgs := by
  unfold padencWith
  rw [checkHandles_withArgs]
  split
  · rfl
  · split_ifs <;> rfl

theorem paddecWith_withArgs (p : Primitive) (ksel csel : Nat) (L : Latch) (s : State) :
    paddecWith p ksel csel L (a.withArgs s) = (paddecWith p ksel csel L s).map a.withArgs := by
  unfold paddecWith
  rw [checkHandles_withArgs]
  split
  · rfl
  · split_ifs
    iterate 4 rfl
    exact runPaddec_withArgs ..

theorem makekeyWith_withArgs (p : Primitive) (ksel : Nat) (kmp : Bool) (L : Latch) (s : State) :
    makekeyWith p ksel kmp L (a.withArgs s) = a.withArgs (makekeyWith p ksel kmp L s) := by
  have hslot : makekeySlot p ksel kmp L (a.withArgs s) = makekeySlot p ksel kmp L s := rfl
  unfold makekeyWith
  rw [hslot]
  split <;> rfl

theorem cipherinitWith_withArgs (csel : Nat) (ivp : Bool) (L : Latch) (s : State) :
    cipherinitWith csel ivp L (a.withArgs s) = a.withArgs (cipherinitWith csel ivp L s) := by
  have hcontext : cipherinitContext csel ivp L (a.withArgs s) = cipherinitContext csel ivp L s := rfl
  unfold cipherinitWith
  rw [hcontext]
  split <;> rfl

theorem dataEffectOf_withArgs (i : Instr) (L : Latch) (s : State) :
    dataEffectOf i L (a.withArgs s) = (dataEffectOf i L s).map (Prod.map id (Effect.map a.withArgs)) := by
  cases i <;> simp [dataEffectOf, blkencWith_withArgs, blkdecWith_withArgs, padencWith_withArgs, paddecWith_withArgs]

/-- A completed command does the same whatever the argument registers hold, and keeps them. -/
theorem exec_withArgs {i : Instr} {s t : State} (h : exec i s = .next t) :
    exec i (a.withArgs s) = .next (a.withArgs t) := by
  obtain ⟨L, hL⟩ := exec_next_latch h
  have hdata := dataEffectOf_withArgs a i L s
  have hL' : (a.withArgs s).latch = some L := hL
  cases i with
  | makekey ksel kmp =>
    rw [exec_of_latch hL] at h
    injection h with h
    rw [exec_of_latch hL', ← h]
    exact congrArg _ (makekeyWith_withArgs ..)
  | cipherinit csel ivp =>
    rw [exec_of_latch hL] at h
    injection h with h
    rw [exec_of_latch hL', ← h]
    exact congrArg _ (cipherinitWith_withArgs ..)
  | blkenc ksel csel | blkdec ksel csel | padenc ksel csel | paddec ksel csel =>
    exact exec_data_map hL rfl rfl rfl hdata h

/-- Settles O20: each command's meaning commutes with other argument registers. -/
theorem runningCommandIgnoresArgumentRegisters : Obligations.RunningCommandIgnoresArgumentRegisters := by
  intro i s t param src dst len keymat ivhex h
  exact exec_withArgs { s with param := param, src := src, dst := dst, len := len, keymat := keymat, ivhex := ivhex } h

/-! ### The feedback register of an ECB context -/

/-- A block function that hands the feedback register on, as those of ECB mode do (41_block.md R186). -/
def keepReg (g : Block → Block) (reg B : Block) : Block × Block := (reg, g B)

theorem encBlock_ecb (p : Primitive) (k : KeySlot) : encBlock p k .ecb = keepReg (p.fwd k.rk k.nr) := rfl

theorem decBlock_ecb (p : Primitive) (k : KeySlot) : decBlock p k .ecb = keepReg (p.inv k.rk k.nr) := rfl

/-- The loop over such a function writes the same memory from every feedback register, and hands it on. -/
theorem runBlocks_keepReg (g : Block → Block) (src dst : Nat) (m : Memory) (reg r : Block) (n : Nat) :
    runBlocks (keepReg g) src dst ⟨m, r⟩ n = ⟨(runBlocks (keepReg g) src dst ⟨m, reg⟩ n).mem, r⟩ := by
  induction n with
  | zero => rfl
  | succ n ih => rw [runBlocks_succ, ih, runBlocks_succ]; rfl

/-- The feedback register written last is the one that stays, whatever was written before. -/
theorem State.setMem_setReg_overwrite (s : State) (csel : Nat) (m : Memory) (reg r : Block) :
    ((s.setReg csel r).setMem m).setReg csel r = ((s.setMem m).setReg csel reg).setReg csel r := by
  rw [State.setMem_setReg, State.setReg_setReg, State.setReg_setReg]

theorem Effect.finish_setReg (fp : Footprint) (n csel : Nat) (m : Memory) (reg r : Block) (s : State) :
    (⟨fp, finish n (((s.setReg csel r).setMem m).setReg csel r)⟩ : Effect) =
      Effect.map (·.setReg csel r) ⟨fp, finish n ((s.setMem m).setReg csel reg)⟩ :=
  congrArg (fun t => (⟨fp, finish n t⟩ : Effect)) (State.setMem_setReg_overwrite s csel m reg r)

theorem runBlk_setReg (g : Block → Block) (csel : Nat) (reg r : Block) (L : Latch) (s : State) :
    runBlk (keepReg g) csel r L (s.setReg csel r) = (runBlk (keepReg g) csel reg L s).map (·.setReg csel r) := by
  rw [runBlk_eq, runBlk_eq, State.setReg_mem, runBlocks_keepReg g _ _ _ reg r]
  exact Effect.finish_setReg ..

theorem runPadenc_setReg (g : Block → Block) (csel : Nat) (reg r : Block) (L : Latch) (s : State) :
    runPadenc (keepReg g) csel r L (s.setReg csel r) =
      (runPadenc (keepReg g) csel reg L s).map (·.setReg csel r) := by
  have hfinal : finalBlock (keepReg g) r L (s.setReg csel r) = finalBlock (keepReg g) reg L s := by
    unfold finalBlock
    rw [State.setReg_mem, runBlocks_keepReg g _ _ _ reg r]
  rw [runPadenc_eq, runPadenc_eq, hfinal, State.setReg_mem, runBlocks_keepReg g _ _ _ reg r]
  exact Effect.finish_setReg ..

theorem padFailure_setReg (csel nb : Nat) (reg r : Block) (L : Latch) (s : State) :
    padFailure .ecb csel r nb L (s.setReg csel r) = (padFailure .ecb csel reg nb L s).map (·.setReg csel r) := by
  have hover := State.setMem_setReg_overwrite s csel
    (s.mem.drawBytes s.cfg L.dstAddr s.draws (16 * (nb - 1))) reg r
  exact congrArg (fun t : State => (⟨⟨⟨L.srcAddr, 16 * nb⟩, ⟨L.dstAddr, 16 * (nb - 1)⟩⟩,
    raise .badData { t with draws := s.draws + 16 * (nb - 1) + 1 }⟩ : Effect)) hover

theorem runPaddec_setReg (p : Primitive) (k : KeySlot) (csel : Nat) (reg r : Block) (L : Latch) (s : State) :
    runPaddec p k .ecb csel r L (s.setReg csel r) =
      (runPaddec p k .ecb csel reg L s).map (·.setReg csel r) := by
  have hchain : paddecChain p k .ecb r L (s.setReg csel r) = ⟨(paddecChain p k .ecb reg L s).mem, r⟩ :=
    runBlocks_keepReg (p.inv k.rk k.nr) L.srcAddr L.dstAddr s.mem reg r _
  have hin : paddecLastInput p k .ecb r L (s.setReg csel r) = paddecLastInput p k .ecb reg L s := by
    unfold paddecLastInput
    rw [hchain]
  have hlast : paddecLast p k .ecb r L (s.setReg csel r) = paddecLast p k .ecb reg L s := by
    unfold paddecLast
    rw [hin]
    rfl
  rw [runPaddec_eq, runPaddec_eq, hlast, hchain, hin, State.setReg_cfg]
  split
  · exact Effect.finish_setReg ..
  · exact padFailure_setReg ..

theorem handlesReady_setReg {s : State} {ksel csel : Nat} (r : Block) :
    HandlesReady (s.setReg csel r) ksel csel ↔ HandlesReady s ksel csel := by
  obtain ⟨-, hvalid, -⟩ := State.context_of_setReg_contexts (s := s) (csel := csel) (r := r) rfl
  exact ⟨fun ⟨h1, h2, h3, h4⟩ => ⟨h1, h2, h3, hvalid ▸ h4⟩, fun ⟨h1, h2, h3, h4⟩ => ⟨h1, h2, h3, hvalid.trans h4⟩⟩

/-- The handle check finds the context with its new feedback register. -/
theorem checkHandles_setReg (ksel csel : Nat) (r : Block) (s : State) : checkHandles ksel csel (s.setReg csel r) =
    (checkHandles ksel csel s).map fun kx => (kx.1, { kx.2 with reg := r }) := by
  rcases checkHandles_cases ksel csel s with ⟨hready, h⟩ | ⟨hnot, h⟩
  · rw [h, checkHandles_ready ((handlesReady_setReg r).mpr hready), State.context_setReg,
      if_pos ⟨rfl, State.context_lt_of_valid hready.ctxValid⟩]
    rfl
  · rcases checkHandles_cases ksel csel (s.setReg csel r) with ⟨hready, -⟩ | ⟨-, h'⟩
    · exact absurd ((handlesReady_setReg r).mp hready) hnot
    · rw [h, h']; rfl

section
variable {s : State} {csel : Nat} (hm : (s.context csel).mode = .ecb)
include hm

theorem blkencWith_setReg (p : Primitive) (ksel : Nat) (r : Block) (L : Latch) :
    blkencWith p ksel csel L (s.setReg csel r) = (blkencWith p ksel csel L s).map (·.setReg csel r) := by
  unfold blkencWith
  rw [checkHandles_setReg]
  rcases checkHandles_cases ksel csel s with ⟨-, h⟩ | ⟨-, h⟩ <;> rw [h]
  · simp only [Except.map, hm, encBlock_ecb]
    split_ifs
    iterate 2 rfl
    exact runBlk_setReg ..
  · rfl

theorem blkdecWith_setReg (p : Primitive) (ksel : Nat) (r : Block) (L : Latch) :
    blkdecWith p ksel csel L (s.setReg csel r) = (blkdecWith p ksel csel L s).map (·.setReg csel r) := by
  unfold blkdecWith
  rw [checkHandles_setReg]
  rcases checkHandles_cases ksel csel s with ⟨-, h⟩ | ⟨-, h⟩ <;> rw [h]
  · simp only [Except.map, hm, decBlock_ecb]
    split_ifs
    iterate 2 rfl
    exact runBlk_setReg ..
  · rfl

theorem padencWith_setReg (p : Primitive) (ksel : Nat) (r : Block) (L : Latch) :
    padencWith p ksel csel L (s.setReg csel r) = (padencWith p ksel csel L s).map (·.setReg csel r) := by
  unfold padencWith
  rw [checkHandles_setReg]
  rcases checkHandles_cases ksel csel s with ⟨-, h⟩ | ⟨-, h⟩ <;> rw [h]
  · simp only [Except.map, hm, encBlock_ecb, reduceCtorEq, if_false]
    split_ifs
    iterate 2 rfl
    exact runPadenc_setReg ..
  · rfl

theorem paddecWith_setReg (p : Primitive) (ksel : Nat) (r : Block) (L : Latch) :
    paddecWith p ksel csel L (s.setReg csel r) = (paddecWith p ksel csel L s).map (·.setReg csel r) := by
  unfold paddecWith
  rw [checkHandles_setReg]
  rcases checkHandles_cases ksel csel s with ⟨-, h⟩ | ⟨-, h⟩ <;> rw [h]
  · simp only [Except.map, hm, reduceCtorEq, if_false]
    split_ifs
    iterate 3 rfl
    exact runPaddec_setReg ..
  · rfl

/-- The effect of a data command on an ECB context commutes with a write of its feedback register. -/
theorem dataEffectOf_setReg {i : Instr} {L : Latch} {e : Effect} (r : Block)
    (hi : dataEffectOf i L s = some (csel, e)) :
    dataEffectOf i L (s.setReg csel r) = some (csel, e.map (·.setReg csel r)) := by
  cases i with
  | makekey ksel kmp | cipherinit c ivp => cases hi
  | blkenc ksel c | blkdec ksel c | padenc ksel c | paddec ksel c =>
    cases hi
    simp only [dataEffectOf, blkencWith_setReg hm, blkdecWith_setReg hm, padencWith_setReg hm, paddecWith_setReg hm]

/-- A completed data command on an ECB context does the same from every feedback register, and keeps it. -/
theorem exec_setReg {i : Instr} {t : State} {L : Latch} {e : Effect} (hL : s.latch = some L)
    (hi : dataEffectOf i L s = some (csel, e)) (h : exec i s = .next t) (r : Block) :
    exec i (s.setReg csel r) = .next (t.setReg csel r) :=
  exec_data_map (g := (·.setReg csel r)) hL rfl rfl hi (dataEffectOf_setReg hm r hi) h

/-- A completed data command on an ECB context writes no context: running it from the feedback register the context
already has, it keeps that one. -/
theorem exec_ecb_contexts {i : Instr} {t : State} {L : Latch} {e : Effect} (hL : s.latch = some L)
    (hi : dataEffectOf i L s = some (csel, e)) (h : exec i s = .next t) : t.contexts = s.contexts := by
  have hsame := exec_setReg hm hL hi h (s.context csel).reg
  rw [State.setReg_self, h] at hsame
  injection hsame with hkept
  obtain ⟨-, r, hr⟩ := exec_data_contexts hL hi h
  calc t.contexts = (t.setReg csel (s.context csel).reg).contexts := congrArg State.contexts hkept
    _ = ((s.setReg csel r).setReg csel (s.context csel).reg).contexts := State.setReg_contexts_congr _ _ hr
    _ = s.contexts := by rw [State.setReg_setReg, State.setReg_self]

end

/-- Settles O53: ECB mode hands the feedback register on, so the effect commutes with a write of it. -/
theorem ecbNeitherReadsNorWritesFeedback : Obligations.EcbNeitherReadsNorWritesFeedback := by
  intro s t ksel csel r hm i hi h
  obtain ⟨L, hL⟩ := exec_next_latch h
  obtain ⟨e, he⟩ : ∃ e, dataEffectOf i L s = some (csel, e) := by
    simp only [List.mem_cons, List.not_mem_nil, or_false] at hi
    rcases hi with rfl | rfl | rfl | rfl <;> exact ⟨_, rfl⟩
  exact ⟨exec_ecb_contexts hm hL he h, exec_setReg hm hL he h r⟩

end Sys2Proof.Machine
end

section
/-! The engine's turn and the reset, as steps of the machine (10_state.md R57, R58). -/

namespace Sys2Proof.Machine

/-! ### The engine's turn (10_state.md R57) -/

/-- On the engine's turn, and with no event left, the step is the engine's turn. -/
theorem step_engineTurn {s : State} {rest : List Event} (hf : s.faultMarks = [])
    (he : s.events = .engine :: rest ∨ (s.events = [] ∧ rest = [])) :
    step s = engineTurn { s with events := rest } := by
  rcases he with he | ⟨he, rfl⟩
  · exact step_cons hf he
  · rw [step_nil hf he, ← he]

/-- The step of a state with a command word loaded is the engine's turn in the state that accepted the word. -/
theorem step_withFetchWord (s : State) (nbits w : Nat) : step (s.withFetchWord nbits w) =
    engineTurn { s.accept (tableWord nbits w) with faultMarks := [] } :=
  step_cons (s := s.withFetchWord nbits w) (rest := s.events) rfl rfl

theorem tableWord_full (w : Nat) : tableWord 32 w = BitVec.ofNat 32 w :=
  BitVec.eq_of_toNat_eq (by simp [tableWord])

theorem decode_of_decodeTableWord {nbits w : Nat} {i : Instr} (h : decodeTableWord nbits w = some i) :
    decode (tableWord nbits w) = .ok i := by
  unfold decodeTableWord at h
  split at h
  · next j hj => injection h with h; rw [hj, h]
  · cases h

/-- Settles O5: either way the step is the engine's turn, whose cases are known. -/
theorem stepRunsLatchedCommand : Obligations.StepRunsLatchedCommand := by
  refine ⟨fun s L i rest hf hL hi he => ?_, fun s u t w i L hw hu hL ht => ?_⟩
  · rw [step_engineTurn hf he]
    refine ⟨fun t ht => ?_, fun ht => engineTurn_stuck (s := { s with events := rest }) hL hi ht⟩
    rw [engineTurn_next (s := { s with events := rest }) hL hi ht, commandFootprint_withEvents]
  · have hword : L.cmd = tableWord 32 w := by
      rw [hu] at hL
      injection hL with hL
      rw [← hL, tableWord_full]
      rfl
    have hi : decode L.cmd = .ok i := hword ▸ decode_of_decodeTableWord hw
    rw [step_withFetchWord, tableWord_full, ← hu, engineTurn_next hL hi ht]

/-! ### Reset (10_state.md R58) -/

/-- The registers, slots and contexts have the values of 10_state.md R58. -/
structure HasResetValues (t : State) : Prop where
  drop : t.drop = false
  err : t.err = .success
  count : t.count = 0
  param : t.param = 0
  src : t.src = 0
  dst : t.dst = 0
  len : t.len = 0
  keymat : t.keymat = Vector.replicate 16 0
  ivhex : t.ivhex = Vector.replicate 8 0
  latch : t.latch = none
  keySlots : t.keySlots = Vector.replicate 16 KeySlot.reset
  contexts : t.contexts = Vector.replicate 16 Context.reset
  faultMarks : t.faultMarks = []

theorem resetWith_hasResetValues (c : Config) : HasResetValues (State.resetWith c) :=
  ⟨rfl, rfl, rfl, rfl, rfl, rfl, rfl, rfl, rfl, rfl, rfl, rfl, rfl⟩

theorem resetMachine_hasResetValues (s : State) : HasResetValues (resetMachine s) :=
  ⟨rfl, rfl, rfl, rfl, rfl, rfl, rfl, rfl, rfl, rfl, rfl, rfl, rfl⟩

theorem HasResetValues.busy {t : State} (h : HasResetValues t) : t.busy = false := by
  rw [State.busy, h.latch]; rfl

theorem HasResetValues.status {t : State} (h : HasResetValues t) : t.status = 0 := by
  rw [State.status, h.err, h.drop, h.busy]; rfl

theorem HasResetValues.keymat_word {t : State} (h : HasResetValues t) {j : Nat} (hj : j < 16) :
    t.keymat[j]? = some 0 := by
  rw [h.keymat, Vector.getElem?_replicate, if_pos hj]

theorem HasResetValues.ivhex_word {t : State} (h : HasResetValues t) {j : Nat} (hj : j < 8) :
    t.ivhex[j]? = some 0 := by
  rw [h.ivhex, Vector.getElem?_replicate, if_pos hj]

theorem HasResetValues.slot_invalid {t : State} (h : HasResetValues t) (i : Nat) : (t.slot i).valid = false := by
  rw [State.slot_of_replicate h.keySlots]; rfl

theorem HasResetValues.context_invalid {t : State} (h : HasResetValues t) (j : Nat) :
    (t.context j).valid = false := by
  rw [State.context_of_replicate h.contexts]; rfl

/-- A reset of an idle machine leaves memory alone (70_reset_and_hazards.md R291). -/
theorem resetMachine_mem_idle {s : State} (hb : s.busy = false) : (resetMachine s).mem = s.mem := by
  have hlatch : s.latch = none := by simpa [State.busy] using hb
  simp [resetMachine, abortSpan, hlatch, Span.none, Memory.drawBytes]

/-- Settles O9: what a reset leaves and the reset state have the same reset values. -/
theorem resetGivesResetValues : Obligations.ResetGivesResetValues := by
  refine ⟨fun s rest hf he => ⟨resetMachine { s with events := rest }, step_cons hf he, ?_⟩, ?_⟩
  · have h := resetMachine_hasResetValues { s with events := rest }
    exact ⟨h.busy, h.drop, h.err, h.status, h.count, h.param, h.src, h.dst, h.len, fun _ => h.keymat_word,
      fun _ => h.ivhex_word, h.latch, h.slot_invalid, h.context_invalid, h.faultMarks,
      fun hb => resetMachine_mem_idle (s := { s with events := rest }) hb⟩
  · have h : HasResetValues State.reset := resetWith_hasResetValues _
    exact ⟨h.busy, h.drop, h.err, h.status, h.count, h.param, h.src, h.dst, h.len, fun _ => h.keymat_word,
      fun _ => h.ivhex_word, h.latch, h.faultMarks, h.slot_invalid, h.context_invalid⟩

end Sys2Proof.Machine
end

section
/-! The bytes a command accesses, and what follows from them: its frame, its completion, its being stuck (20_memory.md
R80, R83, R84, R86). -/

namespace Sys2Proof.Machine

/-! ### A command by its kind -/

/-- MAKEKEY completes, and writes no register, flag or mark but ERR, COUNT and BUSY (60_exceptions.md R262). -/
theorem makekeyWith_completes (p : Primitive) (ksel : Nat) (kmp : Bool) (L : Latch) (s : State) :
    SameRegisters s (makekeyWith p ksel kmp L s) ∧ (makekeyWith p ksel kmp L s).latch = none := by
  rcases makekeyWith_cases p ksel kmp L s with ⟨e, h⟩ | ⟨d, ks, raw, -, -, h⟩ <;> rw [h]
  · exact ⟨raise_sameRegisters e s, rfl⟩
  · exact ⟨by constructor <;> rfl, rfl⟩

/-- CIPHERINIT completes, and writes no register, flag or mark but ERR, COUNT and BUSY. -/
theorem cipherinitWith_completes (csel : Nat) (ivp : Bool) (L : Latch) (s : State) :
    SameRegisters s (cipherinitWith csel ivp L s) ∧ (cipherinitWith csel ivp L s).latch = none := by
  rcases cipherinitWith_cases csel ivp L s with ⟨e, h⟩ | ⟨m, iv, -, h⟩ <;> rw [h]
  · exact ⟨raise_sameRegisters e s, rfl⟩
  · exact ⟨by constructor <;> rfl, rfl⟩

/-- A setup command accesses no byte, and completes whatever is admitted (20_memory.md R80, R84). -/
theorem exec_setup {i : Instr} {s : State} {L : Latch} (hL : s.latch = some L) (hi : dataEffectOf i L s = none) :
    commandFootprint i L s = Footprint.none ∧
      ∃ t, exec i s = .next t ∧ (SameRegisters s t ∧ t.latch = none) ∧ t.mem = s.mem := by
  rw [exec_of_latch hL]
  cases i with
  | makekey ksel kmp => exact ⟨rfl, _, rfl, makekeyWith_completes .., (makekeyWith_frame ..).2.1⟩
  | cipherinit csel ivp => exact ⟨rfl, _, rfl, cipherinitWith_completes .., (cipherinitWith_frame ..).2.1⟩
  | blkenc ksel csel | blkdec ksel csel | padenc ksel csel | paddec ksel csel => cases hi

/-- A command that completes clears BUSY and writes no register but ERR and COUNT (60_exceptions.md R262). -/
theorem exec_next_completes {i : Instr} {s t : State} (h : exec i s = .next t) :
    SameRegisters s t ∧ t.latch = none := by
  obtain ⟨L, hL⟩ := exec_next_latch h
  cases hi : dataEffectOf i L s with
  | none =>
    obtain ⟨-, u, hu, hdone, -⟩ := exec_setup hL hi
    rw [h] at hu
    injection hu with hu
    rwa [hu]
  | some d =>
    obtain ⟨csel, e⟩ := d
    obtain ⟨-, rfl⟩ := exec_data_next hL hi h
    exact ⟨(dataEffectOf_dataEffect hi).same, (dataEffectOf_dataEffect hi).latch⟩

/-- Settles O23: a setup command writes no memory, a data command only within its range. -/
theorem commandWritesOnlyItsRange : Obligations.CommandWritesOnlyItsRange := by
  intro i s t L hm hL h a ha
  cases hi : dataEffectOf i L s with
  | none =>
    obtain ⟨-, u, hu, -, hmem⟩ := exec_setup hL hi
    rw [h] at hu
    injection hu with hu
    rw [hu, hmem]
  | some d =>
    obtain ⟨csel, e⟩ := d
    obtain ⟨-, rfl⟩ := exec_data_next hL hi h
    rw [commandFootprint_data hi] at ha
    exact (dataEffectOf_dataEffect hi).outside hm a ha

/-! ### Admission (20_memory.md R83, R84) -/

theorem Effect.commit_of_not_admitted {c : Config} {e : Effect} (h : e.fp.admitted c = false) :
    e.commit c = .fault .notAdmitted := by
  simp [Effect.commit, h]

/-- A latched command whose accesses are all admitted completes. -/
theorem exec_of_admitted {i : Instr} {s : State} {L : Latch} (hL : s.latch = some L)
    (ha : (commandFootprint i L s).admitted s.cfg = true) : ∃ t, exec i s = .next t ∧ t.latch = none := by
  cases hi : dataEffectOf i L s with
  | none =>
    obtain ⟨-, t, ht, -⟩ := exec_setup hL hi
    exact ⟨t, ht, (exec_next_completes ht).2⟩
  | some d =>
    obtain ⟨csel, e⟩ := d
    rw [commandFootprint_data hi] at ha
    exact ⟨e.after, by rw [exec_data hL hi, Effect.commit_of_admitted ha], (dataEffectOf_dataEffect hi).latch⟩

/-- A latched command with an access that is not admitted has no step. -/
theorem exec_of_not_admitted {i : Instr} {s : State} {L : Latch} (hL : s.latch = some L)
    (ha : (commandFootprint i L s).admitted s.cfg = false) : exec i s = .fault .notAdmitted := by
  cases hi : dataEffectOf i L s with
  | none =>
    obtain ⟨hfp, -⟩ := exec_setup hL hi
    simp [hfp] at ha
  | some d =>
    obtain ⟨csel, e⟩ := d
    rw [commandFootprint_data hi] at ha
    rw [exec_data hL hi, Effect.commit_of_not_admitted ha]

/-- Settles O25: the two cases of whether the command's footprint is admitted. -/
theorem commandCompletesExactlyWhenAdmitted : Obligations.CommandCompletesExactlyWhenAdmitted := by
  intro i s L hL
  refine ⟨fun hall => ?_, fun hnot => ?_⟩
  · obtain ⟨t, ht, hlatch⟩ := exec_of_admitted hL (Footprint.admitted_iff.mpr hall)
    exact ⟨t, ht, by rw [State.busy, hlatch]; rfl⟩
  · exact exec_of_not_admitted hL (Bool.eq_false_iff.mpr (mt Footprint.admitted_iff.mp hnot))

/-- Only a byte of system memory is admitted. -/
theorem not_admitted_of_not_systemAddr {c : Config} {a : Nat} (h : isSystemAddr c a = false) (kind : AccessKind) :
    admitted c kind a = false := by
  simp [admitted, h]

/-- One byte that is not admitted is enough for the footprint not to be. -/
theorem Footprint.not_admitted {c : Config} {f : Footprint} {a : Nat}
    (h : (f.reads.contains a = true ∧ Machine.admitted c .read a = false) ∨
      (f.writes.contains a = true ∧ Machine.admitted c .write a = false)) : f.admitted c = false := by
  rw [Bool.eq_false_iff, ne_eq, Footprint.admitted_iff]
  intro hall
  rcases h with ⟨hin, hno⟩ | ⟨hin, hno⟩
  · rw [(hall a).1 hin] at hno; cases hno
  · rw [(hall a).2 hin] at hno; cases hno

/-- The turn of an engine whose command has an access that is not admitted changes nothing, whatever is still to
happen. -/
theorem engineTurn_not_admitted {s : State} {L : Latch} {i : Instr} (hL : s.latch = some L)
    (hi : decode L.cmd = .ok i) (ha : (commandFootprint i L s).admitted s.cfg = false) (es : List Event) :
    engineTurn { s with events := es } = .next { s with events := es } := by
  refine engineTurn_stuck (s := { s with events := es }) hL hi (exec_of_not_admitted hL ?_)
  rwa [commandFootprint_withEvents]

/-- The step of a machine whose host waits on a busy engine is the engine's turn, the host still waiting. -/
theorem step_wait_busy {s : State} {host : Nat} {rest : List Event} (hf : s.faultMarks = []) (hb : s.busy = true)
    (he : s.events = .wait host :: rest) : step s = engineTurn s := by
  rw [step_cons hf he]
  show hostWait host { s with events := rest } = engineTurn s
  rw [hostWait, State.busy_withEvents, if_pos hb, ← he]

/-- Settles O26: such a command's turn changes nothing, and its turn is what each of the three steps is. -/
theorem unadmittedCommandStaysStuck : Obligations.UnadmittedCommandStaysStuck := by
  refine ⟨fun c kind a h => not_admitted_of_not_systemAddr ?_ kind, fun s L i a hf hL hi h => ?_⟩
  · rcases h with h | h <;> simp [isSystemAddr, h]
  have hturn := engineTurn_not_admitted hL hi (Footprint.not_admitted h)
  have hbusy : s.busy = true := by rw [State.busy, hL]; rfl
  refine ⟨fun rest he => ?_, fun host rest he => ?_, fun he => ?_⟩
  · rw [step_cons hf he]; exact hturn rest
  · rw [step_wait_busy hf hbusy he]; exact hturn s.events
  · rw [step_nil hf he]; exact hturn s.events

/-! ### The table of accesses (20_memory.md R86) -/

/-- The effect accesses `full` if the command succeeds with a positive length `n`, and otherwise nothing. -/
def Effect.AccessesOnSuccess (n : Nat) (full : Footprint) (e : Effect) : Prop :=
  if e.after.err = .success ∧ 0 < n then e.fp = full else e.fp = Footprint.none

theorem Effect.AccessesOnSuccess.stop_raise (n : Nat) (full : Footprint) (k : ErrorKind) (s : State) :
    (Effect.stop (raise k s)).AccessesOnSuccess n full :=
  (if_neg fun h => nomatch h.1).mpr rfl

theorem Effect.AccessesOnSuccess.stop_finish {n : Nat} (hn : n = 0) (full : Footprint) (s : State) :
    (Effect.stop (finish 0 s)).AccessesOnSuccess n full :=
  (if_neg fun h => absurd h.2 (by omega)).mpr rfl

theorem Effect.AccessesOnSuccess.of_finish {n : Nat} (hn : 0 < n) {full : Footprint} (m : Nat) (s : State) :
    (Effect.mk full (finish m s)).AccessesOnSuccess n full :=
  (if_pos ⟨rfl, hn⟩).mpr rfl

/-- The bytes BLKENC and BLKDEC access: their whole blocks. -/
theorem blkencWith_accesses (p : Primitive) (ksel csel : Nat) (L : Latch) (s : State) :
    (blkencWith p ksel csel L s).AccessesOnSuccess L.length.toNat
      ⟨⟨L.srcAddr, 16 * blockCount L⟩, ⟨L.dstAddr, 16 * blockCount L⟩⟩ := by
  rcases blkencWith_cases p ksel csel L s with ⟨-, h⟩ | ⟨-, -, h⟩ | ⟨-, -, hl, h⟩ | ⟨-, -, hl, h⟩ <;> rw [h]
  · exact .stop_raise ..
  · exact .stop_raise ..
  · exact .stop_finish (by omega) ..
  · exact .of_finish (by omega) ..

theorem blkdecWith_accesses (p : Primitive) (ksel csel : Nat) (L : Latch) (s : State) :
    (blkdecWith p ksel csel L s).AccessesOnSuccess L.length.toNat
      ⟨⟨L.srcAddr, 16 * blockCount L⟩, ⟨L.dstAddr, 16 * blockCount L⟩⟩ := by
  rcases blkdecWith_cases p ksel csel L s with ⟨-, h⟩ | ⟨-, -, h⟩ | ⟨-, -, hl, h⟩ | ⟨-, -, hl, h⟩ <;> rw [h]
  · exact .stop_raise ..
  · exact .stop_raise ..
  · exact .stop_finish (by omega) ..
  · exact .of_finish (by omega) ..

/-- The bytes PADENC accesses: its input, and as much output as the padded length. -/
theorem padencWith_accesses (p : Primitive) (ksel csel : Nat) (L : Latch) (s : State) :
    (padencWith p ksel csel L s).AccessesOnSuccess L.length.toNat
      ⟨⟨L.srcAddr, L.length.toNat⟩, ⟨L.dstAddr, 16 * (L.length.toNat / 16 + 1)⟩⟩ := by
  rcases padencWith_cases p ksel csel L s with
    ⟨-, h⟩ | ⟨-, -, h⟩ | ⟨-, -, hl, h⟩ | ⟨-, -, -, -, h⟩ | ⟨-, -, hl, -, h⟩ <;> rw [h]
  · exact .stop_raise ..
  · exact .stop_raise ..
  · exact .stop_finish (by omega) ..
  · exact .stop_raise ..
  · exact .of_finish (by omega) ..

/-- The effect accesses what a PADDEC of length `n` does: on success its input and its output up to COUNT, on a padding
failure (the one BadData of whole blocks) its input and all blocks of output but the last, and otherwise nothing. -/
def Effect.AccessesUnpadded (n src dst : Nat) (e : Effect) : Prop :=
  if e.after.err = .success ∧ 0 < n then e.fp = ⟨⟨src, 16 * (n / 16)⟩, ⟨dst, e.after.count.toNat⟩⟩
  else if e.after.err = .failed .badData ∧ n % 16 = 0 then
    e.fp = ⟨⟨src, 16 * (n / 16)⟩, ⟨dst, 16 * (n / 16 - 1)⟩⟩
  else e.fp = Footprint.none

/-- An error other than that one accesses nothing. -/
theorem Effect.AccessesUnpadded.stop_raise {n : Nat} {k : ErrorKind} (hk : ¬ (k = .badData ∧ n % 16 = 0))
    (src dst : Nat) (s : State) : (Effect.stop (raise k s)).AccessesUnpadded n src dst := by
  refine (if_neg fun h => nomatch h.1).mpr ((if_neg fun h => hk ?_).mpr rfl)
  simpa [Effect.stop] using h

theorem Effect.AccessesUnpadded.stop_finish {n : Nat} (hn : n = 0) (src dst : Nat) (s : State) :
    (Effect.stop (finish 0 s)).AccessesUnpadded n src dst :=
  (if_neg fun h => absurd h.2 (by omega)).mpr ((if_neg fun h => nomatch h.1).mpr rfl)

theorem runPaddec_accesses (p : Primitive) (k : KeySlot) (m : Mode) (csel : Nat) (reg : Block) (L : Latch) (s : State)
    (hl : 0 < L.length) (h16 : L.length % 16 = 0) :
    (runPaddec p k m csel reg L s).AccessesUnpadded L.length.toNat L.srcAddr L.dstAddr := by
  have hlt := L.length_lt
  rw [runPaddec_eq]
  split
  · refine (if_pos ⟨rfl, by omega⟩).mpr ?_
    rw [finish_count, BitVec.toNat_ofNat, Nat.mod_eq_of_lt (by omega)]
  · exact (if_neg fun h => nomatch h.1).mpr ((if_pos ⟨rfl, by omega⟩).mpr rfl)

/-- The bytes PADDEC accesses. -/
theorem paddecWith_accesses (p : Primitive) (ksel csel : Nat) (L : Latch) (s : State) :
    (paddecWith p ksel csel L s).AccessesUnpadded L.length.toNat L.srcAddr L.dstAddr := by
  rcases paddecWith_cases p ksel csel L s with
    ⟨-, h⟩ | ⟨-, -, h⟩ | ⟨-, -, hl, h⟩ | ⟨-, -, hl, h16, h⟩ | ⟨-, -, -, -, -, h⟩ | ⟨-, -, hl, h16, -, h⟩ <;> rw [h]
  · exact .stop_raise (by simp) ..
  · exact .stop_raise (by simp) ..
  · exact .stop_finish (by omega) ..
  · exact .stop_raise (by omega) ..
  · exact .stop_raise (by simp) ..
  · exact runPaddec_accesses _ _ _ _ _ _ _ hl h16

/-- Settles O24, by the table of each command's effect. -/
theorem accessedBytesTable : Obligations.AccessedBytesTable := by
  intro i s t L hL h
  cases i with
  | makekey ksel kmp | cipherinit csel ivp => exact (exec_setup hL rfl).1
  | blkenc ksel csel =>
    obtain ⟨-, rfl⟩ := exec_data_next hL rfl h
    exact blkencWith_accesses ..
  | blkdec ksel csel =>
    obtain ⟨-, rfl⟩ := exec_data_next hL rfl h
    exact blkdecWith_accesses ..
  | padenc ksel csel =>
    obtain ⟨-, rfl⟩ := exec_data_next hL rfl h
    exact padencWith_accesses ..
  | paddec ksel csel =>
    obtain ⟨-, rfl⟩ := exec_data_next hL rfl h
    exact paddecWith_accesses ..

end Sys2Proof.Machine
end

section
/-! Buffer races: which bytes a host must not touch, and until when (20_memory.md R92, 70_reset_and_hazards.md R296). -/

namespace Sys2Proof.Machine

/-! ### What a step does to the list of ended commands (entry 21) -/

/-- The step lets the host observe BUSY = 0: the engine is idle, and the host waits or reads STATUS. -/
def State.Observes (s : State) (host : Nat) : Prop :=
  s.busy = false ∧ ∃ rest, s.events = .wait host :: rest ∨ s.events = .regRead host (s.cfg.regBase + 4) 4 :: rest

theorem State.busy_eq_false_iff {s : State} : s.busy = false ↔ s.latch = none := by
  cases h : s.latch <;> simp [State.busy, h]

/-- The one address of the window that reads STATUS. -/
theorem addr_of_status {c : Config} {addr : Nat} (hr : Reg.ofOffset (addr - c.regBase) = .status) :
    addr = c.regBase + 4 := by
  rw [Reg.ofOffset_eq_status_iff] at hr
  omega

/-- A host's register write never makes a busy engine idle, and observes nothing. -/
theorem writeReg_retired_latch (r : Reg) (w : Word) (s : State) :
    (writeReg r w s).retired = s.retired ∧ ((writeReg r w s).latch = none → s.latch = none) := by
  cases r with
  | cmd =>
    cases hb : s.busy
    · rw [writeReg_cmd_idle w hb]; exact ⟨rfl, fun _ => State.busy_eq_false_iff.mp hb⟩
    · rw [writeReg_cmd_busy w hb]; exact ⟨rfl, id⟩
  | _ => exact ⟨rfl, id⟩

@[simp] theorem State.mark_retired (s : State) (f : FaultMark) : (s.mark f).retired = s.retired := by
  unfold State.mark; split <;> rfl

@[simp] theorem State.mark_latch (s : State) (f : FaultMark) : (s.mark f).latch = s.latch := by
  unfold State.mark; split <;> rfl

/-- An illegal command accesses no byte (60_exceptions.md R265). -/
theorem runningFootprint_illegal {s : State} {L : Latch} {e : Reject} (hL : s.latch = some L)
    (hd : decode L.cmd = .error e) : runningFootprint s = Footprint.none := by
  simp [runningFootprint, hL, hd]

/-- A turn of the engine changes nothing, or ends the running command, which joins the ended ones with what it
accessed. -/
theorem engineTurn_retired_cases {s t : State} (h : engineTurn s = .next t) :
    t = s ∨ (t.latch = none ∧ t.retired = (s.retire (runningFootprint s)).retired) := by
  rcases engineTurn_cases h with rfl | ⟨L, e, hL, hd, rfl⟩ | ⟨L, i, u, hL, hi, hu, rfl⟩
  · exact .inl rfl
  · exact .inr ⟨rfl, by rw [runningFootprint_illegal hL hd]; rfl⟩
  · obtain ⟨hsame, hdone⟩ := exec_next_completes hu
    refine .inr ⟨hdone, ?_⟩
    rw [runningFootprint_of_latch hL hi, State.retire_retired, State.retire_retired, hsame.retired]

/-- What a step does to the commands that have ended: nothing, and then it ends none; or a host observes them; or the
step ends the running command, by completing or aborting it, and that one joins them if it accesses anything. -/
theorem step_retired_cases {s t : State} (h : step s = .next t) :
    (t.retired = s.retired ∧ (t.latch = none → s.latch = none)) ∨
    (∃ host, s.Observes host ∧ t.retired = s.retired.map (Retired.see host)) ∨
    (t.latch = none ∧ t.retired = (s.retire (runningFootprint s)).retired) := by
  obtain ⟨-, es, hshape⟩ := step_cases h
  cases hshape with
  | turn h =>
    rcases engineTurn_retired_cases h with rfl | ⟨hdone, hret⟩
    · exact .inl ⟨rfl, id⟩
    · rw [runningFootprint_withEvents] at hret
      exact .inr (.inr ⟨hdone, hret⟩)
  | idle host rest he hb h => subst h; exact .inr (.inl ⟨host, ⟨hb, rest, .inl he⟩, rfl⟩)
  | wrote r w h => subst h; exact .inl (writeReg_retired_latch r w _)
  | readWindow host addr rest he hw r hr h =>
    subst h hr
    by_cases hobs : Reg.ofOffset (addr - s.cfg.regBase) = .status ∧ s.busy = false
    · obtain ⟨hstatus, hb⟩ := hobs
      exact .inr (.inl ⟨host, ⟨hb, rest, .inr (addr_of_status hstatus ▸ he)⟩, if_pos ⟨hstatus, hb⟩⟩)
    · exact .inl ⟨if_neg hobs, id⟩
  | readMem bs h => subst h; exact .inl ⟨rfl, id⟩
  | stored a bs hs h => subst h; exact .inl ⟨rfl, id⟩
  | raced h => subst h; exact .inl ⟨State.mark_retired .., fun hl => by rwa [State.mark_latch] at hl⟩
  | reset rest he h =>
    subst h
    exact .inr (.inr ⟨rfl, by rw [← runningFootprint_withEvents s es]; rfl⟩)

/-- The running command's footprint comes from a command, where it has a byte. -/
theorem runningFootprint_source {s : State} (h : (runningFootprint s).isEmpty = false) :
    ∃ L i, s.latch = some L ∧ decode L.cmd = .ok i ∧ runningFootprint s = commandFootprint i L s := by
  cases hL : s.latch with
  | none => simp [runningFootprint, hL, Footprint.none, Footprint.isEmpty, Span.none] at h
  | some L =>
    cases hi : decode L.cmd with
    | error e =>
      rw [runningFootprint_illegal hL hi] at h
      cases h
    | ok i => exact ⟨L, i, rfl, hi, runningFootprint_of_latch hL hi⟩

/-- The ended commands, once the one with footprint `f` has joined them. -/
theorem State.mem_retire {s : State} {f : Footprint} {q : Retired} :
    q ∈ (s.retire f).retired ↔ q ∈ s.retired ∨ (f.isEmpty = false ∧ q = ⟨f, []⟩) := by
  rw [State.retire_retired]
  cases f.isEmpty <;> simp [or_comm]

/-! ### The race check -/

/-- The byte is one of those read or written. -/
def Footprint.Touches (f : Footprint) (b : Nat) : Prop := f.reads.contains b = true ∨ f.writes.contains b = true

theorem Footprint.Touches.not_isEmpty {f : Footprint} {b : Nat} (h : f.Touches b) : f.isEmpty = false := by
  simp only [Footprint.Touches, Span.contains_iff] at h
  simp only [Footprint.isEmpty, Bool.and_eq_false_iff, decide_eq_false_iff_not]
  omega

/-- A host's access with a byte of the running command, or of one whose end the host has not observed, races. -/
theorem races_of_touches {s : State} {host b : Nat} {r : Span} (hb : r.contains b = true)
    (h : (∃ L i, s.latch = some L ∧ decode L.cmd = .ok i ∧ (commandFootprint i L s).Touches b) ∨
      ∃ p ∈ s.retired, host ∉ p.seenBy ∧ p.fp.Touches b) : races s host r = true := by
  rw [races_iff]
  rcases h with ⟨L, i, hL, hi, ht⟩ | ⟨p, hp, hns, ht⟩
  · rw [runningFootprint_of_latch hL hi]
    exact .inl (Footprint.meets_iff.mpr ⟨b, hb, ht⟩)
  · exact .inr ⟨p, hp, hns, Footprint.meets_iff.mpr ⟨b, hb, ht⟩⟩

theorem races_withEvents (s : State) (es : List Event) (host : Nat) (r : Span) :
    races { s with events := es } host r = races s host r := by
  unfold races
  rw [runningFootprint_withEvents]

/-- A mark that joins none stands alone. -/
theorem State.mark_of_unmarked {s : State} (hf : s.faultMarks = []) (f : FaultMark) :
    s.mark f = { s with faultMarks := [f] } := by
  simp [State.mark, hf]

/-- The step of a host's memory access that races only records the race. -/
theorem step_race {s : State} {host addr : Nat} {data : Bytes} {rest : List Event} (hf : s.faultMarks = [])
    (he : s.events = .memWrite host addr data :: rest ∨ s.events = .memRead host addr data.length :: rest)
    (hs : ∀ j, j < data.length → isSystemAddr s.cfg (addr + j) = true)
    (hr : races s host ⟨addr, data.length⟩ = true) :
    step s = .next { s with events := rest, faultMarks := [.bufferRace] } := by
  have hsys (a : Nat) (ha : Span.contains ⟨addr, data.length⟩ a = true) : isSystemAddr s.cfg a = true := by
    rw [Span.contains_iff] at ha
    obtain ⟨j, rfl⟩ := Nat.exists_eq_add_of_le ha.1
    exact hs j (by simpa using ha.2)
  have hacc (f : State → State) : hostMemAccess host ⟨addr, data.length⟩ f { s with events := rest } =
      .next { s with events := rest, faultMarks := [.bufferRace] } := by
    rw [hostMemAccess_race (s := { s with events := rest }) f hsys (by rwa [races_withEvents]),
      State.mark_of_unmarked (s := { s with events := rest }) hf]
  rcases he with he | he <;> rw [step_cons hf he]
  · exact hacc fun u => u.setMem (u.mem.writeBytes addr data)
  · exact hacc fun u => u.observe (.bytes (u.mem.readBytes addr data.length))

/-- A step that lets a host observe BUSY = 0 leaves no ended command the host has not observed. -/
theorem step_observes {s : State} {host : Nat} (hf : s.faultMarks = []) (h : s.Observes host) :
    ∃ t, step s = .next t ∧ t.retired = s.retired.map (Retired.see host) := by
  obtain ⟨hb, rest, he | he⟩ := h
  · refine ⟨({ s with events := rest } : State).seeIdle host, ?_, rfl⟩
    rw [step_cons hf he]
    exact if_neg (Bool.eq_false_iff.mp hb)
  · refine ⟨_, (step_cons hf he).trans
      (hostRegRead_offset { s with events := rest } host (by decide : 4 < 256) (by decide)), ?_⟩
    rw [afterRead, if_pos ⟨rfl, hb⟩]
    rfl

/-- Settles O27: the race check says which accesses race, and the three things a step can do to the ended commands say
which commands those are. -/
theorem bufferRaceIsRecorded : Obligations.BufferRaceIsRecorded := by
  refine ⟨fun s host addr b data rest hf he hs hlo hhi htouch => ⟨?_, step_marked rfl⟩,
    fun s t L i b h hL hi hl htouch => ?_, fun s t host p h hp hns => ?_, fun s host hf hobs => ?_,
    fun s t host q h hq hns => ?_⟩
  · exact step_race hf he hs (races_of_touches (Span.contains_iff.mpr ⟨hlo, hhi⟩) htouch)
  · rcases step_retired_cases h with ⟨-, hkeep⟩ | ⟨host, ⟨hb, -⟩, -⟩ | ⟨-, hret⟩
    · rw [hkeep hl] at hL; cases hL
    · rw [State.busy_eq_false_iff.mp hb] at hL; cases hL
    · rw [runningFootprint_of_latch hL hi] at hret
      have hne := Footprint.Touches.not_isEmpty htouch
      exact ⟨_, hret ▸ State.mem_retire.mpr (.inr ⟨hne, rfl⟩), rfl, rfl⟩
  · rcases step_retired_cases h with ⟨hret, -⟩ | ⟨host', hobs, hret⟩ | ⟨-, hret⟩
    · exact .inr ⟨p, hret ▸ hp, rfl, hns⟩
    · by_cases hh : host = host'
      · exact .inl (hh ▸ hobs)
      · exact .inr ⟨p.see host', hret ▸ List.mem_map_of_mem hp, by simp, by simp [hh, hns]⟩
    · exact .inr ⟨p, hret ▸ State.mem_retire.mpr (.inl hp), rfl, hns⟩
  · obtain ⟨t, ht, hret⟩ := step_observes hf hobs
    refine ⟨t, ht, fun q hq => ?_⟩
    rw [hret] at hq
    obtain ⟨p, -, rfl⟩ := List.mem_map.mp hq
    simp
  · rcases step_retired_cases h with ⟨hret, -⟩ | ⟨host', -, hret⟩ | ⟨hl, hret⟩ <;> rw [hret] at hq
    · exact .inl ⟨q, hq, rfl, hns⟩
    · obtain ⟨p, hp, rfl⟩ := List.mem_map.mp hq
      exact .inl ⟨p, hp, by simp, fun hin => hns (by simp [hin])⟩
    · rcases State.mem_retire.mp hq with hq | ⟨hne, rfl⟩
      · exact .inl ⟨q, hq, rfl, hns⟩
      · obtain ⟨L, i, hL, hi, hfp⟩ := runningFootprint_source hne
        exact .inr ⟨L, i, hL, hi, hl, hfp⟩

end Sys2Proof.Machine
end

section
/-! The access order of the data commands on every pair of buffers, partial overlap included (20_memory.md R85, R87). -/

namespace Sys2Proof.Machine

/-! ### The blocks of a command, one after another -/

/-- `mems` and `regs` are the memories and the feedback registers between the first `n` blocks from `c` on: each block
is read whole in the memory the blocks before it left, computed, and written (20_memory.md R85). -/
def BlockChain (f : Block → Block → Block × Block) (src dst : Nat) (c : Chain) (mems : Nat → Memory)
    (regs : Nat → Block) (n : Nat) : Prop :=
  mems 0 = c.mem ∧ regs 0 = c.reg ∧ ∀ b, b < n →
    mems (b + 1) = (mems b).writeBlock (dst + 16 * b) (f (regs b) ((mems b).readBlock (src + 16 * b))).2 ∧
    regs (b + 1) = (f (regs b) ((mems b).readBlock (src + 16 * b))).1

/-- The memory after the first `b` blocks. -/
def memAfter (f : Block → Block → Block × Block) (src dst : Nat) (c : Chain) (b : Nat) : Memory :=
  (runBlocks f src dst c b).mem

/-- The feedback register after the first `b` blocks. -/
def regAfter (f : Block → Block → Block × Block) (src dst : Nat) (c : Chain) (b : Nat) : Block :=
  (runBlocks f src dst c b).reg

/-- The loop goes block by block, whatever the buffers share. -/
theorem runBlocks_blockChain (f : Block → Block → Block × Block) (src dst : Nat) (c : Chain) (n : Nat) :
    BlockChain f src dst c (memAfter f src dst c) (regAfter f src dst c) n :=
  ⟨rfl, rfl, fun b _ => ⟨stepBlock_mem f (src + 16 * b) (dst + 16 * b) (runBlocks f src dst c b),
    stepBlock_reg f (src + 16 * b) (dst + 16 * b) (runBlocks f src dst c b)⟩⟩

/-! ### Data commands whose accesses are admitted -/

/-- A footprint is admitted if each byte of its two ranges is. -/
theorem Footprint.admitted_of_bytes {c : Config} {src n dst m : Nat}
    (hr : ∀ j, j < n → Machine.admitted c .read (src + j) = true)
    (hw : ∀ j, j < m → Machine.admitted c .write (dst + j) = true) :
    (Footprint.mk ⟨src, n⟩ ⟨dst, m⟩).admitted c = true := by
  simp only [Footprint.admitted, Span.admitted, Bool.and_eq_true, List.all_eq_true, List.mem_range]
  exact ⟨hr, hw⟩

/-- A data command all of whose accesses are admitted completes with the state of its effect. -/
theorem exec_data_of_admitted {i : Instr} {s : State} {L : Latch} {csel : Nat} {e : Effect} (hL : s.latch = some L)
    (hi : dataEffectOf i L s = some (csel, e)) (ha : e.fp.admitted s.cfg = true) : exec i s = .next e.after := by
  rw [exec_data hL hi, Effect.commit_of_admitted ha]

/-! ### Commands that pass their checks -/

theorem blkencWith_processes {s : State} {L : Latch} {ksel csel : Nat} (p : Primitive) (h : HandlesReady s ksel csel)
    (hl : 0 < L.length) (hd : (s.slot ksel).dir = .encrypt) : blkencWith p ksel csel L s =
      runBlk (encBlock p (s.slot ksel) (s.context csel).mode) csel (s.context csel).reg L s := by
  rcases blkencWith_cases p ksel csel L s with ⟨hn, -⟩ | ⟨-, hn, -⟩ | ⟨-, -, hn, -⟩ | ⟨-, -, -, heq⟩
  · exact absurd h hn
  · exact absurd hd hn
  · omega
  · exact heq

theorem blkdecWith_processes {s : State} {L : Latch} {ksel csel : Nat} (p : Primitive) (h : HandlesReady s ksel csel)
    (hl : 0 < L.length) (hd : (s.slot ksel).dir = .decrypt ∨ (s.context csel).mode = .cfb1) :
    blkdecWith p ksel csel L s =
      runBlk (decBlock p (s.slot ksel) (s.context csel).mode) csel (s.context csel).reg L s := by
  rcases blkdecWith_cases p ksel csel L s with ⟨hn, -⟩ | ⟨-, ⟨hm, hn⟩, -⟩ | ⟨-, -, hn, -⟩ | ⟨-, -, -, heq⟩
  · exact absurd h hn
  · exact absurd hd (not_or.mpr ⟨hn, hm⟩)
  · omega
  · exact heq

theorem padencWith_processes {s : State} {L : Latch} {ksel csel : Nat} (p : Primitive) (h : HandlesReady s ksel csel)
    (hl : 0 < L.length) (hd : (s.slot ksel).dir = .encrypt) (hm : (s.context csel).mode ≠ .cfb1) :
    padencWith p ksel csel L s =
      runPadenc (encBlock p (s.slot ksel) (s.context csel).mode) csel (s.context csel).reg L s := by
  rcases padencWith_cases p ksel csel L s with
    ⟨hn, -⟩ | ⟨-, hn, -⟩ | ⟨-, -, hn, -⟩ | ⟨-, -, -, hn, -⟩ | ⟨-, -, -, -, heq⟩
  · exact absurd h hn
  · exact absurd hd hn
  · omega
  · exact absurd hn hm
  · exact heq

theorem paddecWith_processes {s : State} {L : Latch} {ksel csel : Nat} (p : Primitive) (h : HandlesReady s ksel csel)
    (hl : 0 < L.length) (hd : (s.slot ksel).dir = .decrypt) (h16 : L.length.toNat % 16 = 0)
    (hm : (s.context csel).mode ≠ .cfb1) : paddecWith p ksel csel L s =
      runPaddec p (s.slot ksel) (s.context csel).mode csel (s.context csel).reg L s := by
  rcases paddecWith_cases p ksel csel L s with
    ⟨hn, -⟩ | ⟨-, hn, -⟩ | ⟨-, -, hn, -⟩ | ⟨-, -, -, hn, -⟩ | ⟨-, -, -, -, hn, -⟩ | ⟨-, -, -, -, -, heq⟩
  · exact absurd h hn
  · exact absurd hd hn
  · omega
  · omega
  · exact absurd hn hm
  · exact heq

/-! ### BLKENC and BLKDEC -/

/-- What processing of BLKENC and BLKDEC leaves. -/
theorem runBlk_after (f : Block → Block → Block × Block) {csel : Nat} (hc : csel < 16) (reg : Block) (L : Latch)
    (s : State) :
    (runBlk f csel reg L s).after.mem = memAfter f L.srcAddr L.dstAddr ⟨s.mem, reg⟩ (blockCount L) ∧
    ((runBlk f csel reg L s).after.context csel).reg = regAfter f L.srcAddr L.dstAddr ⟨s.mem, reg⟩ (blockCount L) ∧
    (runBlk f csel reg L s).after.err = .success ∧
    (runBlk f csel reg L s).after.count.toNat = 128 * blockCount L := by
  have hlt := L.length_lt
  rw [runBlk_eq]
  refine ⟨rfl, ?_, rfl, ?_⟩
  · rw [context_finish, State.context_setReg, if_pos ⟨rfl, hc⟩]; rfl
  · rw [finish_count, BitVec.toNat_ofNat, Nat.mod_eq_of_lt (by unfold blockCount; omega)]

/-- A BLKENC or BLKDEC that is processed and admitted goes block by block. -/
theorem exec_blk_chain {i : Instr} {s : State} {L : Latch} {csel : Nat} {reg : Block}
    {f : Block → Block → Block × Block} (hL : s.latch = some L)
    (hi : dataEffectOf i L s = some (csel, runBlk f csel reg L s)) (hc : csel < 16)
    (ha : ∀ j, j < 16 * blockCount L →
      admitted s.cfg .read (L.srcAddr + j) = true ∧ admitted s.cfg .write (L.dstAddr + j) = true) :
    ∃ t mems regs, exec i s = .next t ∧ BlockChain f L.srcAddr L.dstAddr ⟨s.mem, reg⟩ mems regs (blockCount L) ∧
      t.mem = mems (blockCount L) ∧ (t.context csel).reg = regs (blockCount L) ∧ t.err = .success ∧
      t.count.toNat = 128 * blockCount L :=
  ⟨_, _, _, exec_data_of_admitted hL hi (Footprint.admitted_of_bytes (fun j hj => (ha j hj).1) fun j hj => (ha j hj).2),
    runBlocks_blockChain .., runBlk_after f hc reg L s⟩

/-- Settles O49: the memories and registers between the blocks are those of the loop. -/
theorem blockCommandsFollowAccessOrder : Obligations.BlockCommandsFollowAccessOrder := by
  intro s L ksel csel hL h hl nb k x ha
  have hc := State.context_lt_of_valid h.ctxValid
  refine ⟨fun hd => ?_, fun hd => ?_⟩
  · obtain ⟨t, mems, regs, hexec, ⟨hm0, hr0, hstep⟩, hend⟩ := exec_blk_chain (i := .blkenc ksel csel) hL
      (congrArg (fun e => some (csel, e)) (blkencWith_processes Config.primitive h hl hd)) hc ha
    exact ⟨t, mems, regs, hexec, hm0, hr0, hstep, hend⟩
  · obtain ⟨t, mems, regs, hexec, ⟨hm0, hr0, hstep⟩, hend⟩ := exec_blk_chain (i := .blkdec ksel csel) hL
      (congrArg (fun e => some (csel, e)) (blkdecWith_processes Config.primitive h hl hd)) hc ha
    exact ⟨t, mems, regs, hexec, hm0, hr0, hstep, hend⟩

/-! ### PADENC and PADDEC -/

/-- The last block of PADENC, with the count of its remaining input bytes as the remainder of the length. -/
theorem finalBlock_eq (f : Block → Block → Block × Block) (reg : Block) (L : Latch) (s : State) :
    finalBlock f reg L s =
      padBlock ((memAfter f L.srcAddr L.dstAddr ⟨s.mem, reg⟩ (L.length.toNat / 16)).readBytes
        (L.srcAddr + 16 * (L.length.toNat / 16)) (L.length.toNat % 16)) (16 - L.length.toNat % 16) := by
  rw [finalBlock, show L.length.toNat - 16 * (L.length.toNat / 16) = L.length.toNat % 16 by omega]
  rfl

theorem runPadenc_count (f : Block → Block → Block × Block) (csel : Nat) (reg : Block) (L : Latch) (s : State) :
    (runPadenc f csel reg L s).after.count.toNat = 16 * (L.length.toNat / 16 + 1) := by
  have hlt := L.length_lt
  rw [runPadenc_eq, finish_count, BitVec.toNat_ofNat, Nat.mod_eq_of_lt (by omega)]

/-- On the modes PADDEC takes, the feedback register after its last block is the one the block leaves. -/
theorem chainedReg_eq_decBlock (p : Primitive) (k : KeySlot) {m : Mode} (hm : m ≠ .cfb1) (reg C : Block) :
    chainedReg m reg C = (decBlock p k m reg C).1 := by
  cases m with
  | ecb | cbc => rfl
  | cfb1 => exact absurd rfl hm

/-- The bytes a PADDEC accesses are admitted if those of its two buffers are. -/
theorem runPaddec_admitted (p : Primitive) (k : KeySlot) (m : Mode) (csel : Nat) (reg : Block) {L : Latch} {s : State}
    (ha : ∀ j, j < L.length.toNat →
      admitted s.cfg .read (L.srcAddr + j) = true ∧ admitted s.cfg .write (L.dstAddr + j) = true) :
    (runPaddec p k m csel reg L s).fp.admitted s.cfg = true := by
  rw [runPaddec_eq]
  split <;> exact Footprint.admitted_of_bytes (fun j hj => (ha j (by omega)).1) fun j hj => (ha j (by omega)).2

/-- What processing of PADDEC leaves. -/
theorem runPaddec_after (p : Primitive) (k : KeySlot) {m : Mode} (hm : m ≠ .cfb1) {csel : Nat} (hc : csel < 16)
    (reg : Block) {L : Latch} (h16 : L.length.toNat % 16 = 0) (s : State) :
    let t := (runPaddec p k m csel reg L s).after
    let Q := paddecLast p k m reg L s
    if padOk s.cfg.ecbPadRule m Q = true then
      t.mem = (paddecChain p k m reg L s).mem.writeBytes (L.dstAddr + 16 * (L.length.toNat / 16 - 1))
        ((Block.toBytes Q).take (16 - (Block.byte Q 15).toNat)) ∧
      (t.context csel).reg = (decBlock p k m (paddecChain p k m reg L s).reg (paddecLastInput p k m reg L s)).1 ∧
      t.err = .success ∧ t.count.toNat = L.length.toNat - (Block.byte Q 15).toNat
    else t.err = .failed .badData ∧ t.count = 0 := by
  intro t Q
  have hlt := L.length_lt
  have ht : t = (runPaddec p k m csel reg L s).after := rfl
  rw [runPaddec_eq] at ht
  split
  · next hok =>
    rw [if_pos hok] at ht
    rw [ht]
    refine ⟨rfl, ?_, rfl, ?_⟩
    · rw [context_finish, State.context_setReg, if_pos ⟨rfl, hc⟩, ← chainedReg_eq_decBlock p k hm]
    · rw [finish_count, BitVec.toNat_ofNat, Nat.mod_eq_of_lt (by omega),
        Nat.mul_div_cancel' (Nat.dvd_of_mod_eq_zero h16)]
  · next hbad =>
    rw [if_neg hbad] at ht
    rw [ht]
    exact ⟨rfl, rfl⟩

/-- Settles O59: the blocks before the last are those of the loop, and the last is processed after them. -/
theorem paddedCommandsFollowAccessOrder : Obligations.PaddedCommandsFollowAccessOrder := by
  intro s L ksel csel hL h hm hl n nb src dst k x chain
  have hc := State.context_lt_of_valid h.ctxValid
  refine ⟨fun hd hr hw => ?_, fun hd h16 ha => ?_⟩ <;> intro f
  · have hi : dataEffectOf (.padenc ksel csel) L s = some (csel, runPadenc f csel x.reg L s) :=
      congrArg (fun e => some (csel, e)) (padencWith_processes Config.primitive h hl hd hm)
    refine ⟨_, _, _, exec_data_of_admitted hL hi (Footprint.admitted_of_bytes hr hw),
      runBlocks_blockChain f src dst ⟨s.mem, x.reg⟩ nb, ⟨?_, ?_⟩, rfl, runPadenc_count ..⟩
    · rw [runPadenc_mem, finalBlock_eq]; rfl
    · rw [runPadenc_reg _ _ _ _ _ hc, finalBlock_eq]; rfl
  · have hi : dataEffectOf (.paddec ksel csel) L s =
        some (csel, runPaddec Config.primitive k x.mode csel x.reg L s) :=
      congrArg (fun e => some (csel, e)) (paddecWith_processes Config.primitive h hl hd h16 hm)
    exact ⟨_, _, _, exec_data_of_admitted hL hi (runPaddec_admitted _ _ _ _ _ ha),
      runBlocks_blockChain f src dst ⟨s.mem, x.reg⟩ (nb - 1), runPaddec_after _ _ hm hc _ h16 _⟩

end Sys2Proof.Machine
end

section
/-! The command word: the decoder by opcode, the round trip through a word, and the bits a word leaves unread
(30_encoding.md R110 to R122). -/

namespace Sys2Proof

/-! ### The decoder, opcode by opcode (30_encoding.md R113, R114) -/

section Opcodes
variable {w : Word}

theorem decode_makekey (h : fieldOpc w = 1) : decode w = .ok (.makekey (fieldKsel w) (fieldKmp w)) := by
  simp [decode, h]

theorem decode_cipherinit (h : fieldOpc w = 2) : decode w = .ok (.cipherinit (fieldCsel w) (fieldIvp w)) := by
  simp [decode, h]

theorem decode_blkenc (h : fieldOpc w = 3) : decode w = .ok (.blkenc (fieldKsel w) (fieldCsel w)) := by
  simp [decode, h]

theorem decode_blkdec (h : fieldOpc w = 4) : decode w = .ok (.blkdec (fieldKsel w) (fieldCsel w)) := by
  simp [decode, h]

theorem decode_padenc (h : fieldOpc w = 5) : decode w = .ok (.padenc (fieldKsel w) (fieldCsel w)) := by
  simp [decode, h]

theorem decode_paddec (h : fieldOpc w = 6) : decode w = .ok (.paddec (fieldKsel w) (fieldCsel w)) := by
  simp [decode, h]

theorem decode_illegal (h : ¬ legalOpc w) : decode w = .error (.illegalOpcode (fieldOpc w)) := by
  have hne (c : BitVec 8) (hc : 1 ≤ c.toNat ∧ c.toNat ≤ 6) : fieldOpc w ≠ c := fun he => h (by rwa [legalOpc, he])
  unfold decode
  simp only [if_neg (hne 1 (by decide)), if_neg (hne 2 (by decide)), if_neg (hne 3 (by decide)),
    if_neg (hne 4 (by decide)), if_neg (hne 5 (by decide)), if_neg (hne 6 (by decide))]

end Opcodes

/-- Two words of one data command that agree on KSEL and CSEL spell the same. -/
theorem decode_congr_data {w v : Word} (hd : 3 ≤ (fieldOpc w).toNat) (ho : fieldOpc v = fieldOpc w)
    (hk : fieldKsel v = fieldKsel w) (hc : fieldCsel v = fieldCsel w) : decode v = decode w := by
  have h1 : fieldOpc w ≠ 1 := fun h => by rw [h] at hd; exact absurd hd (by decide)
  have h2 : fieldOpc w ≠ 2 := fun h => by rw [h] at hd; exact absurd hd (by decide)
  simp only [decode, ho, hk, hc, if_neg h1, if_neg h2]

/-! ### The round trip (30_encoding.md R110, R113) -/

theorem selectorOk_iff {sel : Nat} : selectorOk sel = true ↔ sel < 16 := decide_eq_true_iff

theorem fieldKsel_packWord_of_ok {ksel : Nat} (h : selectorOk ksel = true) (opc : BitVec 8) (csel : Nat)
    (kmp ivp : Bool) : fieldKsel (packWord opc ksel csel kmp ivp) = ksel := by
  rw [fieldKsel_packWord, Nat.mod_eq_of_lt (selectorOk_iff.mp h)]

theorem fieldCsel_packWord_of_ok {csel : Nat} (h : selectorOk csel = true) (opc : BitVec 8) (ksel : Nat)
    (kmp ivp : Bool) : fieldCsel (packWord opc ksel csel kmp ivp) = csel := by
  rw [fieldCsel_packWord, Nat.mod_eq_of_lt (selectorOk_iff.mp h)]

/-- Settles O1: each command's opcode selects its own arm of the decoder, which reads back the fields the encoder
packed. -/
theorem decodeEncodeRoundTrip : Obligations.DecodeEncodeRoundTrip := by
  intro i h
  cases i with
  | makekey ksel kmp =>
    rw [encode, decode_makekey (fieldOpc_packWord ..), fieldKsel_packWord_of_ok h, fieldKmp_packWord]
  | cipherinit csel ivp =>
    rw [encode, decode_cipherinit (fieldOpc_packWord ..), fieldCsel_packWord_of_ok h, fieldIvp_packWord]
  | blkenc ksel csel =>
    obtain ⟨hk, hc⟩ := Bool.and_eq_true_iff.mp h
    rw [encode, decode_blkenc (fieldOpc_packWord ..), fieldKsel_packWord_of_ok hk, fieldCsel_packWord_of_ok hc]
  | blkdec ksel csel =>
    obtain ⟨hk, hc⟩ := Bool.and_eq_true_iff.mp h
    rw [encode, decode_blkdec (fieldOpc_packWord ..), fieldKsel_packWord_of_ok hk, fieldCsel_packWord_of_ok hc]
  | padenc ksel csel =>
    obtain ⟨hk, hc⟩ := Bool.and_eq_true_iff.mp h
    rw [encode, decode_padenc (fieldOpc_packWord ..), fieldKsel_packWord_of_ok hk, fieldCsel_packWord_of_ok hc]
  | paddec ksel csel =>
    obtain ⟨hk, hc⟩ := Bool.and_eq_true_iff.mp h
    rw [encode, decode_paddec (fieldOpc_packWord ..), fieldKsel_packWord_of_ok hk, fieldCsel_packWord_of_ok hc]

/-! ### Every word has one meaning (30_encoding.md R122) -/

theorem toNat_fieldOpc (w : Word) : (fieldOpc w).toNat = w.toNat % 256 :=
  BitVec.extractLsb'_toNat ..

theorem fieldKsel_eq (w : Word) : fieldKsel w = w.toNat / 256 % 16 := by
  rw [fieldKsel, BitVec.extractLsb'_toNat, Nat.shiftRight_eq_div_pow]

theorem fieldCsel_eq (w : Word) : fieldCsel w = w.toNat / 4096 % 16 := by
  rw [fieldCsel, BitVec.extractLsb'_toNat, Nat.shiftRight_eq_div_pow]

theorem fieldOpc_eq_of_toNat {w : Word} {c : BitVec 8} (h : w.toNat % 256 = c.toNat) : fieldOpc w = c :=
  BitVec.eq_of_toNat_eq ((toNat_fieldOpc w).trans h)

theorem decode_wellFormed {w : Word} {i : Instr} (h : decode w = .ok i) : i.wellFormed = true := by
  have hk : selectorOk (fieldKsel w) = true := selectorOk_field w 8
  have hc : selectorOk (fieldCsel w) = true := selectorOk_field w 12
  rcases decode_cases w with ⟨-, hd⟩ | ⟨-, hd⟩ | ⟨-, hd⟩ | ⟨-, hd⟩ | ⟨-, hd⟩ | ⟨-, hd⟩ | ⟨-, hd⟩ <;>
    rw [hd] at h <;> cases h <;> simp [Instr.wellFormed, hk, hc]

/-- Settles O2: OPC is the word's value modulo 256, and each value of it selects one arm of the decoder. -/
theorem decodingIsTotal : Obligations.DecodingIsTotal := by
  intro w opc ksel csel
  rw [show ksel = fieldKsel w from (fieldKsel_eq w).symm, show csel = fieldCsel w from (fieldCsel_eq w).symm]
  refine ⟨fun h => decode_makekey (fieldOpc_eq_of_toNat h), fun h => decode_cipherinit (fieldOpc_eq_of_toNat h),
    fun h => decode_blkenc (fieldOpc_eq_of_toNat h), fun h => decode_blkdec (fieldOpc_eq_of_toNat h),
    fun h => decode_padenc (fieldOpc_eq_of_toNat h), fun h => decode_paddec (fieldOpc_eq_of_toNat h),
    fun h => ?_, fun i => decode_wellFormed⟩
  have hill : ¬ legalOpc w := by
    rw [legalOpc, toNat_fieldOpc]
    omega
  rw [decode_illegal hill, fieldOpc_eq_of_toNat (c := BitVec.ofNat 8 opc) (by simp [opc])]

/-! ### Unread bits (30_encoding.md R115) -/

/-- Flipping bits outside a field leaves the field: no bit of the mask `u` lies in it. -/
theorem extractLsb'_flip {u : Word} {start len : Nat} (hu : u.extractLsb' start len = 0) (w r : Word) :
    (w ^^^ (r &&& u)).extractLsb' start len = w.extractLsb' start len := by
  rw [BitVec.extractLsb'_xor, BitVec.extractLsb'_and, hu]
  simp

/-- Flipping bits other than bit `k` leaves bit `k`. -/
theorem getLsbD_flip {u : Word} {k : Nat} (hu : u.getLsbD k = false) (w r : Word) :
    (w ^^^ (r &&& u)).getLsbD k = w.getLsbD k := by
  simp [hu]

/-- The bits that the command a word spells does not read, or every bit but OPC where it spells none. -/
def unreadBits (w : Word) : Word :=
  if fieldOpc w = 0x01 then 0xFFFEF000
  else if fieldOpc w = 0x02 then 0xFFFD0F00
  else if 3 ≤ (fieldOpc w).toNat ∧ (fieldOpc w).toNat ≤ 6 then 0xFFFF0000
  else 0xFFFFFF00

/-- OPC is always read. -/
theorem fieldOpc_flip (w r : Word) : fieldOpc (w ^^^ (r &&& unreadBits w)) = fieldOpc w := by
  refine extractLsb'_flip ?_ w r
  unfold unreadBits
  split_ifs <;> decide

theorem decode_flip_unread (w r : Word) : decode (w ^^^ (r &&& unreadBits w)) = decode w := by
  have hopc := fieldOpc_flip w r
  generalize hv : w ^^^ (r &&& unreadBits w) = v at hopc ⊢
  unfold unreadBits at hv
  split_ifs at hv with h1 h2 hd <;> subst hv
  · rw [decode_makekey (hopc.trans h1), decode_makekey h1]
    unfold fieldKsel fieldKmp
    rw [extractLsb'_flip (by decide), getLsbD_flip (by decide)]
  · rw [decode_cipherinit (hopc.trans h2), decode_cipherinit h2]
    unfold fieldCsel fieldIvp
    rw [extractLsb'_flip (by decide), getLsbD_flip (by decide)]
  · exact decode_congr_data hd.1 hopc (congrArg BitVec.toNat (extractLsb'_flip (by decide) w r))
      (congrArg BitVec.toNat (extractLsb'_flip (by decide) w r))
  · have hill : ¬ legalOpc w := fun ⟨hlo, hhi⟩ => by bv_omega
    rw [decode_illegal hill, decode_illegal (by rwa [legalOpc, hopc]), hopc]

/-- Settles O3: the fields a command reads lie outside the mask of its opcode. -/
theorem unreadBitsAreIgnored : Obligations.UnreadBitsAreIgnored :=
  decode_flip_unread

/-- Settles O4, by evaluating the decoder on the ten words. -/
theorem workedEncodingsDecode : Obligations.WorkedEncodingsDecode := by
  unfold Obligations.WorkedEncodingsDecode
  decide

end Sys2Proof
end

section
/-! Host accesses that do not race, and the step each event takes (30_encoding.md R120; 20_memory.md R92;
60_exceptions.md R269, R275). -/

namespace Sys2Proof.Machine

/-- An access none of whose bytes is one of the running command's, or of a command's whose end the host has not
observed, does not race. -/
theorem races_eq_false {s : State} {host : Nat} {r : Span}
    (hrun : ∀ b, r.contains b = true → ¬ (runningFootprint s).Touches b)
    (hended : ∀ b, r.contains b = true → ∀ p ∈ s.retired, host ∉ p.seenBy → ¬ p.fp.Touches b) :
    races s host r = false := by
  rw [Bool.eq_false_iff, Ne, races_iff]
  simp only [Footprint.meets_iff]
  rintro (⟨b, hb, ht⟩ | ⟨p, hp, hns, b, hb, ht⟩)
  · exact hrun b hb ht
  · exact hended b hb p hp hns ht

/-- Settles O28: the access passes the checks of the bus, so its effect is the write or the read itself. -/
theorem hostMemoryAccess : Obligations.HostMemoryAccess := by
  intro s host addr data hm hsys hfree
  have hsys' (a : Nat) (ha : Span.contains ⟨addr, data.length⟩ a = true) : isSystemAddr s.cfg a = true := by
    obtain ⟨hlo, hhi⟩ := Span.contains_iff.mp ha
    obtain ⟨j, rfl⟩ := Nat.exists_eq_add_of_le hlo
    exact hsys j (Nat.lt_of_add_lt_add_left hhi)
  have hrace : races s host ⟨addr, data.length⟩ = false := by
    refine races_eq_false (fun b hb => ?_) fun b hb p hp hns => ?_
    · obtain ⟨hlo, hhi⟩ := Span.contains_iff.mp hb
      obtain ⟨hr, hw, -⟩ := hfree b hlo hhi
      simp [Footprint.Touches, hr, hw]
    · obtain ⟨hlo, hhi⟩ := Span.contains_iff.mp hb
      obtain ⟨-, -, hended⟩ := hfree b hlo hhi
      simp [Footprint.Touches, hended p hp hns]
  refine ⟨⟨s.mem.writeBytes addr data, hostMemAccess_next _ hsys' hrace, fun j hj => ?_,
      fun a => Memory.read_writeBytes_outside data addr a hm⟩,
    s.mem.readBytes addr data.length, hostMemAccess_next _ hsys' hrace, Memory.length_readBytes .., fun j hj => ?_⟩
  · rw [Memory.read_writeBytes_inside data addr j hm hj, List.getD_eq_getElem _ _ hj]
  · rw [List.getD_eq_getElem _ _ (by simpa using hj), Memory.getElem_readBytes]

/-- Settles O7: each of these steps is the engine's turn, or the host's observing an idle engine. -/
theorem waitingLetsTheEngineRun : Obligations.WaitingLetsTheEngineRun := by
  refine ⟨fun s host rest hf hb he => step_wait_busy hf hb he, fun s host rest hf hb he => ?_,
    fun s rest hf hb he => ?_, fun s hf he => ⟨step_nil hf he, fun hb => ?_⟩⟩
  · rw [step_cons hf he]
    exact if_neg (Bool.eq_false_iff.mp hb)
  · rw [step_engineTurn hf (.inl he)]
    exact engineTurn_idle (State.busy_eq_false_iff.mp hb)
  · rw [step_nil hf he, engineTurn_idle (State.busy_eq_false_iff.mp hb)]

/-- Settles O8: the step of a listed event is that event in the state that no longer lists it. -/
theorem stepServesHostAccesses : Obligations.StepServesHostAccesses :=
  fun _ _ hf => ⟨fun _ _ _ he => step_cons hf he, fun _ _ _ he => step_cons hf he, fun _ _ _ he => step_cons hf he,
    fun _ _ _ he => step_cons hf he⟩

end Sys2Proof.Machine
end

section
/-! The hex decoder: which characters it reads, and what it gives (40_setup.md R141, R142). -/

namespace Sys2Proof.Machine

/-- A nibble is `v` exactly when its character is in one of the three ranges and `v` is its offset there (40_setup.md
R141). -/
theorem nib_eq_some_iff (c : Byte) (v : Nat) : nib c = some v ↔
    (0x30 ≤ c.toNat ∧ c.toNat ≤ 0x39 ∧ v = c.toNat - 0x30) ∨
    (0x61 ≤ c.toNat ∧ c.toNat ≤ 0x66 ∧ v = c.toNat - 0x61 + 10) ∨
    (0x41 ≤ c.toNat ∧ c.toNat ≤ 0x46 ∧ v = c.toNat - 0x41 + 10) := by
  unfold nib
  split_ifs with hdigit hlower hupper
  · rw [Option.some.injEq]; omega
  · rw [Option.some.injEq]; omega
  · rw [Option.some.injEq]; omega
  · exact iff_of_false nofun (by omega)

theorem nib_lt {c : Byte} {v : Nat} (h : nib c = some v) : v < 16 := by
  rw [nib_eq_some_iff] at h
  omega

/-- Settles O31: each branch of `nib` is one range of R141. -/
theorem nibbleOfHexDigit : Obligations.NibbleOfHexDigit :=
  nib_eq_some_iff

/-- The byte of two nibbles holds the first in its upper half. -/
theorem ofNat_nibbles {h l : Nat} (hl : l < 16) :
    BitVec.ofNat 8 (h * 16 + l) = (BitVec.ofNat 8 h <<< 4) ||| BitVec.ofNat 8 l := by
  rw [show h * 16 = h <<< 4 from (Nat.shiftLeft_eq h 4).symm, Nat.shiftLeft_add_eq_or_of_lt hl, BitVec.ofNat_or]
  congr 1
  apply BitVec.eq_of_toNat_eq
  simp [Nat.shiftLeft_eq, Nat.mod_mul_mod]

/-- Decoding a pair of characters and the pairs after it. -/
theorem hexDecode_cons (a b : Byte) (rest : Bytes) (n : Nat) :
    hexDecode (a :: b :: rest) (n + 1) = (nib a).bind fun h => (nib b).bind fun l =>
      (hexDecode rest n).map fun out => BitVec.ofNat 8 (h * 16 + l) :: out := by
  rw [hexDecode]
  cases nib a with
  | none => rfl
  | some h =>
    cases nib b with
    | none => rfl
    | some l => cases hexDecode rest n <;> rfl

theorem hexDecode_cons_eq_some_iff {a b : Byte} {rest : Bytes} {n : Nat} {out : Bytes} :
    hexDecode (a :: b :: rest) (n + 1) = some out ↔
      ∃ h l tail, nib a = some h ∧ nib b = some l ∧ hexDecode rest n = some tail ∧
        BitVec.ofNat 8 (h * 16 + l) :: tail = out := by
  simp [hexDecode_cons, Option.bind_eq_some_iff]

theorem hexDecode_cons_eq_none_iff {a b : Byte} {rest : Bytes} {n : Nat} :
    hexDecode (a :: b :: rest) (n + 1) = none ↔ nib a = none ∨ nib b = none ∨ hexDecode rest n = none := by
  rw [hexDecode_cons]
  cases nib a with
  | none => simp
  | some h =>
    cases nib b with
    | none => simp
    | some l => simp

/-- Decoding `n` bytes is INVALID exactly when one of the first `2n` characters is no hex digit. -/
theorem hexDecode_eq_none_iff {chars : Bytes} {n : Nat} (hlen : 2 * n ≤ chars.length) :
    hexDecode chars n = none ↔ ∃ j, j < 2 * n ∧ nib (chars.getD j 0) = none := by
  induction n generalizing chars with
  | zero => simp [hexDecode]
  | succ n ih =>
    match chars, hlen with
    | a :: b :: rest, hlen =>
      rw [hexDecode_cons_eq_none_iff, ih (by simp at hlen; omega), Nat.mul_succ, Nat.exists_lt_succ_left,
        Nat.exists_lt_succ_left]
      rfl

/-- Byte `i` of the decoded bytes comes from characters `2i` and `2i + 1`. -/
theorem hexDecode_getD {chars : Bytes} {n : Nat} {out : Bytes} (h : hexDecode chars n = some out) {i : Nat}
    (hi : i < n) :
    ∃ hv lv, nib (chars.getD (2 * i) 0) = some hv ∧ nib (chars.getD (2 * i + 1) 0) = some lv ∧
      out.getD i 0 = (BitVec.ofNat 8 hv <<< 4) ||| BitVec.ofNat 8 lv := by
  induction n generalizing chars out i with
  | zero => omega
  | succ n ih =>
    match chars, h with
    | a :: b :: rest, h =>
      obtain ⟨hv, lv, tail, ha, hb, htail, rfl⟩ := hexDecode_cons_eq_some_iff.mp h
      cases i with
      | zero => exact ⟨hv, lv, ha, hb, ofNat_nibbles (nib_lt hb)⟩
      | succ i => exact ih htail (Nat.lt_of_succ_lt_succ hi)

/-- Characters from `2n` on are not read. -/
theorem hexDecode_take (chars : Bytes) (n : Nat) : hexDecode (chars.take (2 * n)) n = hexDecode chars n := by
  induction n generalizing chars with
  | zero => simp [hexDecode]
  | succ n ih =>
    match chars with
    | [] => rfl
    | [_] => rfl
    | a :: b :: rest =>
      rw [Nat.mul_succ, List.take_succ_cons, List.take_succ_cons, hexDecode_cons, hexDecode_cons, ih]

/-- Settles O32, by induction on the number of bytes: each takes the next pair of characters. -/
theorem hexDecodeReadsPairs : Obligations.HexDecodeReadsPairs :=
  fun _ _ hlen => ⟨hexDecode_eq_none_iff hlen, fun _ h => ⟨hexDecode_length h, fun _ hi => hexDecode_getD h hi⟩⟩

end Sys2Proof.Machine
end

section
/-! The setup commands: one equation for each way MAKEKEY and CIPHERINIT can end (40_setup.md R150 to R153, R160 to
R162). -/

namespace Sys2Proof.Machine

/-! ### The field values of the latched record (30_encoding.md R117) -/

theorem Direction.ofField_eq_none_iff {v : Nat} : Direction.ofField v = none ↔ v ≠ 0 ∧ v ≠ 1 := by
  unfold Direction.ofField
  split_ifs <;> simp <;> omega

theorem KeySize.ofField_eq_some_iff {v : Nat} {ks : KeySize} : KeySize.ofField v = some ks ↔ v = ks.bits := by
  constructor
  · unfold KeySize.ofField
    split_ifs <;> rintro ⟨⟩ <;> assumption
  · rintro rfl
    cases ks <;> rfl

theorem Mode.ofField_eq_none_iff {v : Nat} : Mode.ofField v = none ↔ ¬ (1 ≤ v ∧ v ≤ 3) := by
  unfold Mode.ofField
  split_ifs <;> simp <;> omega

/-! ### MAKEKEY -/

section Makekey

variable {p : Primitive} {ksel : Nat} {kmp : Bool} {L : Latch} {s : State}

theorem makekeyWith_absent (hp : s.keyPresent ksel = false) :
    makekeyWith p ksel kmp L s = raise .badKeyInstance s := by
  simp [makekeyWith, makekeySlot, hp]

theorem makekeyWith_illegalDirection (hp : s.keyPresent ksel = true) (hd : Direction.ofField L.dirField = none) :
    makekeyWith p ksel kmp L s = raise .badKeyDirection s := by
  simp [makekeyWith, makekeySlot, hp, hd]

/-- No raw key comes of the material: its size is illegal, or it is absent, or a character read is no hex digit. -/
theorem makekeyWith_badMaterial {d : Direction} (hp : s.keyPresent ksel = true)
    (hd : Direction.ofField L.dirField = some d)
    (hbad : ∀ ks, KeySize.ofField L.keyBitsField = some ks → kmp = false ∨ hexDecode L.keymat.toList ks.bytes = none) :
    makekeyWith p ksel kmp L s = raise .badKeyMaterial s := by
  cases hks : KeySize.ofField L.keyBitsField with
  | none => simp [makekeyWith, makekeySlot, hp, hd, hks]
  | some ks =>
    rcases hbad ks hks with hkmp | hhex
    · simp [makekeyWith, makekeySlot, hp, hd, hks, hkmp]
    · cases kmp <;> simp [makekeyWith, makekeySlot, hp, hd, hks, hhex]

theorem makekeyWith_of_material {d : Direction} {ks : KeySize} {raw : Bytes} (hp : s.keyPresent ksel = true)
    (hd : Direction.ofField L.dirField = some d) (hks : KeySize.ofField L.keyBitsField = some ks)
    (hraw : hexDecode L.keymat.toList ks.bytes = some raw) :
    makekeyWith p ksel true L s = finish 0 (s.setSlot ksel (makeSlot p raw ks d)) := by
  simp [makekeyWith, makekeySlot, hp, hd, hks, hraw]

/-- The live latch is not consulted again: MAKEKEY clears it. -/
theorem makekeyWith_latch (l : Option Latch) :
    makekeyWith p ksel kmp L { s with latch := l } = makekeyWith p ksel kmp L s := by
  have hslot : makekeySlot p ksel kmp L { s with latch := l } = makekeySlot p ksel kmp L s := rfl
  unfold makekeyWith
  rw [hslot]
  split <;> rfl

/-- Of KEYMAT, MAKEKEY reads only what it decodes for a legal size. -/
theorem makekeyWith_keymat {chars : Vector Byte 64}
    (h : ∀ ks, KeySize.ofField L.keyBitsField = some ks →
      hexDecode chars.toList ks.bytes = hexDecode L.keymat.toList ks.bytes) :
    makekeyWith p ksel kmp { L with keymat := chars } s = makekeyWith p ksel kmp L s := by
  have hslot : makekeySlot p ksel kmp { L with keymat := chars } s = makekeySlot p ksel kmp L s := by
    have hdir : Latch.dirField { L with keymat := chars } = L.dirField := rfl
    have hbits : Latch.keyBitsField { L with keymat := chars } = L.keyBitsField := rfl
    unfold makekeySlot
    rw [hdir, hbits]
    cases hks : KeySize.ofField L.keyBitsField with
    | none => rfl
    | some ks => simp only [h ks hks]
  rw [makekeyWith, makekeyWith, hslot]

end Makekey

/-- The characters of a key are `keyBits/4` many (40_setup.md R143). -/
theorem KeySize.two_mul_bytes (ks : KeySize) : 2 * ks.bytes = ks.bits / 4 := by
  cases ks <;> rfl

/-- Settles O33: the checks pass, so MAKEKEY sets the slot it built and finishes; the rest is its frame. -/
theorem makekeyBuildsSlot : Obligations.MakekeyBuildsSlot := by
  intro s L ksel d ks raw hL h16 hp hdir hbits hraw
  have hd : Direction.ofField L.dirField = some d := by
    cases d <;> exact congrArg Direction.ofField hdir
  have hbuilt : makekeyWith Config.primitive ksel true L s =
      finish 0 (s.setSlot ksel (makeSlot Config.primitive raw ks d)) :=
    makekeyWith_of_material (decide_eq_true hp) hd (KeySize.ofField_eq_some_iff.mpr hbits) hraw
  obtain ⟨hcontexts, hmem, hslots⟩ := makekeyWith_frame Config.primitive ksel true L s
  obtain ⟨hregs, hlatch⟩ := makekeyWith_completes Config.primitive ksel true L s
  refine ⟨_, exec_of_latch hL _, ?_, hslots, hcontexts, hmem, ?_, ?_, ?_, State.busy_eq_false_iff.mpr hlatch, hregs⟩
  · rw [hbuilt, slot_finish, State.slot_setSlot, if_pos ⟨rfl, h16⟩]; rfl
  · rw [hbuilt]; rfl
  · rw [hbuilt]; rfl
  · rw [hbuilt]; rfl

/-- Settles O34: the checks in their order, one equation of MAKEKEY each. -/
theorem makekeyErrorOrder : Obligations.MakekeyErrorOrder := by
  intro s L ksel kmp hL dir bits reports
  have hreports {e : ErrorKind} (h : makekeyWith Config.primitive ksel kmp L s = raise e s) : reports e :=
    (exec_of_latch hL _).trans (congrArg _ h)
  refine ⟨fun hp => hreports (makekeyWith_absent (decide_eq_false (Nat.not_lt.mpr hp))),
    fun hp hdir => hreports (makekeyWith_illegalDirection (decide_eq_true hp) (Direction.ofField_eq_none_iff.mpr hdir)),
    fun hp hdir hbad => hreports ?_⟩
  cases hd : Direction.ofField L.dirField with
  | none => exact absurd hdir (not_or.mpr (Direction.ofField_eq_none_iff.mp hd))
  | some d =>
    refine makekeyWith_badMaterial (decide_eq_true hp) hd fun ks hks => ?_
    have hbits : bits = ks.bits := KeySize.ofField_eq_some_iff.mp hks
    rcases hbad with ⟨h128, h192, h256⟩ | hkmp | hhex
    · cases ks <;> contradiction
    · exact .inl hkmp
    · rw [hbits] at hhex; exact .inr hhex

/-- Settles O35: the decoder of a legal size reads `2 * keyBits/8` characters, where the two records agree. -/
theorem laterKeyCharactersAreNotRead : Obligations.LaterKeyCharactersAreNotRead := by
  intro s L chars ksel kmp hagree
  rw [exec_of_latch rfl, exec_of_latch rfl]
  refine congrArg Host.Outcome.next ?_
  rw [makekeyWith_latch, makekeyWith_latch]
  refine makekeyWith_keymat fun ks hks => ?_
  have hbits : L.keyBitsField = ks.bits := KeySize.ofField_eq_some_iff.mp hks
  have htake : chars.toList.take (2 * ks.bytes) = L.keymat.toList.take (2 * ks.bytes) := by
    rw [KeySize.two_mul_bytes, ← hbits]
    refine List.ext_getElem? fun c => ?_
    rw [List.getElem?_take, List.getElem?_take]
    split
    next hc => simpa using hagree c hc
    next => rfl
  rw [← hexDecode_take, htake, hexDecode_take]

/-! ### CIPHERINIT -/

theorem decodeIv_eq_none_iff {ivp : Bool} {L : Latch} :
    decodeIv ivp L = none ↔ ivp = true ∧ hexDecode L.ivhex.toList 16 = none := by
  cases ivp <;> simp [decodeIv]

/-- The IV is the decoded bytes if IVP = 1, and sixteen zero bytes if IVP = 0 (40_setup.md R144). -/
theorem decodeIv_eq_ofBytes {ivp : Bool} {L : Latch} {iv : Bytes}
    (hone : ivp = true → hexDecode L.ivhex.toList 16 = some iv) (hzero : ivp = false → iv = List.replicate 16 0) :
    decodeIv ivp L = some (Block.ofBytes iv) := by
  cases ivp with
  | false =>
    have h0 : (0 : Block) = Block.ofBytes (List.replicate 16 0) := by decide
    rw [hzero rfl, ← h0]; rfl
  | true => simp [decodeIv, hone rfl]

theorem length_iv {ivp : Bool} {L : Latch} {iv : Bytes} (hone : ivp = true → hexDecode L.ivhex.toList 16 = some iv)
    (hzero : ivp = false → iv = List.replicate 16 0) : iv.length = 16 := by
  cases ivp with
  | false => rw [hzero rfl, List.length_replicate]
  | true => exact hexDecode_length (hone rfl)

section Cipherinit

variable {csel : Nat} {ivp : Bool} {L : Latch} {s : State}

theorem cipherinitWith_absent (hp : s.ctxPresent csel = false) :
    cipherinitWith csel ivp L s = raise .badCipherInstance s := by
  simp [cipherinitWith, cipherinitContext, hp]

theorem cipherinitWith_illegalMode (hp : s.ctxPresent csel = true) (hm : Mode.ofField L.modeField = none) :
    cipherinitWith csel ivp L s = raise .badCipherMode s := by
  simp [cipherinitWith, cipherinitContext, hp, hm]

theorem cipherinitWith_badIv {m : Mode} (hp : s.ctxPresent csel = true) (hm : Mode.ofField L.modeField = some m)
    (hiv : decodeIv ivp L = none) : cipherinitWith csel ivp L s = raise .badCipherInstance s := by
  simp [cipherinitWith, cipherinitContext, hp, hm, hiv]

theorem cipherinitWith_of_iv {m : Mode} {iv : Block} (hp : s.ctxPresent csel = true)
    (hm : Mode.ofField L.modeField = some m) (hiv : decodeIv ivp L = some iv) :
    cipherinitWith csel ivp L s = finish 0 (s.setContext csel ⟨true, m, iv⟩) := by
  simp [cipherinitWith, cipherinitContext, hp, hm, hiv]

end Cipherinit

/-- Settles O36: the checks pass, so CIPHERINIT sets its context and finishes; the rest is its frame. -/
theorem cipherinitSetsContext : Obligations.CipherinitSetsContext := by
  intro s L csel ivp m iv hL h16 hp hmode hone hzero
  have hm : Mode.ofField L.modeField = some m := by
    cases m <;> exact congrArg Mode.ofField hmode
  have hset : cipherinitWith csel ivp L s = finish 0 (s.setContext csel ⟨true, m, Block.ofBytes iv⟩) :=
    cipherinitWith_of_iv (decide_eq_true hp) hm (decodeIv_eq_ofBytes hone hzero)
  have hcontext : (cipherinitWith csel ivp L s).context csel = ⟨true, m, Block.ofBytes iv⟩ := by
    rw [hset, context_finish, State.context_setContext, if_pos ⟨rfl, h16⟩]
  obtain ⟨hslots, hmem, hcontexts⟩ := cipherinitWith_frame csel ivp L s
  obtain ⟨hregs, hlatch⟩ := cipherinitWith_completes csel ivp L s
  refine ⟨_, exec_of_latch hL _, ?_, ?_, ?_, hcontexts, hslots, hmem, ?_, ?_, ?_,
    State.busy_eq_false_iff.mpr hlatch, hregs⟩
  · rw [hcontext]
  · rw [hcontext]
  · rw [hcontext, Block.toBytes_ofBytes iv (length_iv hone hzero)]
  · rw [hset]; rfl
  · rw [hset]; rfl
  · rw [hset]; rfl

/-- Settles O37: the checks in their order, one equation of CIPHERINIT each. -/
theorem cipherinitErrorOrder : Obligations.CipherinitErrorOrder := by
  intro s L csel ivp hL mode reports
  have hreports {e : ErrorKind} (h : cipherinitWith csel ivp L s = raise e s) : reports e :=
    (exec_of_latch hL _).trans (congrArg _ h)
  refine ⟨fun hp => hreports (cipherinitWith_absent (decide_eq_false (Nat.not_lt.mpr hp))),
    fun hp hmode => hreports (cipherinitWith_illegalMode (decide_eq_true hp) (Mode.ofField_eq_none_iff.mpr hmode)),
    fun hp hmode hiv => hreports ?_⟩
  cases hm : Mode.ofField L.modeField with
  | none => exact absurd hmode (Mode.ofField_eq_none_iff.mp hm)
  | some m => exact cipherinitWith_badIv (decide_eq_true hp) hm (decodeIv_eq_none_iff.mpr hiv)

end Sys2Proof.Machine
end

section
/-! The checks of the data commands, in their order: handles, direction, length (41_block.md R180, R181, R192, R194;
42_padded.md R223, R228, R231). -/

namespace Sys2Proof.Machine

/-- A data command that ends before any access completes, whatever is admitted. -/
theorem exec_data_stop {i : Instr} {s t : State} {L : Latch} {csel : Nat} (hL : s.latch = some L)
    (hi : dataEffectOf i L s = some (csel, .stop t)) : exec i s = .next t := by
  rw [exec_data hL hi, Effect.commit_stop]

/-- An absent or invalid entry is a failed handle check (30_encoding.md R111). -/
theorem not_handlesReady {s : State} {ksel csel : Nat}
    (h : (s.cfg.numKeySlots ≤ ksel ∨ (s.slot ksel).valid = false) ∨
      (s.cfg.numCtx ≤ csel ∨ (s.context csel).valid = false)) : ¬ HandlesReady s ksel csel := by
  rintro ⟨hkp, hkv, hcp, hcv⟩
  have hk : ksel < s.cfg.numKeySlots := of_decide_eq_true hkp
  have hc : csel < s.cfg.numCtx := of_decide_eq_true hcp
  rcases h with (h | h) | (h | h)
  · omega
  · simp [hkv] at h
  · omega
  · simp [hcv] at h

theorem checkHandles_not_ready {ksel csel : Nat} {s : State} (h : ¬ HandlesReady s ksel csel) :
    checkHandles ksel csel s = .error .badCipherState := by
  rcases checkHandles_cases ksel csel s with ⟨hready, -⟩ | ⟨-, herr⟩
  · exact absurd hready h
  · exact herr

/-- Settles O38: the handle check is the first of each data command. -/
theorem badHandleReportsBadCipherState : Obligations.BadHandleReportsBadCipherState := by
  intro s L ksel csel hL hbad i hi
  have hcheck := checkHandles_not_ready (not_handlesReady hbad)
  suffices hstop : dataEffectOf i L s = some (csel, .stop (raise .badCipherState s)) from exec_data_stop hL hstop
  simp only [List.mem_cons, List.not_mem_nil, or_false] at hi
  rcases hi with rfl | rfl | rfl | rfl
  · simp only [dataEffectOf, blkencWith, hcheck]
  · simp only [dataEffectOf, blkdecWith, hcheck]
  · simp only [dataEffectOf, padencWith, hcheck]
  · simp only [dataEffectOf, paddecWith, hcheck]

section Ready
variable {s : State} {ksel csel : Nat} (h : HandlesReady s ksel csel) (p : Primitive) (L : Latch)
include h

theorem blkencWith_wrongDirection (hd : (s.slot ksel).dir ≠ .encrypt) :
    blkencWith p ksel csel L s = .stop (raise .badCipherState s) := by
  simp only [blkencWith, checkHandles_ready h, if_pos hd]

theorem blkdecWith_wrongDirection (hm : (s.context csel).mode ≠ .cfb1) (hd : (s.slot ksel).dir ≠ .decrypt) :
    blkdecWith p ksel csel L s = .stop (raise .badCipherState s) := by
  simp only [blkdecWith, checkHandles_ready h, if_pos (And.intro hm hd)]

theorem padencWith_wrongDirection (hd : (s.slot ksel).dir ≠ .encrypt) :
    padencWith p ksel csel L s = .stop (raise .badCipherState s) := by
  simp only [padencWith, checkHandles_ready h, if_pos hd]

theorem paddecWith_wrongDirection (hd : (s.slot ksel).dir ≠ .decrypt) :
    paddecWith p ksel csel L s = .stop (raise .badCipherState s) := by
  simp only [paddecWith, checkHandles_ready h, if_pos hd]

theorem blkencWith_noop (hd : (s.slot ksel).dir = .encrypt) (hl : L.length ≤ 0) :
    blkencWith p ksel csel L s = .stop (finish 0 s) := by
  simp only [blkencWith, checkHandles_ready h, if_neg (not_not.mpr hd), if_pos hl]

theorem blkdecWith_noop (hd : (s.slot ksel).dir = .decrypt ∨ (s.context csel).mode = .cfb1) (hl : L.length ≤ 0) :
    blkdecWith p ksel csel L s = .stop (finish 0 s) := by
  have hpass : ¬ ((s.context csel).mode ≠ .cfb1 ∧ (s.slot ksel).dir ≠ .decrypt) := fun ⟨hm, hn⟩ => hd.elim hn hm
  simp only [blkdecWith, checkHandles_ready h, if_neg hpass, if_pos hl]

theorem padencWith_noop (hd : (s.slot ksel).dir = .encrypt) (hl : L.length ≤ 0) :
    padencWith p ksel csel L s = .stop (finish 0 s) := by
  simp only [padencWith, checkHandles_ready h, if_neg (not_not.mpr hd), if_pos hl]

theorem paddecWith_noop (hd : (s.slot ksel).dir = .decrypt) (hl : L.length ≤ 0) :
    paddecWith p ksel csel L s = .stop (finish 0 s) := by
  simp only [paddecWith, checkHandles_ready h, if_neg (not_not.mpr hd), if_pos hl]

end Ready

/-- Settles O39: the direction is each data command's second check, before its length is looked at. -/
theorem wrongDirectionReportsBadCipherState : Obligations.WrongDirectionReportsBadCipherState := by
  intro s L ksel csel hL h reports
  have hreports {i : Instr} {e : Effect} (he : e = .stop (raise .badCipherState s))
      (hi : dataEffectOf i L s = some (csel, e)) : reports i := exec_data_stop hL (he ▸ hi)
  refine ⟨fun hd => ?_, fun hd => ?_, fun hd hm => ?_⟩
  · have hne : (s.slot ksel).dir ≠ .encrypt := by rw [hd]; decide
    exact ⟨hreports (blkencWith_wrongDirection h _ L hne) rfl, hreports (padencWith_wrongDirection h _ L hne) rfl⟩
  · exact hreports (paddecWith_wrongDirection h _ L (by rw [hd]; decide)) rfl
  · exact hreports (blkdecWith_wrongDirection h _ L hm (by rw [hd]; decide)) rfl

/-- Settles O40: the length is looked at next, and a length that is not positive ends the command. -/
theorem nonPositiveLengthIsNoOp : Obligations.NonPositiveLengthIsNoOp := by
  intro s L ksel csel hL h hl noop
  have hnoop {i : Instr} {e : Effect} (he : e = .stop (finish 0 s))
      (hi : dataEffectOf i L s = some (csel, e)) : noop i := exec_data_stop hL (he ▸ hi)
  refine ⟨fun hd => ⟨?_, ?_⟩, fun hd => ⟨?_, ?_⟩, fun hm => ?_⟩
  · exact hnoop (blkencWith_noop h _ L hd hl) rfl
  · exact hnoop (padencWith_noop h _ L hd hl) rfl
  · exact hnoop (blkdecWith_noop h _ L (.inl hd) hl) rfl
  · exact hnoop (paddecWith_noop h _ L hd hl) rfl
  · exact hnoop (blkdecWith_noop h _ L (.inr hm) hl) rfl

end Sys2Proof.Machine
end

section
/-! One block at a time: ECB, CBC, and CFB1 in closed form (41_block.md R186 to R191). -/

namespace Sys2Proof

theorem Block.peekTop_eq_msb (S : Block) : Block.peekTop S = S.msb :=
  (BitVec.msb_eq_getLsbD_last S).symm

/-- The bits of `R` with the first `n` bits of `S` shifted in at the low end (00_scope.md R16, R17). -/
theorem Block.bitAt_shiftedIn (R S : Block) {n k : Nat} (hn : n ≤ 128) (hk : k < 128) :
    Block.bitAt ((R <<< n) ||| (S >>> (128 - n))) k =
      if k + n < 128 then Block.bitAt R (k + n) else Block.bitAt S (k + n - 128) := by
  simp only [Block.bitAt, BitVec.getLsbD_or, BitVec.getLsbD_shiftLeft, BitVec.getLsbD_ushiftRight]
  split
  · have hold : 127 - k - n = 127 - (k + n) := by omega
    have hhigh : ¬ 127 - k < n := by omega
    have hin : 127 - k < 128 := by omega
    rw [BitVec.getLsbD_of_ge S _ (by omega), hold]
    simp [hhigh, hin]
  · have hnew : 128 - n + (127 - k) = 127 - (k + n - 128) := by omega
    have hlow : 127 - k < n := by omega
    simp [hnew, hlow]

end Sys2Proof

namespace Sys2Proof.Machine

/-- Settles O43: the two branches of the two block functions. -/
theorem ecbAndCbcBlocks : Obligations.EcbAndCbcBlocks :=
  fun _ _ _ _ => ⟨rfl, rfl, rfl, rfl⟩

section Cfb1
variable (F : Block → Block) (reg B : Block)

/-- After `n` steps of encryption the first `n` bits of the finished output are in the feedback register. -/
theorem cfb1EncBits_reg_eq_shiftedIn {n : Nat} (hn : n ≤ 128) :
    (cfb1EncBits F reg B n).1 = (reg <<< n) ||| ((cfb1EncBits F reg B 128).2 >>> (128 - n)) := by
  apply Block.ext_bitAt
  intro k hk
  rw [cfb1EncBits_reg F reg B n k hn hk, Block.bitAt_shiftedIn _ _ hn hk]
  split
  · rfl
  · exact (cfb1EncBits_earlier F reg B n 128 (k + n - 128) (by omega) hn (le_refl _)).symm

/-- After `n` steps of decryption the first `n` bits of the input are in the feedback register. -/
theorem cfb1DecBits_reg_eq_shiftedIn {n : Nat} (hn : n ≤ 128) :
    (cfb1DecBits F reg B n).1 = (reg <<< n) ||| (B >>> (128 - n)) := by
  apply Block.ext_bitAt
  intro k hk
  rw [cfb1DecBits_reg F reg B n k hn hk, Block.bitAt_shiftedIn _ _ hn hk]

/-- Output bit `k` of encryption is settled in step `k`, from the register as it stands then. -/
theorem cfb1EncBits_bit {k : Nat} (hk : k < 128) : Block.bitAt (cfb1EncBits F reg B 128).2 k =
    (Block.bitAt B k ^^ Block.peekTop (F (cfb1EncBits F reg B k).1)) := by
  rw [cfb1EncBits_earlier F reg B (k + 1) 128 k (by omega) (by omega) (by omega), cfb1EncBits_succ,
    Block.bitAt_setBit _ _ _ _ hk hk, if_pos rfl, cfb1EncBits_later F reg B k k (le_refl _) hk]

/-- Output bit `k` of decryption is settled in step `k`, from the register as it stands then. -/
theorem cfb1DecBits_bit {k : Nat} (hk : k < 128) : Block.bitAt (cfb1DecBits F reg B 128).2 k =
    (Block.bitAt B k ^^ Block.peekTop (F (cfb1DecBits F reg B k).1)) := by
  rw [cfb1DecBits_earlier F reg B (k + 1) 128 k (by omega) (by omega) (by omega), cfb1DecBits_succ,
    Block.bitAt_setBit _ _ _ _ hk hk, if_pos rfl]

end Cfb1

/-- Settles O44: bit `k` comes of the register of step `k`, which holds the ciphertext bits before it. -/
theorem cfb1EncryptBlock : Obligations.Cfb1EncryptBlock := by
  intro p k reg P out kk hkk
  have hbit : Block.bitAt out kk = _ := cfb1EncBits_bit (p.fwd k.frk k.nr) reg P hkk
  rw [hbit, Block.peekTop_eq_msb, cfb1EncBits_reg_eq_shiftedIn _ _ _ (Nat.le_of_lt hkk)]
  rfl

/-- Settles O45: bit `k` comes of the register of step `k`, which holds the input bits before it. -/
theorem cfb1DecryptBlock : Obligations.Cfb1DecryptBlock := by
  intro p k reg C out kk hkk
  have hbit : Block.bitAt out kk = _ := cfb1DecBits_bit (p.fwd k.frk k.nr) reg C hkk
  rw [hbit, Block.peekTop_eq_msb, cfb1DecBits_reg_eq_shiftedIn _ _ _ (Nat.le_of_lt hkk)]

/-- After a block in CBC or CFB1 mode the feedback register is the block's ciphertext (41_block.md R191): all 128 bits
of the old register have been shifted out. -/
theorem encBlock_reg_eq_output (p : Primitive) (k : KeySlot) {m : Mode} (hm : m ≠ .ecb) (reg P : Block) :
    (encBlock p k m reg P).1 = (encBlock p k m reg P).2 := by
  cases m with
  | ecb => exact absurd rfl hm
  | cbc => rfl
  | cfb1 => simpa [encBlock] using cfb1EncBits_reg_eq_shiftedIn (p.fwd k.frk k.nr) reg P (le_refl 128)

theorem decBlock_reg_eq_input (p : Primitive) (k : KeySlot) {m : Mode} (hm : m ≠ .ecb) (reg C : Block) :
    (decBlock p k m reg C).1 = C := by
  cases m with
  | ecb => exact absurd rfl hm
  | cbc => rfl
  | cfb1 => simpa [decBlock] using cfb1DecBits_reg_eq_shiftedIn (p.fwd k.frk k.nr) reg C (le_refl 128)

end Sys2Proof.Machine
end

section
/-! BLKENC and BLKDEC over whole commands: each block through the datapath, and the feedback register at the end
(41_block.md R182 to R185, R191, R195). -/

namespace Sys2Proof.Machine

/-! ### Commands that complete with success -/

/-- A BLKENC of positive length that succeeds has passed its checks, and leaves what its processing leaves. -/
theorem exec_blkenc_success {s t : State} {L : Latch} {ksel csel : Nat} (hL : s.latch = some L) (hl : 0 < L.length)
    (h : exec (.blkenc ksel csel) s = .next t) (hs : t.err = .success) :
    HandlesReady s ksel csel ∧ (s.slot ksel).dir = .encrypt ∧ t =
      (runBlk (encBlock Config.primitive (s.slot ksel) (s.context csel).mode) csel (s.context csel).reg L s).after := by
  obtain ⟨-, rfl⟩ := exec_data_next hL rfl h
  rcases blkencWith_cases Config.primitive ksel csel L s with
    ⟨-, he⟩ | ⟨-, -, he⟩ | ⟨-, -, hn, -⟩ | ⟨hready, hd, -, he⟩
  · rw [he] at hs; cases hs
  · rw [he] at hs; cases hs
  · omega
  · exact ⟨hready, hd, congrArg Effect.after he⟩

/-- The same of BLKDEC. -/
theorem exec_blkdec_success {s t : State} {L : Latch} {ksel csel : Nat} (hL : s.latch = some L) (hl : 0 < L.length)
    (h : exec (.blkdec ksel csel) s = .next t) (hs : t.err = .success) :
    HandlesReady s ksel csel ∧ t =
      (runBlk (decBlock Config.primitive (s.slot ksel) (s.context csel).mode) csel (s.context csel).reg L s).after := by
  obtain ⟨-, rfl⟩ := exec_data_next hL rfl h
  rcases blkdecWith_cases Config.primitive ksel csel L s with
    ⟨-, he⟩ | ⟨-, -, he⟩ | ⟨-, -, hn, -⟩ | ⟨hready, -, -, he⟩
  · rw [he] at hs; cases hs
  · rw [he] at hs; cases hs
  · omega
  · exact ⟨hready, congrArg Effect.after he⟩

/-! ### The feedback register at the end -/

/-- The feedback register after `n + 1` blocks is the one the last block leaves. -/
theorem regAfter_succ (f : Block → Block → Block × Block) (src dst : Nat) (c : Chain) (n : Nat) :
    regAfter f src dst c (n + 1) =
      (f (regAfter f src dst c n) ((memAfter f src dst c n).readBlock (src + 16 * n))).1 := rfl

/-- Where each block leaves its output in the feedback register, the loop leaves its last output there. -/
theorem regAfter_eq_last_output {f : Block → Block → Block × Block} (hf : ∀ r B, (f r B).1 = (f r B).2)
    (src dst : Nat) {c : Chain} (hm : c.mem.wf = true) {n : Nat} (hn : 0 < n) :
    regAfter f src dst c n = (memAfter f src dst c n).readBlock (dst + 16 * (n - 1)) := by
  obtain ⟨n, rfl⟩ := Nat.exists_eq_succ_of_ne_zero (Nat.ne_of_gt hn)
  have hout : (memAfter f src dst c (n + 1)).readBlock (dst + 16 * n) = _ :=
    runBlocks_block f src dst c hm (n + 1) n (Nat.lt_succ_self n)
  rw [Nat.succ_sub_one, hout, ← hf]
  exact regAfter_succ ..

/-- Where each block leaves its input in the feedback register, the loop leaves its last input there, on buffers that
are disjoint or the same. -/
theorem regAfter_eq_last_input {f : Block → Block → Block × Block} (hf : ∀ r B, (f r B).1 = B)
    {src dst : Nat} {c : Chain} (hm : c.mem.wf = true) {n : Nat} (hn : 0 < n)
    (hs : DisjointOrSame src (16 * n) dst (16 * n)) :
    regAfter f src dst c n = c.mem.readBlock (src + 16 * (n - 1)) := by
  obtain ⟨n, rfl⟩ := Nat.exists_eq_succ_of_ne_zero (Nat.ne_of_gt hn)
  rw [regAfter_succ, hf]
  exact runBlocks_next_input f src dst c hm n _ _ (le_refl _) (by omega) hs

/-- Settles O46: the last block leaves its ciphertext in the register, and the loop leaves the last block's register. -/
theorem feedbackIsLastCiphertext : Obligations.FeedbackIsLastCiphertext := by
  refine ⟨fun p k m reg B hm => ⟨encBlock_reg_eq_output p k hm reg B, decBlock_reg_eq_input p k hm reg B⟩, ?_⟩
  intro s t L ksel csel hmem hL hlen hmode hs nb
  have hl : 0 < L.length := lt_of_lt_of_le (by decide) hlen
  have hnb : 0 < nb := Nat.div_pos (by omega) (by decide)
  refine ⟨fun h => ?_, fun h hbuf => ?_⟩
  · obtain ⟨hready, -, rfl⟩ := exec_blkenc_success hL hl h hs
    obtain ⟨hm, hr, -⟩ := runBlk_after (encBlock Config.primitive (s.slot ksel) (s.context csel).mode)
      (State.context_lt_of_valid hready.ctxValid) (s.context csel).reg L s
    rw [hm, hr]
    exact regAfter_eq_last_output (encBlock_reg_eq_output _ _ hmode) _ _ hmem hnb
  · obtain ⟨hready, rfl⟩ := exec_blkdec_success hL hl h hs
    obtain ⟨-, hr, -⟩ := runBlk_after (decBlock Config.primitive (s.slot ksel) (s.context csel).mode)
      (State.context_lt_of_valid hready.ctxValid) (s.context csel).reg L s
    rw [hr]
    exact regAfter_eq_last_input (decBlock_reg_eq_input _ _ hmode) hmem hnb hbuf

/-! ### The whole command -/

/-- What BLKENC or BLKDEC with block function `f` leaves in `t`, from the feedback register `reg`: each output block is
`f` of the input block as it was before the command and of the running register, and nothing else changes. -/
def RunsDatapath (f : Block → Block → Block × Block) (csel : Nat) (reg : Block) (L : Latch) (s t : State)
    (regs : Nat → Block) : Prop :=
  regs 0 = reg ∧
  (∀ i, i < blockCount L → f (regs i) (s.mem.readBlock (L.srcAddr + 16 * i)) =
    (regs (i + 1), t.mem.readBlock (L.dstAddr + 16 * i))) ∧
  t.context csel = { s.context csel with reg := regs (blockCount L) } ∧
  (∀ a, a < L.dstAddr ∨ L.dstAddr + 16 * blockCount L ≤ a → t.mem.read a = s.mem.read a) ∧
  t.err = .success ∧ t.count.toNat = 128 * blockCount L ∧ t.busy = false ∧ t.draws = s.draws ∧ SameRegisters s t

/-- On buffers that are disjoint or the same, each block of the loop is `f` of an input block as it was before. -/
theorem runBlocks_datapath (f : Block → Block → Block × Block) {src dst : Nat} {c : Chain} (hm : c.mem.wf = true)
    {n : Nat} (hs : DisjointOrSame src (16 * n) dst (16 * n)) {i : Nat} (hi : i < n) :
    f (regAfter f src dst c i) (c.mem.readBlock (src + 16 * i)) =
      (regAfter f src dst c (i + 1), (memAfter f src dst c n).readBlock (dst + 16 * i)) := by
  have hin : (memAfter f src dst c i).readBlock (src + 16 * i) = c.mem.readBlock (src + 16 * i) :=
    runBlocks_next_input f src dst c hm i _ _ (by omega) (by omega) hs
  have hout : (memAfter f src dst c n).readBlock (dst + 16 * i) = _ := runBlocks_block f src dst c hm n i hi
  rw [hout, regAfter_succ, ← hin]
  rfl

theorem runBlk_runsDatapath (f : Block → Block → Block × Block) {csel : Nat} (hc : csel < 16) (reg : Block)
    {L : Latch} {s : State} (hm : s.mem.wf = true)
    (hs : DisjointOrSame L.srcAddr (16 * blockCount L) L.dstAddr (16 * blockCount L)) :
    RunsDatapath f csel reg L s (runBlk f csel reg L s).after (regAfter f L.srcAddr L.dstAddr ⟨s.mem, reg⟩) := by
  obtain ⟨-, -, herr, hcount⟩ := runBlk_after f hc reg L s
  refine ⟨rfl, fun i hi => ?_, ?_, fun a ha => ?_, herr, hcount, rfl, rfl, (runBlk_dataEffect f csel reg L s).same⟩
  · exact runBlocks_datapath f hm hs hi
  · rw [runBlk_eq, context_finish, State.context_setReg, if_pos ⟨rfl, hc⟩]
    rfl
  · exact runBlocks_outside f L.srcAddr L.dstAddr ⟨s.mem, reg⟩ hm _ a ha

/-- A BLKENC or BLKDEC that is processed and admitted runs the datapath. -/
theorem exec_blk_runsDatapath {i : Instr} {s : State} {L : Latch} {csel : Nat} {reg : Block}
    {f : Block → Block → Block × Block} (hm : s.mem.wf = true) (hL : s.latch = some L)
    (hi : dataEffectOf i L s = some (csel, runBlk f csel reg L s)) (hc : csel < 16)
    (ha : ∀ j, j < 16 * blockCount L →
      admitted s.cfg .read (L.srcAddr + j) = true ∧ admitted s.cfg .write (L.dstAddr + j) = true)
    (hs : DisjointOrSame L.srcAddr (16 * blockCount L) L.dstAddr (16 * blockCount L)) :
    ∃ t regs, exec i s = .next t ∧ RunsDatapath f csel reg L s t regs :=
  ⟨_, _, exec_data_of_admitted hL hi (Footprint.admitted_of_bytes (fun j hj => (ha j hj).1) fun j hj => (ha j hj).2),
    runBlk_runsDatapath f hc reg hm hs⟩

/-- Settles O47: past its checks BLKENC runs the encryption datapath. -/
theorem blkencRunsDatapath : Obligations.BlkencRunsDatapath := by
  intro s L ksel csel hm hL h hd hl nb ha hs
  exact exec_blk_runsDatapath hm hL (congrArg (fun e => some (csel, e)) (blkencWith_processes Config.primitive h hl hd))
    (State.context_lt_of_valid h.ctxValid) ha hs

/-- Settles O48: past its checks BLKDEC runs the decryption datapath. -/
theorem blkdecRunsDatapath : Obligations.BlkdecRunsDatapath := by
  intro s L ksel csel hm hL h hd hl nb ha hs
  exact exec_blk_runsDatapath hm hL (congrArg (fun e => some (csel, e)) (blkdecWith_processes Config.primitive h hl hd))
    (State.context_lt_of_valid h.ctxValid) ha hs

end Sys2Proof.Machine
end

section
/-! What two runs of the block commands have to do with each other: a message in two commands, decryption after
encryption, a key of the other direction (41_block.md R193, R195, R197). -/

namespace Sys2Proof.Machine

/-! ### A message in two commands -/

/-- A data command leaves its handles as ready as they were. -/
theorem HandlesReady.after {s : State} {ksel csel : Nat} {e : Effect} (h : HandlesReady s ksel csel)
    (he : DataEffect csel s e) : HandlesReady e.after ksel csel := by
  obtain ⟨r, hr⟩ := he.contexts
  obtain ⟨-, hvalid, -⟩ := State.context_of_setReg_contexts hr
  refine ⟨?_, ?_, ?_, hvalid.trans h.ctxValid⟩
  · simpa only [State.keyPresent, he.same.cfg] using h.keyPresent
  · rw [State.slot_congr he.slots]; exact h.keyValid
  · simpa only [State.ctxPresent, he.same.cfg] using h.ctxPresent

/-- What a completed data command leaves is what the effect of one leaves. -/
theorem exec_data_dataEffect {i : Instr} {s t : State} {L : Latch} {csel : Nat} {e : Effect} (hL : s.latch = some L)
    (hi : dataEffectOf i L s = some (csel, e)) (h : exec i s = .next t) : ∃ fp, DataEffect csel s ⟨fp, t⟩ := by
  obtain ⟨-, rfl⟩ := exec_data_next hL hi h
  exact ⟨e.fp, dataEffectOf_dataEffect hi⟩

/-- Handles do not depend on the latched record. -/
theorem HandlesReady.of_latch {s : State} {ksel csel : Nat} {l : Option Latch} (h : HandlesReady s ksel csel) :
    HandlesReady { s with latch := l } ksel csel :=
  ⟨h.keyPresent, h.keyValid, h.ctxPresent, h.ctxValid⟩

/-- The record of a command over `n` whole blocks. -/
theorem blockCount_of_len {L : Latch} {n : Nat} (hL : L.len = BitVec.ofNat 32 (128 * n)) (hn : 128 * n < 2 ^ 31) :
    L.length = 128 * n ∧ blockCount L = n := by
  have hlength : L.length = 128 * n := by
    have hnat : L.len.toNat = 128 * n := by rw [hL, BitVec.toNat_ofNat, Nat.mod_eq_of_lt (by omega)]
    rw [Latch.length, BitVec.toInt_eq_toNat_of_lt (by omega), hnat]
    rfl
  refine ⟨hlength, ?_⟩
  rw [blockCount, hlength]
  omega

/-- An address moved up, as long as it stays below 2^32. -/
theorem toNat_add_ofNat {x : Word} {n : Nat} (h : x.toNat + n < 2 ^ 32) :
    (x + BitVec.ofNat 32 n).toNat = x.toNat + n := by
  rw [BitVec.toNat_add, BitVec.toNat_ofNat]
  omega

theorem runBlk_contexts (f : Block → Block → Block × Block) (csel : Nat) (reg : Block) (L : Latch) (s : State) :
    (runBlk f csel reg L s).after.contexts =
      (s.setReg csel (regAfter f L.srcAddr L.dstAddr ⟨s.mem, reg⟩ (blockCount L))).contexts := by
  rw [runBlk_eq]
  rfl

theorem runBlk_count (f : Block → Block → Block × Block) (csel : Nat) (reg : Block) (L : Latch) (s : State) :
    (runBlk f csel reg L s).after.count = BitVec.ofNat 32 (128 * blockCount L) := by
  rw [runBlk_eq, finish_count]

/-- Processing the blocks of `La` from `sa`, then those of `Lb` where they ended, is processing all of them from `s` as
`L` does. Of a state, processing sees memory and contexts only. -/
theorem runBlk_split (f : Block → Block → Block × Block) {csel : Nat} (hc : csel < 16) (reg : Block)
    {La Lb L : Latch} (hcount : blockCount L = blockCount La + blockCount Lb)
    (hsrc : La.srcAddr = L.srcAddr) (hdst : La.dstAddr = L.dstAddr)
    (hsrc' : Lb.srcAddr = L.srcAddr + 16 * blockCount La) (hdst' : Lb.dstAddr = L.dstAddr + 16 * blockCount La)
    {s sa sb t1 : State} (hsm : sa.mem = s.mem) (hsc : sa.contexts = s.contexts)
    (ht1 : t1 = (runBlk f csel reg La sa).after) (htm : sb.mem = t1.mem) (htc : sb.contexts = t1.contexts) :
    let t2 := (runBlk f csel (sb.context csel).reg Lb sb).after
    let t := (runBlk f csel reg L s).after
    t2.mem = t.mem ∧ t2.contexts = t.contexts ∧ t2.err = t.err ∧ t1.count + t2.count = t.count := by
  obtain ⟨hm1, hr1, -⟩ := runBlk_after f hc reg La sa
  obtain ⟨hm2, -, he2, -⟩ := runBlk_after f hc (sb.context csel).reg Lb sb
  obtain ⟨hm, -, he, -⟩ := runBlk_after f hc reg L s
  rw [← ht1] at hm1 hr1
  have hchain : runBlocks f Lb.srcAddr Lb.dstAddr ⟨sb.mem, (sb.context csel).reg⟩ (blockCount Lb) =
      runBlocks f L.srcAddr L.dstAddr ⟨s.mem, reg⟩ (blockCount L) := by
    rw [htm, State.context_congr htc, hm1, hr1, hsrc, hdst, hsm, hcount, runBlocks_add, hsrc', hdst']
    rfl
  refine ⟨?_, ?_, ?_, ?_⟩
  · rw [hm2, hm, memAfter, memAfter, hchain]
  · have hsb : sb.contexts = (s.setReg csel _).contexts :=
      htc.trans (ht1 ▸ (runBlk_contexts f csel reg La sa).trans (State.setReg_contexts_congr csel _ hsc))
    rw [runBlk_contexts, runBlk_contexts, regAfter, regAfter, hchain, State.setReg_contexts_congr csel _ hsb,
      State.setReg_setReg]
  · rw [he2, he]
  · rw [ht1, runBlk_count, runBlk_count, runBlk_count, hcount, Nat.mul_add, BitVec.ofNat_add]

/-- What a BLKENC that passes its checks leaves, if it completes. -/
theorem exec_blkenc_next {s t : State} {L : Latch} {ksel csel : Nat} (hL : s.latch = some L)
    (hready : HandlesReady s ksel csel) (hl : 0 < L.length) (hd : (s.slot ksel).dir = .encrypt)
    (h : exec (.blkenc ksel csel) s = .next t) : t =
      (runBlk (encBlock Config.primitive (s.slot ksel) (s.context csel).mode) csel (s.context csel).reg L s).after := by
  obtain ⟨-, rfl⟩ := exec_data_next hL rfl h
  exact congrArg Effect.after (blkencWith_processes Config.primitive hready hl hd)

/-- A BLKENC over the blocks of `La`, then one over those of `Lb` where they ended, do what one over all of them does:
the second command passes its checks as the first did, with the same block function. -/
theorem exec_blkenc_split {s t1 t2 t : State} {La Lb L : Latch} {ksel csel : Nat}
    (h1 : exec (.blkenc ksel csel) { s with latch := some La } = .next t1) (hs : t1.err = .success)
    (h2 : exec (.blkenc ksel csel) { t1 with latch := some Lb } = .next t2)
    (h : exec (.blkenc ksel csel) { s with latch := some L } = .next t) (hla : 0 < La.length)
    (hlb : 0 < Lb.length) (hl : 0 < L.length) (hcount : blockCount L = blockCount La + blockCount Lb)
    (hsrc : La.srcAddr = L.srcAddr) (hdst : La.dstAddr = L.dstAddr)
    (hsrc' : Lb.srcAddr = L.srcAddr + 16 * blockCount La) (hdst' : Lb.dstAddr = L.dstAddr + 16 * blockCount La) :
    t2.mem = t.mem ∧ t2.contexts = t.contexts ∧ t2.err = t.err ∧ t1.count + t2.count = t.count := by
  obtain ⟨hready, hd, ht1⟩ := exec_blkenc_success rfl hla h1 hs
  obtain ⟨fp, heffect⟩ := exec_data_dataEffect rfl rfl h1
  have hready' : HandlesReady { t1 with latch := some Lb } ksel csel := (hready.after heffect).of_latch
  have hslot : t1.slot ksel = s.slot ksel := State.slot_congr heffect.slots ksel
  obtain ⟨r, hr⟩ := heffect.contexts
  obtain ⟨-, -, hmode⟩ := State.context_of_setReg_contexts hr
  have ht2 := exec_blkenc_next rfl hready' hlb ((congrArg KeySlot.dir hslot).trans hd) h2
  have ht := exec_blkenc_next rfl (hready.of_latch (l := some L)) hl hd h
  have hf : encBlock Config.primitive (t1.slot ksel) (t1.context csel).mode =
      encBlock Config.primitive (s.slot ksel) (s.context csel).mode := by rw [hslot]; exact congrArg _ hmode
  rw [ht, ht2.trans (congrArg (fun f => (runBlk f csel _ Lb _).after) hf)]
  exact runBlk_split _ (State.context_lt_of_valid hready.ctxValid) _ hcount hsrc hdst hsrc' hdst' rfl rfl ht1 rfl rfl

/-- Settles O50: the records of the statement are those of a split, since no address wraps. -/
theorem splitMessageSameCiphertext : Obligations.SplitMessageSameCiphertext := by
  intro s t1 t2 t L ksel csel a b ha hb hab hsrc hdst h1 hs h2 h
  obtain ⟨hla, hca⟩ := blockCount_of_len (L := { L with len := BitVec.ofNat 32 (128 * a) }) rfl (by omega)
  obtain ⟨hlb, hcb⟩ := blockCount_of_len (L := { L with
    src := L.src + BitVec.ofNat 32 (16 * a)
    dst := L.dst + BitVec.ofNat 32 (16 * a)
    len := BitVec.ofNat 32 (128 * b) }) rfl (by omega)
  obtain ⟨hl, hc⟩ := blockCount_of_len (L := { L with len := BitVec.ofNat 32 (128 * (a + b)) }) rfl hab
  refine exec_blkenc_split h1 hs h2 h (by omega) (by omega) (by omega) (by rw [hc, hca, hcb]) rfl rfl ?_ ?_
  · rw [hca]; exact toNat_add_ofNat hsrc
  · rw [hca]; exact toNat_add_ofNat hdst

/-! ### Decryption after encryption -/

/-- Memories that agree block by block agree byte by byte. -/
theorem Memory.read_eq_of_blocks {m m' : Memory} {a a' n : Nat}
    (h : ∀ i, i < n → m.readBlock (a + 16 * i) = m'.readBlock (a' + 16 * i)) {j : Nat} (hj : j < 16 * n) :
    m.read (a + j) = m'.read (a' + j) := by
  have hlt : j % 16 < 16 := Nat.mod_lt j (by decide)
  have hbyte := congrArg (fun B => Block.byte B (j % 16)) (h (j / 16) (by omega))
  simp only [Memory.byte_readBlock _ _ _ hlt, Nat.add_assoc, Nat.div_add_mod] at hbyte
  exact hbyte

/-- Settles O51: decryption undoes each block and leaves the same register, so the loop over the blocks that encryption
wrote gives the original ones. -/
theorem blockRoundTrip : Obligations.BlockRoundTrip := by
  intro p raw ks d s t L L' ksel csel ksel' csel' hrc hinv hraw hm hs hslot ht hslot' hctx hd hmem hsrc hlen hl nb
    hbuf hbuf' u
  have hfg (r P : Block) := decBlock_encBlock p raw ks d (s.context csel).mode r P hrc hinv hraw hd
  have henc := blkencWith_processes p hs hl (by rw [hslot]; rfl)
  have hdir : (t.slot ksel').dir = .decrypt ∨ (t.context csel').mode = .cfb1 := by
    rw [hslot', hctx]; exact hd
  have hdec := blkdecWith_processes p ht (show 0 < L'.length by rw [Latch.length, hlen]; exact hl) hdir
  have hnb : blockCount L' = nb := by rw [blockCount, Latch.length, hlen]
  rw [hslot] at henc
  rw [hslot', hctx] at hdec
  rw [henc] at hmem
  obtain ⟨humem, -, huerr, hucount⟩ := runBlk_after (decBlock p (makeSlot p raw ks d) (s.context csel).mode)
    (State.context_lt_of_valid ht.ctxValid) (s.context csel).reg L' t
  rw [← hdec, hnb] at humem hucount
  rw [← hdec] at huerr
  refine ⟨huerr, hucount, fun j hj => Memory.read_eq_of_blocks (n := nb) (fun i hi => ?_) hj⟩
  rw [hsrc] at hbuf'
  have hsrcAddr : L'.srcAddr = L.dstAddr := congrArg BitVec.toNat hsrc
  have hM : t.mem.wf = true := hmem ▸ (runBlk_dataEffect ..).memForm hm
  obtain ⟨-, hblocks⟩ := runBlocks_inverse hfg L.srcAddr L.dstAddr L'.dstAddr (s.context csel).reg hm hM nb
    (16 * nb) (16 * nb) (le_refl _) (le_refl _) hbuf hbuf' (fun j _ => by rw [hmem]; rfl) nb (le_refl _)
  have hu : u.mem = (runBlocks _ L.dstAddr L'.dstAddr ⟨t.mem, (s.context csel).reg⟩ nb).mem := hsrcAddr ▸ humem
  rw [hu]
  exact hblocks i hi

/-! ### A key of the other direction -/

/-- In CFB1 mode the two slots of one raw key decrypt a block alike: both hold the encryption schedule, and the round
count does not depend on the direction (00_scope.md R22). -/
theorem decBlock_cfb1_either_key (p : Primitive) (hrc : p.RoundCounts) (raw : Bytes) (ks : KeySize) (d d' : Direction) :
    decBlock p (makeSlot p raw ks d) .cfb1 = decBlock p (makeSlot p raw ks d') .cfb1 := by
  funext reg C
  simp only [decBlock, makeSlot, hrc raw ks]

/-- Settles O52: with neither key is the direction checked, and both decrypt each block alike. -/
theorem cfb1DecryptTakesEitherKey : Obligations.Cfb1DecryptTakesEitherKey := by
  intro p raw ks s L k1 k2 csel hrc h1 h2 hk1 hk2 hmode
  have hsame : blkdecWith p k1 csel L s = blkdecWith p k2 csel L s := by
    rcases lt_or_ge 0 L.length with hl | hl
    · rw [blkdecWith_processes p h1 hl (.inr hmode), blkdecWith_processes p h2 hl (.inr hmode), hmode, hk1, hk2,
        decBlock_cfb1_either_key p hrc raw ks .encrypt .decrypt]
    · rw [blkdecWith_noop h1 p L (.inr hmode) hl, blkdecWith_noop h2 p L (.inr hmode) hl]
  rw [hsame]
  exact ⟨rfl, rfl⟩

end Sys2Proof.Machine
end

section
/-! Two contexts with the same contents: the commands on them do the same (41_block.md R198). -/

namespace Sys2Proof.Machine

/-- Two effects, one on context `c1` and one on `c2`, with the same accesses, outputs, draws and final contents of their
contexts. -/
structure Effect.SameOutputs (c1 c2 : Nat) (e1 e2 : Effect) : Prop where
  fp : e2.fp = e1.fp
  mem : e2.after.mem = e1.after.mem
  err : e2.after.err = e1.after.err
  count : e2.after.count = e1.after.count
  draws : e2.after.draws = e1.after.draws
  context : e2.after.context c2 = e1.after.context c1

/-- The handle check of another context with the same contents finds the same. -/
theorem checkHandles_equal_contexts {s : State} {c1 c2 : Nat} (ksel : Nat) (hctx : s.context c1 = s.context c2)
    (hpres : s.ctxPresent c1 = s.ctxPresent c2) : checkHandles ksel c2 s = checkHandles ksel c1 s := by
  rw [checkHandles, checkHandles, hctx, hpres]

section
variable {s : State} {c1 c2 : Nat} (hctx : s.context c1 = s.context c2)
include hctx

/-- A command that ends before any access leaves both contexts as they were. -/
theorem Effect.SameOutputs.stop_raise (e : ErrorKind) :
    Effect.SameOutputs c1 c2 (.stop (raise e s)) (.stop (raise e s)) :=
  ⟨rfl, rfl, rfl, rfl, rfl, hctx.symm⟩

theorem Effect.SameOutputs.stop_finish (n : Nat) :
    Effect.SameOutputs c1 c2 (.stop (finish n s)) (.stop (finish n s)) :=
  ⟨rfl, rfl, rfl, rfl, rfl, hctx.symm⟩

variable (h1 : (s.context c1).valid = true)
include h1

/-- The same feedback register written to both contexts leaves both with the same contents. -/
theorem context_setReg_equal_contexts (m : Memory) (r : Block) :
    ((s.setMem m).setReg c2 r).context c2 = ((s.setMem m).setReg c1 r).context c1 := by
  have h2 : (s.context c2).valid = true := hctx ▸ h1
  simp only [State.context_setReg, State.context_setMem, State.context_lt_of_valid h1, State.context_lt_of_valid h2,
    and_self, if_true, hctx]

theorem Effect.SameOutputs.of_finish (fp : Footprint) (n : Nat) (m : Memory) (r : Block) :
    Effect.SameOutputs c1 c2 ⟨fp, finish n ((s.setMem m).setReg c1 r)⟩ ⟨fp, finish n ((s.setMem m).setReg c2 r)⟩ :=
  ⟨rfl, rfl, rfl, rfl, rfl, context_setReg_equal_contexts hctx h1 m r⟩

theorem runBlk_sameOutputs (f : Block → Block → Block × Block) (reg : Block) (L : Latch) :
    Effect.SameOutputs c1 c2 (runBlk f c1 reg L s) (runBlk f c2 reg L s) := by
  rw [runBlk_eq, runBlk_eq]
  exact .of_finish hctx h1 ..

theorem runPadenc_sameOutputs (f : Block → Block → Block × Block) (reg : Block) (L : Latch) :
    Effect.SameOutputs c1 c2 (runPadenc f c1 reg L s) (runPadenc f c2 reg L s) := by
  rw [runPadenc_eq, runPadenc_eq]
  exact .of_finish hctx h1 ..

theorem padFailure_sameOutputs (m : Mode) (reg : Block) (nb : Nat) (L : Latch) :
    Effect.SameOutputs c1 c2 (padFailure m c1 reg nb L s) (padFailure m c2 reg nb L s) :=
  ⟨rfl, rfl, rfl, rfl, rfl, context_setReg_equal_contexts hctx h1 _ _⟩

theorem runPaddec_sameOutputs (p : Primitive) (k : KeySlot) (m : Mode) (reg : Block) (L : Latch) :
    Effect.SameOutputs c1 c2 (runPaddec p k m c1 reg L s) (runPaddec p k m c2 reg L s) := by
  rw [runPaddec_eq, runPaddec_eq]
  split
  · exact .of_finish hctx h1 ..
  · exact padFailure_sameOutputs hctx h1 ..

end

section
variable {s : State} {c1 c2 : Nat} (hctx : s.context c1 = s.context c2) (hpres : s.ctxPresent c1 = s.ctxPresent c2)
include hctx hpres

theorem blkencWith_sameOutputs (p : Primitive) (ksel : Nat) (L : Latch) :
    Effect.SameOutputs c1 c2 (blkencWith p ksel c1 L s) (blkencWith p ksel c2 L s) := by
  unfold blkencWith
  rw [checkHandles_equal_contexts ksel hctx hpres]
  rcases checkHandles_cases ksel c1 s with ⟨h, he⟩ | ⟨-, he⟩ <;> rw [he]
  · dsimp only
    split_ifs
    · exact .stop_raise hctx _
    · exact .stop_finish hctx _
    · exact runBlk_sameOutputs hctx h.ctxValid ..
  · exact .stop_raise hctx _

theorem blkdecWith_sameOutputs (p : Primitive) (ksel : Nat) (L : Latch) :
    Effect.SameOutputs c1 c2 (blkdecWith p ksel c1 L s) (blkdecWith p ksel c2 L s) := by
  unfold blkdecWith
  rw [checkHandles_equal_contexts ksel hctx hpres]
  rcases checkHandles_cases ksel c1 s with ⟨h, he⟩ | ⟨-, he⟩ <;> rw [he]
  · dsimp only
    split_ifs
    · exact .stop_raise hctx _
    · exact .stop_finish hctx _
    · exact runBlk_sameOutputs hctx h.ctxValid ..
  · exact .stop_raise hctx _

theorem padencWith_sameOutputs (p : Primitive) (ksel : Nat) (L : Latch) :
    Effect.SameOutputs c1 c2 (padencWith p ksel c1 L s) (padencWith p ksel c2 L s) := by
  unfold padencWith
  rw [checkHandles_equal_contexts ksel hctx hpres]
  rcases checkHandles_cases ksel c1 s with ⟨h, he⟩ | ⟨-, he⟩ <;> rw [he]
  · dsimp only
    split_ifs
    · exact .stop_raise hctx _
    · exact .stop_finish hctx _
    · exact .stop_raise hctx _
    · exact runPadenc_sameOutputs hctx h.ctxValid ..
  · exact .stop_raise hctx _

theorem paddecWith_sameOutputs (p : Primitive) (ksel : Nat) (L : Latch) :
    Effect.SameOutputs c1 c2 (paddecWith p ksel c1 L s) (paddecWith p ksel c2 L s) := by
  unfold paddecWith
  rw [checkHandles_equal_contexts ksel hctx hpres]
  rcases checkHandles_cases ksel c1 s with ⟨h, he⟩ | ⟨-, he⟩ <;> rw [he]
  · dsimp only
    split_ifs
    · exact .stop_raise hctx _
    · exact .stop_finish hctx _
    · exact .stop_raise hctx _
    · exact .stop_raise hctx _
    · exact runPaddec_sameOutputs hctx h.ctxValid ..
  · exact .stop_raise hctx _

end

/-- Of two commands with the same outputs, the second completes if the first does, and leaves the same. -/
theorem exec_sameOutputs {i1 i2 : Instr} {s t : State} {L : Latch} {c1 c2 : Nat} {e1 e2 : Effect}
    (hsame : Effect.SameOutputs c1 c2 e1 e2) (hL : s.latch = some L) (h1 : dataEffectOf i1 L s = some (c1, e1))
    (h2 : dataEffectOf i2 L s = some (c2, e2)) (h : exec i1 s = .next t) :
    ∃ u, exec i2 s = .next u ∧ u.mem = t.mem ∧ u.err = t.err ∧ u.count = t.count ∧ u.draws = t.draws ∧
      u.context c2 = t.context c1 := by
  obtain ⟨ha, rfl⟩ := exec_data_next hL h1 h
  exact ⟨e2.after, exec_data_of_admitted hL h2 (hsame.fp ▸ ha), hsame.mem, hsame.err, hsame.count, hsame.draws,
    hsame.context⟩

/-- Settles O54: each data command's effect on the one context has the outputs of its effect on the other. -/
theorem equalContextsGiveEqualOutputs : Obligations.EqualContextsGiveEqualOutputs := by
  intro s t ksel c1 c2 hctx hpres f hf h
  obtain ⟨L, hL⟩ := exec_next_latch h
  simp only [List.mem_cons, List.not_mem_nil, or_false] at hf
  rcases hf with rfl | rfl | rfl | rfl
  · exact exec_sameOutputs (blkencWith_sameOutputs hctx hpres _ ksel L) hL rfl rfl h
  · exact exec_sameOutputs (blkdecWith_sameOutputs hctx hpres _ ksel L) hL rfl rfl h
  · exact exec_sameOutputs (padencWith_sameOutputs hctx hpres _ ksel L) hL rfl rfl h
  · exact exec_sameOutputs (paddecWith_sameOutputs hctx hpres _ ksel L) hL rfl rfl h

end Sys2Proof.Machine
end

section
/-! The padding of PADENC and PADDEC and the checks before it: the injector, the validator, and the length and mode
checks of the two commands (42_padded.md R221, R222, R227, R232, R233, R238). -/

namespace Sys2Proof.Machine

/-! ### The length and mode checks -/

section Ready
variable {s : State} {ksel csel : Nat} (h : HandlesReady s ksel csel) (p : Primitive) {L : Latch} (hl : 0 < L.length)
include h hl

theorem padencWith_cfb1 (hd : (s.slot ksel).dir = .encrypt) (hm : (s.context csel).mode = .cfb1) :
    padencWith p ksel csel L s = .stop (raise .badCipherState s) := by
  simp only [padencWith, checkHandles_ready h, if_neg (not_not.mpr hd), if_neg (not_le.mpr hl), if_pos hm]

theorem paddecWith_partialBlock (hd : (s.slot ksel).dir = .decrypt) (h16 : L.length % 16 ≠ 0) :
    paddecWith p ksel csel L s = .stop (raise .badData s) := by
  simp only [paddecWith, checkHandles_ready h, if_neg (not_not.mpr hd), if_neg (not_le.mpr hl), if_pos h16]

theorem paddecWith_cfb1 (hd : (s.slot ksel).dir = .decrypt) (h16 : L.length % 16 = 0)
    (hm : (s.context csel).mode = .cfb1) : paddecWith p ksel csel L s = .stop (raise .badCipherState s) := by
  simp only [paddecWith, checkHandles_ready h, if_neg (not_not.mpr hd), if_neg (not_le.mpr hl),
    if_neg (not_not.mpr h16), if_pos hm]

end Ready

/-- Settles O41: the length check of PADDEC comes before the mode check both commands have. -/
theorem paddedLengthAndModeChecks : Obligations.PaddedLengthAndModeChecks := by
  intro s L ksel csel hL h hl reports
  refine ⟨fun hd hm => ?_, fun hd h16 => ?_, fun hd h16 hm => ?_⟩
  · exact exec_data_stop hL (congrArg (fun e => some (csel, e)) (padencWith_cfb1 h _ hl hd hm))
  · exact exec_data_stop hL (congrArg (fun e => some (csel, e)) (paddecWith_partialBlock h _ hl hd h16))
  · exact exec_data_stop hL (congrArg (fun e => some (csel, e)) (paddecWith_cfb1 h _ hl hd h16 hm))

/-! ### The padding injector -/

/-- The bytes of a padded block: the remaining input, then the padding (42_padded.md R222). -/
theorem byte_padBlock {tail : Bytes} {padLen j : Nat} (hlen : tail.length + padLen = 16) (hj : j < 16) :
    Block.byte (padBlock tail padLen) j = if j < tail.length then tail.getD j 0 else BitVec.ofNat 8 padLen := by
  have hpadded : (tail ++ List.replicate padLen (BitVec.ofNat 8 padLen)).length = 16 := by simp [hlen]
  rw [padBlock, Block.byte_ofBytes _ hpadded j (by omega), List.getElem_append]
  split
  · next htail => exact (List.getD_eq_getElem tail 0 htail).symm
  · exact List.getElem_replicate _

theorem toNat_padByte {padLen : Nat} (h : padLen ≤ 16) : (BitVec.ofNat 8 padLen).toNat = padLen := by
  rw [BitVec.toNat_ofNat, Nat.mod_eq_of_lt (by omega)]

/-- Settles O55: the padding length is the complement of the remainder, and the block's bytes are those of its two
parts. -/
theorem paddingInjector : Obligations.PaddingInjector := by
  refine ⟨fun n => by unfold padLength; omega, fun tail padLen j hlen hpad hj => ?_⟩
  rw [byte_padBlock hlen hj]
  split
  · rfl
  · exact toNat_padByte (by omega)

/-! ### The padding validator -/

/-- The bound on the last byte, outside CFB1 mode (42_padded.md R233, R237). -/
theorem boundOk_iff {rule : EcbPadRule} {m : Mode} (hm : m ≠ .cfb1) (p : Nat) :
    boundOk rule m p = true ↔ if m = .ecb ∧ rule = .reference then p ≤ 15 else 1 ≤ p ∧ p ≤ 16 := by
  cases m with
  | ecb => cases rule <;> simp [boundOk]
  | cbc => simp [boundOk]
  | cfb1 => exact absurd rfl hm

/-- The validator accepts a last byte within the bound that the last bytes of that number all equal. -/
theorem padOk_iff {rule : EcbPadRule} {m : Mode} {Q : Block} :
    padOk rule m Q = true ↔ boundOk rule m (Block.byte Q 15).toNat = true ∧
      ∀ j, 16 - (Block.byte Q 15).toNat ≤ j → j < 16 → Block.byte Q j = Block.byte Q 15 := by
  simp only [padOk, Bool.and_eq_true, List.all_eq_true, List.mem_range, Bool.or_eq_true, decide_eq_true_eq]
  refine and_congr_right fun _ => forall_congr' fun j => ⟨fun h hlo hj => ?_, fun h hj => ?_⟩
  · exact (h hj).resolve_left (by omega)
  · exact or_iff_not_imp_left.mpr fun hlo => h (by omega) hj

/-- Settles O56: the bound and the equal bytes, with the last byte's value named. -/
theorem paddingValidator : Obligations.PaddingValidator := by
  intro rule m Q hm
  rw [padOk_iff, boundOk_iff hm]
  simp only [← BitVec.toNat_inj]
  exact ⟨fun h => ⟨_, rfl, h⟩, fun ⟨_, hp, h⟩ => hp ▸ h⟩

end Sys2Proof.Machine
end

section
/-! PADENC over a whole command: the full blocks through the datapath, then the padded one (42_padded.md R224 to
R226). -/

namespace Sys2Proof.Machine

/-- Parts of two buffers that are disjoint or start at the same address are so too. -/
theorem DisjointOrSame.mono {src n n' dst m m' : Nat} (h : DisjointOrSame src n dst m) (hn : n' ≤ n) (hm : m' ≤ m) :
    DisjointOrSame src n' dst m' := by
  rcases h with h | h | h
  · exact .inl h
  · exact .inr (.inl (by omega))
  · exact .inr (.inr (by omega))

/-- A Block stays as it was when 16 bytes apart from it are written. -/
theorem Memory.readBlock_writeBlock_outside {a b : Nat} (B : Block) {m : Memory} (hm : m.wf = true)
    (h : b + 16 ≤ a ∨ a + 16 ≤ b) : (m.writeBlock a B).readBlock b = m.readBlock b :=
  Memory.readBlock_congr fun _ _ => Memory.read_writeBlock_outside _ _ _ hm (by omega)

section
variable {f : Block → Block → Block × Block} {reg : Block} {L : Latch} {s : State} (hm : s.mem.wf = true)
include hm

/-- On buffers that are disjoint or the same, the final block holds the remaining input bytes as they were before the
command. -/
theorem finalBlock_eq_input
    (hs : DisjointOrSame L.srcAddr L.length.toNat L.dstAddr (16 * (L.length.toNat / 16 + 1))) :
    finalBlock f reg L s = padBlock (s.mem.readBytes (L.srcAddr + 16 * (L.length.toNat / 16)) (L.length.toNat % 16))
      (16 - L.length.toNat % 16) := by
  rw [finalBlock_eq]
  congr 1
  refine Memory.readBytes_congr fun j hj => ?_
  rw [Nat.add_assoc]
  exact runBlocks_input f L.srcAddr L.dstAddr ⟨s.mem, reg⟩ hm _ _ _ (by omega) (by omega) (by omega) hs

/-- The final block of PADENC leaves the output of the blocks before it. -/
theorem runPadenc_read_fullBlocks (csel : Nat) {a : Nat} (ha : a < L.dstAddr + 16 * (L.length.toNat / 16)) :
    (runPadenc f csel reg L s).after.mem.read a =
      (memAfter f L.srcAddr L.dstAddr ⟨s.mem, reg⟩ (L.length.toNat / 16)).read a := by
  rw [runPadenc_mem]
  exact Memory.read_writeBlock_outside _ _ _ (runBlocks_wf f _ _ _ hm _) (.inl ha)

/-- The last output block of PADENC is the datapath's on the final block. -/
theorem runPadenc_readBlock_last (csel : Nat) :
    (runPadenc f csel reg L s).after.mem.readBlock (L.dstAddr + 16 * (L.length.toNat / 16)) =
      (f (regAfter f L.srcAddr L.dstAddr ⟨s.mem, reg⟩ (L.length.toNat / 16)) (finalBlock f reg L s)).2 := by
  rw [runPadenc_mem]
  exact Memory.readBlock_writeBlock _ _ (runBlocks_wf f _ _ _ hm _)

end

/-- The feedback registers between the blocks of a PADENC: those of the loop, and after the final block the one it
leaves. -/
def padencRegs (f : Block → Block → Block × Block) (reg : Block) (L : Latch) (s : State) : Nat → Block :=
  Function.update (regAfter f L.srcAddr L.dstAddr ⟨s.mem, reg⟩) (L.length.toNat / 16 + 1)
    (f (regAfter f L.srcAddr L.dstAddr ⟨s.mem, reg⟩ (L.length.toNat / 16)) (finalBlock f reg L s)).1

theorem padencRegs_of_le {f : Block → Block → Block × Block} {reg : Block} {L : Latch} {s : State} {i : Nat}
    (hi : i ≤ L.length.toNat / 16) :
    padencRegs f reg L s i = regAfter f L.srcAddr L.dstAddr ⟨s.mem, reg⟩ i :=
  Function.update_of_ne (by omega) _ _

theorem padencRegs_last (f : Block → Block → Block × Block) (reg : Block) (L : Latch) (s : State) :
    padencRegs f reg L s (L.length.toNat / 16 + 1) =
      (f (regAfter f L.srcAddr L.dstAddr ⟨s.mem, reg⟩ (L.length.toNat / 16)) (finalBlock f reg L s)).1 :=
  Function.update_self ..

theorem runPadenc_draws (f : Block → Block → Block × Block) (csel : Nat) (reg : Block) (L : Latch) (s : State) :
    (runPadenc f csel reg L s).after.draws = s.draws := by
  rw [runPadenc_eq, finish_draws, State.setReg_draws, State.setMem_draws]

/-- Each full block of a PADENC is the datapath's, on buffers that are disjoint or the same. -/
theorem runPadenc_fullBlock {f : Block → Block → Block × Block} {reg : Block} {L : Latch} {s : State}
    (hm : s.mem.wf = true)
    (hs : DisjointOrSame L.srcAddr L.length.toNat L.dstAddr (16 * (L.length.toNat / 16 + 1))) (csel : Nat) {i : Nat}
    (hi : i < L.length.toNat / 16) :
    f (padencRegs f reg L s i) (s.mem.readBlock (L.srcAddr + 16 * i)) =
      (padencRegs f reg L s (i + 1), (runPadenc f csel reg L s).after.mem.readBlock (L.dstAddr + 16 * i)) := by
  rw [padencRegs_of_le (by omega), padencRegs_of_le (by omega),
    Memory.readBlock_congr fun j hj => runPadenc_read_fullBlocks hm csel (by omega)]
  exact runBlocks_datapath f hm (hs.mono (by omega) (by omega)) hi

/-- The final block of a PADENC is the datapath's too. -/
theorem runPadenc_finalBlock {f : Block → Block → Block × Block} {reg : Block} {L : Latch} {s : State}
    (hm : s.mem.wf = true) (csel : Nat) :
    f (padencRegs f reg L s (L.length.toNat / 16)) (finalBlock f reg L s) =
      (padencRegs f reg L s (L.length.toNat / 16 + 1),
        (runPadenc f csel reg L s).after.mem.readBlock (L.dstAddr + 16 * (L.length.toNat / 16))) := by
  rw [padencRegs_of_le (le_refl _), padencRegs_last, runPadenc_readBlock_last hm]

/-- What PADENC with block function `f` leaves in `t`, from the feedback register `reg`: each full block is `f` of the
input block as it was before the command and of the running register, so is the final block, and nothing else
changes. -/
def PadsAndEncrypts (f : Block → Block → Block × Block) (csel : Nat) (reg : Block) (L : Latch) (s t : State)
    (regs : Nat → Block) : Prop :=
  let n := L.length.toNat
  let nb := n / 16
  regs 0 = reg ∧
  (∀ i, i < nb → f (regs i) (s.mem.readBlock (L.srcAddr + 16 * i)) =
    (regs (i + 1), t.mem.readBlock (L.dstAddr + 16 * i))) ∧
  f (regs nb) (padBlock (s.mem.readBytes (L.srcAddr + 16 * nb) (n % 16)) (16 - n % 16)) =
    (regs (nb + 1), t.mem.readBlock (L.dstAddr + 16 * nb)) ∧
  t.context csel = { s.context csel with reg := regs (nb + 1) } ∧
  (∀ a, a < L.dstAddr ∨ L.dstAddr + 16 * (nb + 1) ≤ a → t.mem.read a = s.mem.read a) ∧
  t.err = .success ∧ t.count.toNat = 16 * (nb + 1) ∧ t.busy = false ∧ t.draws = s.draws ∧ SameRegisters s t

theorem runPadenc_padsAndEncrypts (f : Block → Block → Block × Block) {csel : Nat} (hc : csel < 16) (reg : Block)
    {L : Latch} {s : State} (hm : s.mem.wf = true)
    (hs : DisjointOrSame L.srcAddr L.length.toNat L.dstAddr (16 * (L.length.toNat / 16 + 1))) :
    PadsAndEncrypts f csel reg L s (runPadenc f csel reg L s).after (padencRegs f reg L s) := by
  have heffect := runPadenc_dataEffect f csel reg L s
  refine ⟨padencRegs_of_le (Nat.zero_le _), fun i hi => runPadenc_fullBlock hm hs csel hi, ?_, ?_, fun a ha => ?_,
    rfl, runPadenc_count .., rfl, runPadenc_draws .., heffect.same⟩
  · rw [← finalBlock_eq_input (f := f) (reg := reg) hm hs]
    exact runPadenc_finalBlock hm csel
  · rw [runPadenc_reg _ _ _ _ _ hc, padencRegs_last]
    rfl
  · exact heffect.outside hm a (Span.not_contains_iff.mpr ha)

/-- Settles O57: past its checks PADENC runs the datapath over the full blocks, then over the final one. -/
theorem padencPadsAndEncrypts : Obligations.PadencPadsAndEncrypts := by
  intro s L ksel csel hm hL h hd hmode hl n nb hr hw hs
  exact ⟨_, _, exec_data_of_admitted (i := .padenc ksel csel) hL
      (congrArg (fun e => some (csel, e)) (padencWith_processes Config.primitive h hl hd hmode))
      (Footprint.admitted_of_bytes hr hw),
    runPadenc_padsAndEncrypts _ (State.context_lt_of_valid h.ctxValid) _ hm hs⟩

end Sys2Proof.Machine
end

section
/-! PADDEC over a whole command: the decrypted blocks in closed form, and what it leaves when the padding passes and
when it does not (42_padded.md R230, R233 to R236). -/

namespace Sys2Proof.Machine

/-! ### The decrypted blocks -/

/-- The feedback register with which block `i` of a message at `src` is decrypted: in CBC mode the ciphertext block
before it, in ECB mode never changed (41_block.md R186, R188). -/
def cipherReg (m : Mode) (reg : Block) (mem : Memory) (src i : Nat) : Block :=
  if m = .cbc then (if i = 0 then reg else mem.readBlock (src + 16 * (i - 1))) else reg

/-- Plaintext block `i` of a message at `src` (41_block.md R186, R188). -/
def plainBlock (p : Primitive) (k : KeySlot) (m : Mode) (reg : Block) (mem : Memory) (src i : Nat) : Block :=
  p.inv k.rk k.nr (mem.readBlock (src + 16 * i)) ^^^
    (if m = .cbc then (if i = 0 then reg else mem.readBlock (src + 16 * (i - 1))) else 0)

section
variable (p : Primitive) (k : KeySlot) {m : Mode} (hmode : m ≠ .cfb1)
include hmode

theorem decBlock_cipherReg (reg : Block) (mem : Memory) (src i : Nat) :
    (decBlock p k m (cipherReg m reg mem src i) (mem.readBlock (src + 16 * i))).2 =
      plainBlock p k m reg mem src i := by
  cases m with
  | ecb => simp [decBlock, plainBlock]
  | cbc => simp [decBlock, plainBlock, cipherReg]
  | cfb1 => exact absurd rfl hmode

/-- The register that block `i` leaves is the one block `i + 1` is decrypted with. -/
theorem decBlock_cipherReg_succ (reg : Block) (mem : Memory) (src i : Nat) :
    (decBlock p k m (cipherReg m reg mem src i) (mem.readBlock (src + 16 * i))).1 =
      cipherReg m reg mem src (i + 1) := by
  cases m with
  | ecb | cbc => simp [decBlock, cipherReg]
  | cfb1 => exact absurd rfl hmode

variable {src dst n i : Nat} {c : Chain} (hm : c.mem.wf = true) (hs : DisjointOrSame src n dst n)
include hm hs

/-- The register the loop over `i` blocks leaves, on buffers that are disjoint or the same. -/
theorem regAfter_decBlock (hi : 16 * i ≤ n) :
    regAfter (decBlock p k m) src dst c i = cipherReg m c.reg c.mem src i := by
  induction i with
  | zero => simp [regAfter, runBlocks, cipherReg]
  | succ i ih =>
    have hin : (memAfter (decBlock p k m) src dst c i).readBlock (src + 16 * i) = c.mem.readBlock (src + 16 * i) :=
      runBlocks_next_input _ src dst c hm i n n hi (by omega) hs
    rw [regAfter_succ, hin, ih (by omega), decBlock_cipherReg_succ p k hmode]

/-- Block `i` as the loop decrypts it. -/
theorem runBlocks_decBlock_output (hi : 16 * (i + 1) ≤ n) :
    (decBlock p k m (runBlocks (decBlock p k m) src dst c i).reg
      ((runBlocks (decBlock p k m) src dst c i).mem.readBlock (src + 16 * i))).2 =
      plainBlock p k m c.reg c.mem src i := by
  rw [runBlocks_next_input _ src dst c hm i n n hi (by omega) hs, ← decBlock_cipherReg p k hmode,
    ← regAfter_decBlock p k hmode hm hs (by omega)]
  rfl

end

/-! ### The two ends of a PADDEC -/

section
variable (p : Primitive) (k : KeySlot) {m : Mode} (csel : Nat) (reg : Block) {L : Latch} {s : State}

theorem paddecChain_wf (hm : s.mem.wf = true) : (paddecChain p k m reg L s).mem.wf = true :=
  runBlocks_wf _ L.srcAddr L.dstAddr ⟨s.mem, reg⟩ hm _

theorem runPaddec_draws (hok : padOk s.cfg.ecbPadRule m (paddecLast p k m reg L s) = true) :
    (runPaddec p k m csel reg L s).after.draws = s.draws := by
  rw [runPaddec_eq, if_pos hok, finish_draws, State.setReg_draws, State.setMem_draws]

theorem runPaddec_failure (hbad : padOk s.cfg.ecbPadRule m (paddecLast p k m reg L s) = false) :
    runPaddec p k m csel reg L s = padFailure m csel reg (L.length.toNat / 16) L s := by
  rw [runPaddec_eq, hbad, if_neg Bool.false_ne_true]

end

/-- A padding failure leaves the feedback register of an ECB context (42_padded.md R236). -/
theorem padFailure_ecb_reg {csel : Nat} (hc : csel < 16) (reg : Block) (nb : Nat) (L : Latch) (s : State) :
    ((padFailure .ecb csel reg nb L s).after.context csel).reg = reg := by
  have hcontexts : (padFailure .ecb csel reg nb L s).after.contexts = (s.setReg csel reg).contexts := rfl
  rw [State.context_congr hcontexts, State.context_setReg, if_pos ⟨rfl, hc⟩]

/-! ### The last block -/

section
variable (p : Primitive) (k : KeySlot) {m : Mode} (reg : Block) {L : Latch} {s : State} (hm : s.mem.wf = true)
  (hl : 0 < L.length) (h16 : L.length.toNat % 16 = 0)
  (hs : DisjointOrSame L.srcAddr L.length.toNat L.dstAddr L.length.toNat)
include hm hl h16 hs

theorem paddecLastInput_eq : paddecLastInput p k m reg L s =
    s.mem.readBlock (L.srcAddr + 16 * (L.length.toNat / 16 - 1)) :=
  runBlocks_next_input _ L.srcAddr L.dstAddr ⟨s.mem, reg⟩ hm _ _ _ (by omega) (by omega) hs

variable (hmode : m ≠ .cfb1)
include hmode

theorem paddecLast_eq : paddecLast p k m reg L s =
    plainBlock p k m reg s.mem L.srcAddr (L.length.toNat / 16 - 1) :=
  runBlocks_decBlock_output p k hmode (c := ⟨s.mem, reg⟩) hm hs (by omega)

/-- The register PADDEC leaves when the padding passes: in CBC mode the last input block (42_padded.md R235). -/
theorem paddecLastReg_eq :
    (decBlock p k m (paddecChain p k m reg L s).reg (paddecLastInput p k m reg L s)).1 =
      if m = .cbc then s.mem.readBlock (L.srcAddr + 16 * (L.length.toNat / 16 - 1)) else reg := by
  have hreg : (paddecChain p k m reg L s).reg = cipherReg m reg s.mem L.srcAddr (L.length.toNat / 16 - 1) :=
    regAfter_decBlock p k hmode (c := ⟨s.mem, reg⟩) hm hs (by omega)
  rw [paddecLastInput_eq p k reg hm hl h16 hs, hreg, decBlock_cipherReg_succ p k hmode]
  rfl

/-! ### What PADDEC leaves -/

variable {csel : Nat} (hc : csel < 16)
include hc

/-- With a good padding, PADDEC writes the plaintext up to its padding (42_padded.md R235). -/
theorem runPaddec_read_plaintext (hok : padOk s.cfg.ecbPadRule m (paddecLast p k m reg L s) = true)
    {i j : Nat} (hi : i < L.length.toNat / 16) (hj : j < 16)
    (hp : 16 * i + j < L.length.toNat - (Block.byte (paddecLast p k m reg L s) 15).toNat) :
    (runPaddec p k m csel reg L s).after.mem.read (L.dstAddr + 16 * i + j) =
      Block.byte (plainBlock p k m reg s.mem L.srcAddr i) j := by
  have hwf := paddecChain_wf p k (m := m) reg (L := L) hm
  obtain ⟨hmem, -⟩ := (if_pos hok).mp (runPaddec_after p k hmode hc reg h16 s)
  rw [hmem]
  by_cases hlast : i = L.length.toNat / 16 - 1
  · rw [← hlast, Memory.read_writeBytes_inside _ _ _ hwf
      (by simp only [List.length_take, Block.length_toBytes]; omega), List.getElem_take, Block.getElem_toBytes,
      paddecLast_eq p k reg hm hl h16 hs hmode, hlast]
  · rw [Memory.read_writeBytes_outside _ _ _ hwf (by omega), ← Memory.byte_readBlock _ _ _ hj]
    exact congrArg (Block.byte · j) ((runBlocks_block _ L.srcAddr L.dstAddr ⟨s.mem, reg⟩ hm _ i (by omega)).trans
      (runBlocks_decBlock_output p k hmode (c := ⟨s.mem, reg⟩) hm hs (by omega)))

/-- What PADDEC leaves when the padding passes (42_padded.md R235). -/
theorem runPaddec_unpads :
    let t := (runPaddec p k m csel reg L s).after
    let Q := plainBlock p k m reg s.mem L.srcAddr (L.length.toNat / 16 - 1)
    let len := L.length.toNat - (Block.byte Q 15).toNat
    padOk s.cfg.ecbPadRule m Q = true → t.err = .success ∧ t.count.toNat = len ∧ t.draws = s.draws ∧
      (∀ i j, i < L.length.toNat / 16 → j < 16 → 16 * i + j < len →
        t.mem.read (L.dstAddr + 16 * i + j) = Block.byte (plainBlock p k m reg s.mem L.srcAddr i) j) ∧
      (∀ a, a < L.dstAddr ∨ L.dstAddr + len ≤ a → t.mem.read a = s.mem.read a) ∧
      (t.context csel).reg =
        if m = .cbc then s.mem.readBlock (L.srcAddr + 16 * (L.length.toNat / 16 - 1)) else reg := by
  intro t Q len hok
  have hQ := paddecLast_eq p k reg hm hl h16 hs hmode
  have hok' : padOk s.cfg.ecbPadRule m (paddecLast p k m reg L s) = true := hQ ▸ hok
  obtain ⟨-, hreg, herr, hcount⟩ := (if_pos hok').mp (runPaddec_after p k hmode hc reg h16 s)
  have hlen : len = L.length.toNat - (Block.byte (paddecLast p k m reg L s) 15).toNat := by rw [hQ]
  refine ⟨herr, hcount.trans hlen.symm, ?_, fun i j hi hj hij => ?_, fun a ha => ?_, ?_⟩
  · exact runPaddec_draws p k csel reg hok'
  · exact runPaddec_read_plaintext p k reg hm hl h16 hs hmode hc hok' hi hj (hlen ▸ hij)
  · refine (runPaddec_dataEffect p k m csel reg L s (by omega)).outside hm a ?_
    rw [runPaddec_eq, if_pos hok']
    exact Span.not_contains_iff.mpr (by omega)
  · exact hreg.trans (paddecLastReg_eq p k reg hm hl h16 hs hmode)

/-- What PADDEC leaves when the padding fails (42_padded.md R236). -/
theorem runPaddec_rejects :
    let t := (runPaddec p k m csel reg L s).after
    padOk s.cfg.ecbPadRule m (plainBlock p k m reg s.mem L.srcAddr (L.length.toNat / 16 - 1)) = false →
      t.err = .failed .badData ∧ t.count = 0 ∧
      (∀ a, a < L.dstAddr ∨ L.dstAddr + 16 * (L.length.toNat / 16 - 1) ≤ a → t.mem.read a = s.mem.read a) ∧
      (m = .ecb → (t.context csel).reg = reg) := by
  intro t hbad
  have ht : t = (padFailure m csel reg (L.length.toNat / 16) L s).after := by
    rw [← runPaddec_failure p k csel reg (paddecLast_eq p k reg hm hl h16 hs hmode ▸ hbad)]
  rw [ht]
  refine ⟨rfl, rfl, fun a ha => ?_, fun hecb => ?_⟩
  · exact (padFailure_dataEffect m csel reg _ L s).outside hm a (Span.not_contains_iff.mpr ha)
  · rw [hecb]
    exact padFailure_ecb_reg hc ..

end

/-- Settles O58: past its checks PADDEC validates the last decrypted block, and does the one or the other. -/
theorem paddecValidatesAndUnpads : Obligations.PaddecValidatesAndUnpads := by
  intro s L ksel csel hm hL h hd hmode hl h16 n nb src dst k x C out Q p ha hs
  have hc := State.context_lt_of_valid h.ctxValid
  have hl' : 0 < L.length := hl
  have h16' : L.length.toNat % 16 = 0 := by unfold Latch.length; omega
  have heffect := runPaddec_dataEffect Config.primitive k x.mode csel x.reg L s (by omega)
  obtain ⟨r, hr⟩ := heffect.contexts
  obtain ⟨hother, hvalid, hmode'⟩ := State.context_of_setReg_contexts hr
  exact ⟨_, exec_data_of_admitted (i := .paddec ksel csel) hL
      (congrArg (fun e => some (csel, e)) (paddecWith_processes Config.primitive h hl hd h16' hmode))
      (runPaddec_admitted _ _ _ _ _ ha),
    State.busy_eq_false_iff.mpr heffect.latch, heffect.same, heffect.slots, hother, hvalid, hmode',
    runPaddec_unpads Config.primitive k x.reg hm hl h16' hs hmode hc,
    runPaddec_rejects Config.primitive k x.reg hm hl h16' hs hmode hc⟩

end Sys2Proof.Machine
end

section
/-! PADDEC undoes PADENC (42_padded.md R240). -/

namespace Sys2Proof.Machine

/-! ### Injector and validator -/

section
variable {tail : Bytes} {padLen : Nat} (hlen : tail.length + padLen = 16) (hpad : 1 ≤ padLen)
include hlen hpad

/-- The last byte of a padded block is the padding length. -/
theorem padBlock_lastByte : (Block.byte (padBlock tail padLen) 15).toNat = padLen := by
  rw [byte_padBlock hlen (by omega), if_neg (by omega), toNat_padByte (by omega)]

/-- The validator accepts what the injector made, as far as its bound lets it. -/
theorem padOk_padBlock (rule : EcbPadRule) (m : Mode) :
    padOk rule m (padBlock tail padLen) = boundOk rule m padLen := by
  rw [Bool.eq_iff_iff, padOk_iff, padBlock_lastByte hlen hpad, and_iff_left]
  intro j hlo hj
  rw [byte_padBlock hlen hj, byte_padBlock hlen (by omega), if_neg (by omega), if_neg (by omega)]

/-- The bytes of a padded block before the padding are the remaining input. -/
theorem toBytes_padBlock_take : (Block.toBytes (padBlock tail padLen)).take (16 - padLen) = tail := by
  have hpadded : (tail ++ List.replicate padLen (BitVec.ofNat 8 padLen)).length = 16 := by simp [hlen]
  rw [padBlock, Block.toBytes_ofBytes _ hpadded, show 16 - padLen = tail.length by omega, List.take_left]

end

/-- A padding length is within the bound of HARMONIZED, and within that of CBC mode under either rule. -/
theorem boundOk_of_harmonized_or_cbc {rule : EcbPadRule} {m : Mode} (h : rule = .harmonized ∨ m = .cbc) {padLen : Nat}
    (h1 : 1 ≤ padLen) (h16 : padLen ≤ 16) : boundOk rule m padLen = true := by
  rcases h with rfl | rfl
  · cases m <;> simp [boundOk, h1, h16]
  · simp [boundOk, h1, h16]

/-- Full blocks that are those of a message of `n` bytes, with its remaining bytes written after them, are the
message. -/
theorem Memory.read_message {m M : Memory} {src out n : Nat} (hM : M.wf = true)
    (hblocks : ∀ i, i < n / 16 → M.readBlock (out + 16 * i) = m.readBlock (src + 16 * i)) {j : Nat} (hj : j < n) :
    (M.writeBytes (out + 16 * (n / 16)) (m.readBytes (src + 16 * (n / 16)) (n % 16))).read (out + j) =
      m.read (src + j) := by
  by_cases hfull : j < 16 * (n / 16)
  · rw [Memory.read_writeBytes_outside _ _ _ hM (by omega)]
    exact Memory.read_eq_of_blocks hblocks hfull
  · obtain ⟨r, rfl⟩ := Nat.exists_eq_add_of_le (not_lt.mp hfull)
    rw [← Nat.add_assoc, Memory.read_writeBytes_inside _ _ _ hM (by rw [Memory.length_readBytes]; omega),
      Memory.getElem_readBytes, Nat.add_assoc]

/-! ### The last block -/

section
variable {f : Block → Block → Block × Block} {p : Primitive} {k : KeySlot} {m : Mode}
  (hfg : ∀ r P, decBlock p k m r (f r P).2 = ((f r P).1, P)) {reg : Block} {s t : State} {L L' : Latch} {csel : Nat}
  (hm : s.mem.wf = true) (hmem : t.mem = (runPadenc f csel reg L s).after.mem) (hsrc : L'.srcAddr = L.dstAddr)
  (hlen : L'.length.toNat = 16 * (L.length.toNat / 16 + 1))
  (hs : DisjointOrSame L.srcAddr L.length.toNat L.dstAddr (16 * (L.length.toNat / 16 + 1)))
  (hs' : DisjointOrSame L.dstAddr (16 * (L.length.toNat / 16 + 1)) L'.dstAddr (16 * (L.length.toNat / 16 + 1)))
include hfg hm hmem hsrc hlen hs hs'

/-- The full blocks come back, and the register is the one the final block was encrypted with. -/
theorem paddecChain_of_padenc :
    (paddecChain p k m reg L' t).reg = regAfter f L.srcAddr L.dstAddr ⟨s.mem, reg⟩ (L.length.toNat / 16) ∧
    ∀ i, i < L.length.toNat / 16 → (paddecChain p k m reg L' t).mem.readBlock (L'.dstAddr + 16 * i) =
      s.mem.readBlock (L.srcAddr + 16 * i) := by
  have hM : t.mem.wf = true := hmem ▸ (runPadenc_dataEffect f csel reg L s).memForm hm
  rw [paddecChain, hsrc, hlen, show 16 * (L.length.toNat / 16 + 1) / 16 - 1 = L.length.toNat / 16 by omega]
  exact runBlocks_inverse hfg L.srcAddr L.dstAddr L'.dstAddr reg hm hM (L.length.toNat / 16) _ _ (by omega) (by omega)
    hs hs' (fun j hj => by rw [hmem]; exact runPadenc_read_fullBlocks hm csel (by omega)) _ (le_refl _)

/-- The last decrypted block of PADDEC is the padded block PADENC encrypted. -/
theorem paddecLast_of_padenc : paddecLast p k m reg L' t = finalBlock f reg L s := by
  have hM : t.mem.wf = true := hmem ▸ (runPadenc_dataEffect f csel reg L s).memForm hm
  have hnb : L'.length.toNat / 16 - 1 = L.length.toNat / 16 := by omega
  have hin : paddecLastInput p k m reg L' t =
      (f (regAfter f L.srcAddr L.dstAddr ⟨s.mem, reg⟩ (L.length.toNat / 16)) (finalBlock f reg L s)).2 := by
    rw [← runPadenc_readBlock_last hm csel, ← hmem, paddecLastInput, paddecChain, hnb, hsrc]
    exact runBlocks_next_input _ L.dstAddr L'.dstAddr ⟨t.mem, reg⟩ hM _ _ _ (by omega) (by omega) hs'
  rw [paddecLast, (paddecChain_of_padenc hfg hm hmem hsrc hlen hs hs').1, hin, hfg]

/-! ### The whole message -/

/-- That block holds the remaining bytes of the message as they were before the PADENC (42_padded.md R222). -/
theorem paddecLast_of_padenc_eq : paddecLast p k m reg L' t =
    padBlock (s.mem.readBytes (L.srcAddr + 16 * (L.length.toNat / 16)) (L.length.toNat % 16))
      (16 - L.length.toNat % 16) :=
  (paddecLast_of_padenc hfg hm hmem hsrc hlen hs hs').trans (finalBlock_eq_input hm hs)

/-- A PADDEC of what a PADENC wrote is BadData, where the padding length is out of the bound. -/
theorem runPaddec_of_padenc_outOfBound (csel' : Nat)
    (hbound : boundOk t.cfg.ecbPadRule m (16 - L.length.toNat % 16) = false) :
    (runPaddec p k m csel' reg L' t).after.err = .failed .badData := by
  have hbad : padOk t.cfg.ecbPadRule m (paddecLast p k m reg L' t) = false := by
    rw [paddecLast_of_padenc_eq hfg hm hmem hsrc hlen hs hs', padOk_padBlock
      (by rw [Memory.length_readBytes]; omega) (by omega), hbound]
  rw [runPaddec_failure p k csel' reg hbad]
  rfl

variable (hmode : m ≠ .cfb1) {csel' : Nat} (hc : csel' < 16)
include hmode hc

/-- A PADDEC of what a PADENC wrote gives the message back, where the padding length is within the bound. -/
theorem runPaddec_of_padenc (hbound : boundOk t.cfg.ecbPadRule m (16 - L.length.toNat % 16) = true) :
    let u := (runPaddec p k m csel' reg L' t).after
    u.err = .success ∧ u.count.toNat = L.length.toNat ∧
      ∀ j, j < L.length.toNat → u.mem.read (L'.dstAddr + j) = s.mem.read (L.srcAddr + j) := by
  intro u
  have hM : t.mem.wf = true := hmem ▸ (runPadenc_dataEffect f csel reg L s).memForm hm
  have hQ := paddecLast_of_padenc_eq hfg hm hmem hsrc hlen hs hs'
  obtain ⟨-, hblocks⟩ := paddecChain_of_padenc hfg hm hmem hsrc hlen hs hs'
  have htail : (s.mem.readBytes (L.srcAddr + 16 * (L.length.toNat / 16)) (L.length.toNat % 16)).length +
      (16 - L.length.toNat % 16) = 16 := by rw [Memory.length_readBytes]; omega
  have hpad : 1 ≤ 16 - L.length.toNat % 16 := by omega
  have hnb : L'.length.toNat / 16 - 1 = L.length.toNat / 16 := by omega
  have hcount : L'.length.toNat - (16 - L.length.toNat % 16) = L.length.toNat := by omega
  have hok : padOk t.cfg.ecbPadRule m (paddecLast p k m reg L' t) = true := by
    rw [hQ, padOk_padBlock htail hpad, hbound]
  obtain ⟨humem, -, huerr, hucount⟩ := (if_pos hok).mp (runPaddec_after p k hmode hc reg (by omega) t)
  rw [hQ, padBlock_lastByte htail hpad] at humem hucount
  rw [toBytes_padBlock_take htail hpad, hnb] at humem
  refine ⟨huerr, hucount.trans hcount, fun j hj => ?_⟩
  rw [humem]
  exact Memory.read_message (paddecChain_wf p k reg hM) hblocks hj

end

/-- Settles O60: the last block decrypts to the padded block, whose padding length is in the bound or, for a whole block
of padding in ECB mode under REFERENCE, is not. -/
theorem paddedRoundTrip : Obligations.PaddedRoundTrip := by
  intro p raw ks s t L L' ksel csel ksel' csel' hrc hinv hraw hm hs hslot hmode ht hslot' hctx hmem hsrc hl n padded
    hlen hbuf hbuf' u
  have hfg (r P : Block) := decBlock_encBlock p raw ks .decrypt (s.context csel).mode r P hrc (fun _ => hinv) hraw
    (.inl rfl)
  have hlen' : L'.length.toNat = padded := by rw [Latch.length, hlen]; rfl
  have hsrc' : L'.srcAddr = L.dstAddr := congrArg BitVec.toNat hsrc
  have henc := padencWith_processes p hs hl (by rw [hslot]; rfl) hmode
  have hdec := paddecWith_processes p ht (show 0 < L'.length by omega) (by rw [hslot']; rfl) (by omega)
    (by rw [hctx]; exact hmode)
  rw [hslot] at henc
  rw [hslot', hctx] at hdec
  rw [henc] at hmem
  rw [hsrc] at hbuf'
  have hc := State.context_lt_of_valid ht.ctxValid
  have hu : u =
      (runPaddec p (makeSlot p raw ks .decrypt) (s.context csel).mode csel' (s.context csel).reg L' t).after :=
    congrArg Effect.after hdec
  rw [hu]
  refine ⟨fun hrule => ?_, fun hrule hecb h16 => ?_⟩
  · exact runPaddec_of_padenc hfg hm hmem hsrc' hlen' hbuf hbuf' hmode hc
      (boundOk_of_harmonized_or_cbc hrule (by omega) (by omega))
  · have h16' : L.length.toNat % 16 = 0 := h16
    refine runPaddec_of_padenc_outOfBound hfg hm hmem hsrc' hlen' hbuf hbuf' _ ?_
    rw [hrule, hecb, h16']
    rfl

end Sys2Proof.Machine
end

section
/-! Exceptions: how a command ends, the illegal command, and the codes ERR never takes (60_exceptions.md R262, R264, R265,
R267). -/

namespace Sys2Proof.Machine

/-! ### How a command ends (60_exceptions.md R262, R264) -/

/-- A command with the record `L` ends in success, in an error found before any access, or in the padding failure of
whole blocks, the one error that 60_exceptions.md R264 sets apart. -/
inductive Effect.Ends (L : Latch) (s : State) : Effect → Prop where
  | success {e : Effect} (herr : e.after.err = .success) : Effect.Ends L s e
  | error (k : ErrorKind) : Effect.Ends L s (.stop (raise k s))
  | paddingFailure {e : Effect} (herr : e.after.err = .failed .badData) (hcount : e.after.count = 0)
      (h16 : L.length % 16 = 0) : Effect.Ends L s e

/-- COUNT is 0 beside an error (60_exceptions.md R262). -/
theorem Effect.Ends.errorCount {L : Latch} {s : State} {e : Effect} (h : e.Ends L s) (he : e.after.err ≠ .success) :
    e.after.count = 0 := by
  cases h with
  | success herr => exact absurd herr he
  | error k => rfl
  | paddingFailure herr hcount h16 => exact hcount

/-- An error other than the padding failure accesses nothing and is only reported (60_exceptions.md R264). -/
theorem Effect.Ends.eq_stop_raise {L : Latch} {s : State} {e : Effect} {k : ErrorKind} (h : e.Ends L s)
    (hk : e.after.err = .failed k) (hpad : ¬ (k = .badData ∧ L.length % 16 = 0)) : e = .stop (raise k s) := by
  cases h with
  | success herr => rw [herr] at hk; cases hk
  | error k' => cases hk; rfl
  | paddingFailure herr hcount h16 =>
    rw [herr] at hk
    cases hk
    exact absurd ⟨rfl, h16⟩ hpad

theorem makekeyWith_ends (p : Primitive) (ksel : Nat) (kmp : Bool) (L : Latch) (s : State) :
    (Effect.stop (makekeyWith p ksel kmp L s)).Ends L s := by
  rcases makekeyWith_cases p ksel kmp L s with ⟨k, h⟩ | ⟨d, ks, raw, -, -, h⟩ <;> rw [h]
  · exact .error k
  · exact .success rfl

theorem cipherinitWith_ends (csel : Nat) (ivp : Bool) (L : Latch) (s : State) :
    (Effect.stop (cipherinitWith csel ivp L s)).Ends L s := by
  rcases cipherinitWith_cases csel ivp L s with ⟨k, h⟩ | ⟨m, iv, -, h⟩ <;> rw [h]
  · exact .error k
  · exact .success rfl

theorem blkencWith_ends (p : Primitive) (ksel csel : Nat) (L : Latch) (s : State) :
    (blkencWith p ksel csel L s).Ends L s := by
  rcases blkencWith_cases p ksel csel L s with ⟨-, h⟩ | ⟨-, -, h⟩ | ⟨-, -, -, h⟩ | ⟨-, -, -, h⟩ <;> rw [h]
  · exact .error _
  · exact .error _
  · exact .success rfl
  · exact .success rfl

theorem blkdecWith_ends (p : Primitive) (ksel csel : Nat) (L : Latch) (s : State) :
    (blkdecWith p ksel csel L s).Ends L s := by
  rcases blkdecWith_cases p ksel csel L s with ⟨-, h⟩ | ⟨-, -, h⟩ | ⟨-, -, -, h⟩ | ⟨-, -, -, h⟩ <;> rw [h]
  · exact .error _
  · exact .error _
  · exact .success rfl
  · exact .success rfl

theorem padencWith_ends (p : Primitive) (ksel csel : Nat) (L : Latch) (s : State) :
    (padencWith p ksel csel L s).Ends L s := by
  rcases padencWith_cases p ksel csel L s with
    ⟨-, h⟩ | ⟨-, -, h⟩ | ⟨-, -, -, h⟩ | ⟨-, -, -, -, h⟩ | ⟨-, -, -, -, h⟩ <;> rw [h]
  · exact .error _
  · exact .error _
  · exact .success rfl
  · exact .error _
  · exact .success rfl

/-- PADDEC of whole blocks succeeds or fails the padding check (42_padded.md R234, R236). -/
theorem runPaddec_ends (p : Primitive) (k : KeySlot) (m : Mode) (csel : Nat) (reg : Block) {L : Latch} (s : State)
    (h16 : L.length % 16 = 0) : (runPaddec p k m csel reg L s).Ends L s := by
  rw [runPaddec_eq]
  split
  · exact .success rfl
  · exact .paddingFailure rfl rfl h16

theorem paddecWith_ends (p : Primitive) (ksel csel : Nat) (L : Latch) (s : State) :
    (paddecWith p ksel csel L s).Ends L s := by
  rcases paddecWith_cases p ksel csel L s with
    ⟨-, h⟩ | ⟨-, -, h⟩ | ⟨-, -, -, h⟩ | ⟨-, -, -, -, h⟩ | ⟨-, -, -, -, -, h⟩ | ⟨-, -, -, h16, -, h⟩ <;> rw [h]
  · exact .error _
  · exact .error _
  · exact .success rfl
  · exact .error _
  · exact .error _
  · exact runPaddec_ends _ _ _ _ _ _ h16

/-- Every completed command, with the bytes it accesses and the state it leaves, ends in one of the three ways. -/
theorem exec_ends {i : Instr} {s t : State} {L : Latch} (hL : s.latch = some L) (h : exec i s = .next t) :
    (Effect.mk (commandFootprint i L s) t).Ends L s := by
  cases i with
  | makekey ksel kmp =>
    rw [exec_of_latch hL] at h
    cases h
    exact makekeyWith_ends ..
  | cipherinit csel ivp =>
    rw [exec_of_latch hL] at h
    cases h
    exact cipherinitWith_ends ..
  | blkenc ksel csel =>
    obtain ⟨-, rfl⟩ := exec_data_next hL rfl h
    exact blkencWith_ends ..
  | blkdec ksel csel =>
    obtain ⟨-, rfl⟩ := exec_data_next hL rfl h
    exact blkdecWith_ends ..
  | padenc ksel csel =>
    obtain ⟨-, rfl⟩ := exec_data_next hL rfl h
    exact padencWith_ends ..
  | paddec ksel csel =>
    obtain ⟨-, rfl⟩ := exec_data_next hL rfl h
    exact paddecWith_ends ..

/-- Settles O30: of the three ways a command ends, only an error found before any access fits. -/
theorem errorsChangeNothingElse : Obligations.ErrorsChangeNothingElse := by
  intro i s t L k hL h hk hpad
  exact Effect.mk.inj ((exec_ends hL h).eq_stop_raise hk hpad)

/-- Settles O21: the frame of a completed command, and COUNT by the way the command ends. -/
theorem completedCommandKeepsRegisters : Obligations.CompletedCommandKeepsRegisters := by
  intro i s t h
  obtain ⟨hsame, hlatch⟩ := exec_next_completes h
  obtain ⟨L, hL⟩ := exec_next_latch h
  exact ⟨hsame, hlatch, (exec_ends hL h).errorCount⟩

/-! ### The illegal command (60_exceptions.md R265) -/

/-- Settles O6: the word does not decode, and the engine's turn on such a word only reports BadCommand. -/
theorem illegalCommandReportsBadCommand : Obligations.IllegalCommandReportsBadCommand := by
  intro s L rest hf hL he hopc
  rw [step_engineTurn hf (.inl he)]
  exact engineTurn_illegal (s := { s with events := rest }) hL (decode_illegal hopc)

/-! ### The codes of ERR (60_exceptions.md R260, R267) -/

/-- The ERR field of the STATUS word is the code of the result. -/
theorem State.status_err (s : State) : s.status.extractLsb' 4 4 = s.err.code := by
  obtain ⟨-, -, -, -, -, -, herr⟩ := statusWordLayout s 0
  exact herr.trans s.err.code_eq.symm

/-- No result has one of the reserved codes. -/
theorem Result.code_not_reserved (r : Result) :
    r.code ≠ 6 ∧ ¬ (9 ≤ r.code.toNat ∧ r.code.toNat ≤ 14) := by
  cases r with
  | success => decide
  | failed k => cases k <;> decide

/-- Settles O17: the ERR field holds the code of a result, and no result has a reserved code. -/
theorem reservedErrorCodesNeverProduced : Obligations.ReservedErrorCodesNeverProduced := by
  intro s
  rw [s.status_err]
  exact s.err.code_not_reserved

end Sys2Proof.Machine
end

section
/-! Reset and validity (70_reset_and_hazards.md R291, R292). -/

namespace Sys2Proof.Machine

/-! ### Only a reset invalidates (R292) -/

/-- A completed command keeps every valid slot valid: the one it may write is then a slot MAKEKEY built. -/
theorem exec_keeps_slot_valid {i : Instr} {s t : State} {k : Nat} (h : exec i s = .next t)
    (hv : (s.slot k).valid = true) : (t.slot k).valid = true := by
  by_cases hk : t.slot k = s.slot k
  · rw [hk, hv]
  obtain ⟨kmp, rfl⟩ := exec_changes_slot h hk
  obtain ⟨L, -, rfl⟩ := exec_makekey_next h
  rcases makekeyWith_cases Config.primitive k kmp L s with ⟨e, hraise⟩ | ⟨d, ks, raw, -, -, hset⟩
  · rw [hraise, slot_raise, hv]
  · rw [hset, slot_finish, State.slot_setSlot, if_pos ⟨rfl, State.slot_lt_of_valid hv⟩, makeSlot]

/-- A completed command keeps every valid context valid: CIPHERINIT sets a valid one, and a data command keeps the valid
bit of its own. -/
theorem exec_keeps_context_valid {i : Instr} {s t : State} {j : Nat} (h : exec i s = .next t)
    (hv : (s.context j).valid = true) : (t.context j).valid = true := by
  by_cases hj : t.context j = s.context j
  · rw [hj, hv]
  rcases exec_changes_context h hj with ⟨ivp, rfl⟩ | ⟨-, hvalid, -⟩
  · obtain ⟨L, -, rfl⟩ := exec_cipherinit_next h
    rcases cipherinitWith_cases j ivp L s with ⟨e, hraise⟩ | ⟨m, iv, -, hset⟩
    · rw [hraise, context_raise, hv]
    · rw [hset, context_finish, State.context_setContext, if_pos ⟨rfl, State.context_lt_of_valid hv⟩]
  · rw [hvalid, hv]

/-- Settles O13: of the steps that are no reset only the completion of a command writes a slot or a context, and it
keeps every valid one valid. -/
theorem onlyResetInvalidates : Obligations.OnlyResetInvalidates := by
  intro s t h hr
  rcases step_slots_contexts h hr with ⟨hk, hc⟩ | ⟨L, i, es, u, -, -, hu, hk, hc⟩
  · simp only [State.slot_congr hk, State.context_congr hc]
    exact ⟨fun _ => id, fun _ => id⟩
  · simp only [State.slot_congr hk, State.context_congr hc]
    exact ⟨fun _ => exec_keeps_slot_valid (s := { s with events := es }) hu,
      fun _ => exec_keeps_context_valid (s := { s with events := es }) hu⟩

/-! ### The range a reset leaves unspecified (R291) -/

/-- How many bytes a command of opcode `opc` and length `n` could write at most (R291): the rows of
20_memory.md R86. -/
def maxWriteLength (rule : EcbPadRule) (opc n : Nat) : Nat :=
  if opc = 3 ∨ opc = 4 then 16 * (n / 128)
  else if opc = 5 then (if n = 0 then 0 else 16 * (n / 16 + 1))
  else if opc = 6 ∧ n % 16 = 0 then (if rule = .reference then n else n - 1)
  else 0

theorem abortSpan_command {s : State} {L : Latch} {i : Instr} (hL : s.latch = some L) (hi : decode L.cmd = .ok i) :
    abortSpan s = maxWriteSpan s.cfg.ecbPadRule i L := by
  simp [abortSpan, hL, hi]

theorem abortSpan_illegal {s : State} {L : Latch} {e : Reject} (hL : s.latch = some L)
    (he : decode L.cmd = .error e) : abortSpan s = Span.none := by
  simp [abortSpan, hL, he]

/-- A PADDEC could write into its whole blocks only, and under HARMONIZED not their last byte. -/
theorem maxWriteSpan_paddec_contains (rule : EcbPadRule) (ksel csel : Nat) (L : Latch) (a : Nat) :
    (maxWriteSpan rule (.paddec ksel csel) L).contains a = true ↔
      L.dstAddr ≤ a ∧ a < L.dstAddr + maxWriteLength rule 6 L.length.toNat := by
  by_cases hn : L.length.toNat % 16 = 0
  · cases rule <;> simp [maxWriteSpan, maxWriteLength, hn, Span.contains_iff]
  · simp [maxWriteSpan, maxWriteLength, hn]

/-- An illegal word could write nothing. -/
theorem maxWriteLength_illegal {rule : EcbPadRule} {w : Word} {n : Nat} (h : ¬ legalOpc w) :
    maxWriteLength rule (fieldOpc w).toNat n = 0 := by
  unfold legalOpc at h
  unfold maxWriteLength
  rw [if_neg (by omega), if_neg (by omega), if_neg (by omega)]

/-- Where a command is latched, the range a reset leaves unspecified starts at its DST and has the length its opcode and
length give. -/
theorem abortSpan_contains_iff {s : State} {L : Latch} (hL : s.latch = some L) (a : Nat) :
    (abortSpan s).contains a = true ↔ L.dstAddr ≤ a ∧
      a < L.dstAddr + maxWriteLength s.cfg.ecbPadRule (fieldOpc L.cmd).toNat L.length.toNat := by
  rcases decode_cases L.cmd with ⟨hopc, hi⟩ | ⟨hopc, hi⟩ | ⟨hopc, hi⟩ | ⟨hopc, hi⟩ | ⟨hopc, hi⟩ | ⟨hopc, hi⟩ |
    ⟨hill, he⟩
  · simp [abortSpan_command hL hi, hopc, maxWriteSpan, maxWriteLength]
  · simp [abortSpan_command hL hi, hopc, maxWriteSpan, maxWriteLength]
  · simp [abortSpan_command hL hi, hopc, maxWriteSpan, maxWriteLength, Span.contains_iff]
  · simp [abortSpan_command hL hi, hopc, maxWriteSpan, maxWriteLength, Span.contains_iff]
  · by_cases hn : L.length.toNat = 0 <;>
      simp [abortSpan_command hL hi, hopc, maxWriteSpan, maxWriteLength, Span.contains_iff, hn]
  · rw [abortSpan_command hL hi, hopc]
    exact maxWriteSpan_paddec_contains ..
  · simp [abortSpan_illegal hL he, maxWriteLength_illegal hill]

/-- A reset changes no byte of memory outside the range of the command it aborts. -/
theorem resetMachine_read_outside {s : State} {a : Nat} (hm : s.mem.wf = true)
    (ha : ¬ (abortSpan s).contains a = true) : (resetMachine s).mem.read a = s.mem.read a := by
  rw [Span.contains_iff] at ha
  exact (Memory.read_drawBytes _ _ _ _ a hm).trans (if_neg fun ⟨hlo, hhi, _⟩ => ha ⟨hlo, hhi⟩)

/-- Settles O12: the bytes a reset draws are those of the range of the latched command. -/
theorem resetAbortTouchesOnlyTheWriteRange : Obligations.ResetAbortTouchesOnlyTheWriteRange := by
  intro s L rest t hf hm hL he h
  rw [step_cons hf he] at h
  cases h
  refine ⟨(resetMachine_hasResetValues _).busy, fun a ha => resetMachine_read_outside hm fun hc => ha ?_⟩
  exact (abortSpan_contains_iff (s := { s with events := rest }) hL a).mp hc

end Sys2Proof.Machine
end
